-- ==== Sys2Proof/Word.lean ====
section
/-! DEFINITION. The unit's plain data types: bytes, register words, and the pixel. -/

namespace Sys2Proof

/-- One byte of HB, IN or OUT, or one colour channel (R7, R42). -/
abbrev Byte := BitVec 8

/-- A 16-bit field (`u16` of R8). -/
abbrev Half := BitVec 16

/-- A 32-bit register or command word (`u32` of R8; REG_WIDTH of R7). -/
abbrev Word := BitVec 32

/-- A pixel: three 8-bit channels, no alpha (R10, R41). -/
structure Pixel where
  red : Byte
  green : Byte
  blue : Byte
deriving DecidableEq, Repr, Inhabited

end Sys2Proof
end

