-- ==== Sys2Proof/Syntax.lean ====
section
/-! DEFINITION. The commands, the command word's fields, the registers' names, the host's notation and moves. -/

namespace Sys2Proof

/-- The unit's commands: one constructor per row of R56. No command carries an operand (R55). -/
inductive Instr where
  | fhUnpack
  | fhPack
  | ihUnpack
  | ihPack
  | stride
  | encode
  | decode
deriving DecidableEq, Repr

/-- The one command format (R55): OP in bits 3:0, ZERO in bits 31:4. -/
structure CmdFields where
  op : BitVec 4
  zero : BitVec 28
deriving DecidableEq, Repr

/-- The verdict every 32-bit word gets (R57, R58). -/
inductive Verdict where
  /-- A legal word: one row of R56. -/
  | command (i : Instr)
  /-- Illegal: bits 31:4 are not all 0. -/
  | zeroFieldSet
  /-- Illegal: OP is 0x0 or 0x8 to 0xF. -/
  | reservedOp
deriving DecidableEq, Repr

/-- The registers of R15 by name; `hbw k` is the k-th word of the window onto HB (R29, R68). -/
inductive Reg where
  | cmd | status | argW | strideLo | strideHi | padOut
  | inCtrl | inLenLo | inLenHi | outCtrl | outLen
  | imgW | imgH | imgCtrl
  | fhType | fhSize | fhReserved | fhOffBits
  | ihSize | ihWidth | ihHeight | ihPlanes | ihBitCount | ihCompression
  | ihSizeImage | ihXppm | ihYppm | ihClrUsed | ihClrImportant
  | hbw (k : Fin 14)
deriving DecidableEq, Repr

/-- A line of a host program (R68). A temporary tN and a label are named by their number. -/
inductive HostLine where
  | wr (r : Reg) (v : Word)
  | rd (r : Reg) (t : Nat)
  | andi (d t : Nat) (imm : Word)
  | bnz (t : Nat) (l : Nat)
  | label (l : Nat)
deriving DecidableEq, Repr

/-- The host's answer to a byte offered to the sink (R40): accept or fail; `never` is the host that breaks its duty
to answer (R135, U16). -/
inductive SinkAnswer where
  | accept
  | fail
  | never
deriving DecidableEq, Repr

/-- What the host may do in one move (R13, R37, R68, R124). -/
inductive HostAction where
  /-- A bus write of `bytes` bytes at REG offset `off` (R38). -/
  | write (off bytes : Nat) (v : Word)
  /-- A bus read of `bytes` bytes at REG offset `off` (R38). -/
  | read (off bytes : Nat)
  /-- Run the next line of the host program (R68). -/
  | line
  /-- Place a byte of the input stream (R37, R39). -/
  | putIn (addr : Nat) (b : Byte)
  /-- Place the pixel of row r, column c of a w-pixel-wide image (R37, R41), before or after the host writes w to
  IMG_W (R127). -/
  | putPixel (w r c : Nat) (px : Pixel)
  /-- Read a pixel of the image memory (R37, R41). -/
  | readPixel (r c : Nat)
  /-- Read the byte at a position of OUT (R37, R51). -/
  | readOut (pos : Nat)
  /-- Prepare the answer to the next byte not yet answered (P_SINK_ACK, R40). -/
  | answer (a : SinkAnswer)
  /-- Assert reset (R124). -/
  | reset
deriving DecidableEq, Repr

/-- One move of the two agents (R14). -/
inductive Move where
  /-- The unit runs its command: the whole of it in one transition if it stands at its start (R14, R34). -/
  | unit
  /-- The unit makes one access of its sequencer (R34, R51). -/
  | tick
  /-- The host acts. -/
  | host (a : HostAction)
deriving DecidableEq, Repr

end Sys2Proof
end

