-- ==== Sys2Proof/WellFormed.lean ====
section
/-! DEFINITION. When a command word, a host action and a host program are well formed. -/

namespace Sys2Proof

/-- R57: the ZERO field is 0 and OP is one of 1 to 7. -/
def CmdFields.wellFormed (f : CmdFields) : Bool :=
  f.zero == 0 && decide (1 ≤ f.op.toNat) && decide (f.op.toNat ≤ 7)

/-- Every command is well formed: it has no operand field that could be ill formed (R55). -/
def Instr.wellFormed : Instr → Bool
  | .fhUnpack => true
  | .fhPack => true
  | .ihUnpack => true
  | .ihPack => true
  | .stride => true
  | .encode => true
  | .decode => true

/-- R38: a bus access is a whole 32-bit word at a multiple of 4 inside the 256-byte space. -/
def busAccessOk (off bytes : Nat) : Bool :=
  bytes == 4 && off % 4 == 0 && decide (off < 256)

/-- A host action names places that exist: a bus access as R38 has it, an IN address below 2^64 (R23, R37), a pixel
of an image that some 32-bit IMG_W and IMG_H could give (R25, R41). -/
def HostAction.wellFormed : HostAction → Bool
  | .write off bytes _ => busAccessOk off bytes
  | .read off bytes => busAccessOk off bytes
  | .line => true
  | .putIn a _ => decide (a < 2 ^ 64)
  | .putPixel w r c _ => decide (w < 2 ^ 32) && decide (r < 2 ^ 32) && decide (c < w)
  | .readPixel r c => decide (r < 2 ^ 32) && decide (c < 2 ^ 32)
  | .readOut _ => true
  | .answer _ => true
  | .reset => true

/-- The labels a host program marks, in order (R68). -/
def programLabels : List HostLine → List Nat
  | [] => []
  | .label l :: rest => l :: programLabels rest
  | .wr _ _ :: rest => programLabels rest
  | .rd _ _ :: rest => programLabels rest
  | .andi _ _ _ :: rest => programLabels rest
  | .bnz _ _ :: rest => programLabels rest

/-- Whether a line's branch target is among the labels. -/
def HostLine.targetIn (labels : List Nat) : HostLine → Bool
  | .bnz _ l => labels.contains l
  | .wr _ _ => true
  | .rd _ _ => true
  | .andi _ _ _ => true
  | .label _ => true

/-- R68: each label is marked once, and every branch goes to a label of the program. -/
def hostProgramWellFormed (p : List HostLine) : Bool :=
  decide (programLabels p).Nodup && p.all (HostLine.targetIn (programLabels p))

end Sys2Proof
end

