-- ==== Sys2Proof/Decode.lean ====
section
/-! DEFINITION. The command decoder (total: every word gets a verdict), and the encoder written from the same table. -/

namespace Sys2Proof

/-- The fields of a command word (R55): OP is bits 3:0, ZERO is bits 31:4. -/
def cmdFields (v : Word) : CmdFields :=
  { op := v.extractLsb' 0 4, zero := v.extractLsb' 4 28 }

/-- The command word of its fields (R55). -/
def cmdWord (f : CmdFields) : Word :=
  f.zero ++ f.op

/-- The opcode map (R56), read from OP to the command. -/
def opCommand (op : BitVec 4) : Verdict :=
  match op.toNat with
  | 1 => .command .fhUnpack
  | 2 => .command .fhPack
  | 3 => .command .ihUnpack
  | 4 => .command .ihPack
  | 5 => .command .stride
  | 6 => .command .encode
  | 7 => .command .decode
  | _ => .reservedOp

/-- Command decode (R57, R58): the whole word must match a row of R56. -/
def decodeCmd (v : Word) : Verdict :=
  if (cmdFields v).zero = 0 then opCommand (cmdFields v).op else .zeroFieldSet

/-- The opcode map (R56), read from the command to OP. -/
def Instr.opcode : Instr → BitVec 4
  | .fhUnpack => 1
  | .fhPack => 2
  | .ihUnpack => 3
  | .ihPack => 4
  | .stride => 5
  | .encode => 6
  | .decode => 7

/-- The command word of a command (R55, R56). -/
def encode (i : Instr) : Word :=
  cmdWord { op := i.opcode, zero := 0 }

/-- The command of a row's bits, numbered as the opcode table numbers them: one 32-bit word (R59). -/
def decodeTableWord (nbits w : Nat) : Option Instr :=
  if w % 2 ^ nbits < 2 ^ 32 then
    match decodeCmd (BitVec.ofNat 32 (w % 2 ^ nbits)) with
    | .command i => some i
    | .zeroFieldSet => none
    | .reservedOp => none
  else none

end Sys2Proof
end

