-- ==== Sys2Proof/Config.lean ====
section
/-! DEFINITION. What is fixed for one machine (R7) and the free values the spec leaves open (its "draws", R13). -/

namespace Sys2Proof

/-- The parameters of R7 that are plain values; State carries them and no step changes them (log 3). -/
structure Params where
  /-- P_IMG_MAX_PIXELS: the most pixels the image memory holds, a natural number ≥ 1 (OPEN). -/
  imgMaxPixels : Nat
  /-- P_CLR_IMPORTANT: the important-colour count ENCODE writes (R93). -/
  clrImportant : Word
deriving DecidableEq, Repr

namespace Config

/-- HDR_BYTES = FH_BYTES + IH_BYTES (R7). -/
abbrev hdrBytes : Nat := 54
/-- FH_BYTES (R7). -/
abbrev fhBytes : Nat := 14
/-- IH_BYTES (R7). -/
abbrev ihBytes : Nat := 40
/-- BPP (R7). -/
abbrev bpp : Half := 24
/-- MAGIC (R7): the bytes 0x42, 0x4D. -/
abbrev magic : Half := 0x4D42
/-- PPM (R7): pixels per metre, both axes. -/
abbrev ppm : Word := 11811
/-- The largest value of a signed 32-bit field (R85 check 1). -/
abbrev maxDim : Nat := 2 ^ 31 - 1
/-- The largest value of an unsigned 32-bit field (R85 check 3). -/
abbrev maxSize : Nat := 2 ^ 32 - 1
/-- The default of P_CLR_IMPORTANT (R93). -/
abbrev clrImportantDefault : Word := 0x01000000

/-- What a register read returns when the rules leave it open: the n-th draw (R31, R130; U6; log 8). -/
opaque freeRead : Nat → Word
/-- P_SINK_ACK beyond the answers the host has prepared: the n-th draw, `true` for accept (R40; U15; log 4). -/
opaque freeSinkAck : Nat → Bool
/-- The IN byte at an address the host has not supplied, one draw per DECODE (R129; U8, U9; log 5). -/
opaque freeInByte : Nat → Nat → Byte
/-- The pixel a cell of the image memory holds that nobody has written (R36, R126; U8; log 6). -/
opaque heldPixel : Nat → Pixel
/-- What OUT holds at power-up: a byte sequence of any length (R36, R126; U8; log 7). -/
opaque heldOut : List Byte
/-- How many bytes the sink had accepted when a reset stopped ENCODE, before it is bounded (R125; U7; log 11). -/
opaque freeCount : Nat → Nat
/-- Whether DECODE had written a cell of the image memory when a reset stopped it (R125; U7; log 11). -/
opaque freeLanded : Nat → Nat → Bool
/-- What a host temporary that nothing has written holds (R68 gives no value; log 13). -/
opaque heldTemp : Nat → Word

end Config
end Sys2Proof
end

