-- ==== Sys2Proof/Machine/State.lean ====
section
/-! DEFINITION. The machine's state as plain data, its reset, and the reasons a step can stop. -/

namespace Sys2Proof.Machine

/-- The four file-header fields as raw patterns (R26, R61). -/
structure FileHeader where
  type : Half
  size : Word
  reserved : Word
  offBits : Word
deriving DecidableEq, Repr

/-- The eleven info-header fields as raw patterns (R27, R62). -/
structure InfoHeader where
  size : Word
  width : Word
  height : Word
  planes : Half
  bitCount : Half
  compression : Word
  sizeImage : Word
  xPelsPerMeter : Word
  yPelsPerMeter : Word
  clrUsed : Word
  clrImportant : Word
deriving DecidableEq, Repr

/-- The fields of STATUS (R17). The reserved bits are not stored: they read 0 and nothing writes them. -/
structure Status where
  busy : Bool
  done : Bool
  ok : Bool
  err : BitVec 4
deriving DecidableEq, Repr

/-- The error causes of R113. -/
inductive ErrCode where
  | illegal | ioIn | short | type | size | offset | format | dims | trunc | capacity | ioOut | range | write
deriving DecidableEq, Repr

/-- The step of the operation the sequencer stands at (R34). -/
inductive SeqStep where
  /-- Accepted; nothing of the operation has happened. -/
  | start
  /-- ENCODE: the bytes of `row` are being offered to the sink (R40, R89, R90). -/
  | offer
  /-- ENCODE: the row buffer is being filled from the image (R90). -/
  | gather
  /-- DECODE: the next row is to be read from IN (R106). -/
  | fetch
  /-- DECODE: the row buffer is being stored into the image (R106). -/
  | store
deriving DecidableEq, Repr

/-- The hidden sequencer state of a running command (R34). -/
structure Seq where
  /-- The accepted command word (R16, R57). -/
  word : Word
  /-- The current step of the operation. -/
  pos : SeqStep
  /-- The row counter: the on-disk row index. -/
  k : Nat
  /-- The column counter. -/
  c : Nat
  /-- The input byte pointer. -/
  p : Nat
  /-- The row buffer, reused from row to row; while ENCODE offers the headers the model keeps what is left of them here
  (DESIGN CHOICE, log 21). -/
  row : List Byte
deriving DecidableEq, Repr

/-- What a read by the host returned. -/
inductive Observation where
  | word (v : Word)
  | byte (b : Byte)
  | pixel (px : Pixel)
deriving DecidableEq, Repr

/-- The host as far as the rules speak of it (R13, R68, R130). -/
structure HostAgent where
  /-- The host program (R68). -/
  prog : List HostLine
  /-- The line it runs next. -/
  pc : Nat
  /-- The temporaries it has written, by number, strictly rising (R68). -/
  temps : List (Nat × Word)
  /-- A STATUS read has shown BUSY = 0 since the last CMD write (R130). -/
  polled : Bool
  /-- What its last read returned. -/
  seen : Option Observation
deriving DecidableEq, Repr

/-- Everything the spec gives the machine: R15 to R36, the memories of R37 to R42, the parameters of R7 and the host's
side of the interface. Field by field in INVENTORY.md. -/
@[ext]
structure State where
  status : Status
  argW : Word
  strideLo : Word
  strideHi : Word
  padOut : BitVec 2
  inReady : BitVec 1
  inLenLo : Word
  inLenHi : Word
  outReady : BitVec 1
  outLen : Word
  imgW : Word
  imgH : Word
  fh : FileHeader
  ih : InfoHeader
  hb : Vector Byte 54
  seq : Option Seq
  inMem : List Host.Cell
  /-- OUT still begins with what the sink held at power-up (R36, R126; log 7). -/
  outHeld : Bool
  /-- The bytes the sink has accepted since. -/
  out : List Byte
  /-- The written cells of the image memory, a row-major grid (R41; log 6). -/
  imgPix : List (Nat × Pixel)
  params : Params
  acks : List SinkAnswer
  host : HostAgent
  sched : List Move
  draws : Nat
  inEpoch : Nat
deriving DecidableEq, Repr

/-- Right after power-up and reset (R36, R124, R126): every register and HB 0, no command, nothing listed in the
host's memories. The last rows are the model's choices (logs 2 to 9 and 13). -/
def State.reset : State where
  status := { busy := false, done := false, ok := false, err := 0 }
  argW := 0
  strideLo := 0
  strideHi := 0
  padOut := 0
  inReady := 0
  inLenLo := 0
  inLenHi := 0
  outReady := 0
  outLen := 0
  imgW := 0
  imgH := 0
  fh := { type := 0, size := 0, reserved := 0, offBits := 0 }
  ih := { size := 0, width := 0, height := 0, planes := 0, bitCount := 0, compression := 0, sizeImage := 0,
          xPelsPerMeter := 0, yPelsPerMeter := 0, clrUsed := 0, clrImportant := 0 }
  hb := Vector.replicate 54 0
  seq := none
  inMem := []
  outHeld := true
  out := []
  imgPix := []
  params := { imgMaxPixels := 1431655747, clrImportant := Config.clrImportantDefault }
  acks := []
  host := { prog := [], pc := 0, temps := [], polled := true, seen := none }
  sched := []
  draws := 0
  inEpoch := 0

/-- How a command's operation ends (R10, R11): `finish OK`, `raise Fail(code)`, or not at all. -/
inductive Ending where
  | ok
  | fail (e : ErrCode)
  /-- The sink never answered an offered byte (R135, U16). -/
  | stuck
deriving DecidableEq, Repr

/-- An operation's end and the state its effects have made, before STATUS is written (R18). -/
structure CmdEnd where
  ending : Ending
  st : State
deriving DecidableEq, Repr

/-- The reasons the machine stops with a fault. -/
inductive Fault where
  /-- Raised by ENCODE (and by its sequencer) when the host's answer to an offered byte is `never`: "If the host never
  answers, ENCODE never completes" (R135; U16 `stuck`). Safe: nothing is claimed of the run after it. -/
  | sinkNeverAnswers
deriving DecidableEq, Repr

/-- The reasons a step has no meaning. All but the first are raised by host moves only, never by a command. -/
inductive Refusal where
  /-- A command that has no meaning yet. No arm of exec answers it. Safe. -/
  | notModelled (mnemonic : String)
  /-- Raised by a host access to REG that is not a whole aligned word of the space (R38, U11). Safe. -/
  | busAccess
  /-- Raised by a host access to IN or IMG_PIX while the unit owns it (R14, R51, R128, U12). Safe. -/
  | unitOwns
  /-- Raised by a host access to a pixel, an IN address or an OUT position that does not exist (R37, R41). Safe. -/
  | noSuchPlace
  /-- Raised by a host program's branch to a label it does not mark (R68). Safe. -/
  | noSuchLabel
deriving DecidableEq, Repr

end Sys2Proof.Machine
end

