-- ==== Sys2Proof/Machine/Flags.lean ====
section
/-! DEFINITION. The machine's only flags (R32): STATUS with its word and error codes, and the computed IMG_VALID. -/

namespace Sys2Proof.Machine

/-- A flag as one bit. -/
def bit (b : Bool) : BitVec 1 :=
  if b then 1 else 0

/-- The ERR number of an error cause (R113). -/
def ErrCode.code : ErrCode → BitVec 4
  | .illegal => 1
  | .ioIn => 2
  | .short => 3
  | .type => 4
  | .size => 5
  | .offset => 6
  | .format => 7
  | .dims => 8
  | .trunc => 9
  | .capacity => 10
  | .ioOut => 11
  | .range => 12
  | .write => 13

/-- The STATUS word (R17): BUSY bit 0, DONE bit 1, OK bit 2, ERR bits 11:8, every other bit 0. -/
def Status.word (t : Status) : Word :=
  (0 : BitVec 20) ++ t.err ++ (0 : BitVec 5) ++ bit t.ok ++ bit t.done ++ bit t.busy

/-- STATUS on acceptance (R18). -/
def Status.running : Status :=
  { busy := true, done := false, ok := false, err := 0 }

/-- STATUS on `complete(ok, code)` (R18). -/
def Status.completed (ok : Bool) (code : BitVec 4) : Status :=
  { busy := false, done := true, ok := ok, err := code }

/-- STATUS after `finish OK` (R18, R113). -/
def Status.success : Status :=
  Status.completed true 0

/-- STATUS after `raise Fail(e)` (R116). -/
def Status.failed (e : ErrCode) : Status :=
  Status.completed false e.code

/-- IMG_VALID, computed on each read (R25). -/
def imgValid (w h : Word) : Bool :=
  decide (1 ≤ w.toNat) && decide (1 ≤ h.toNat)

end Sys2Proof.Machine
end

