-- ==== Sys2Proof/Machine/Operands.lean ====
section
/-! DEFINITION. Field assembly, the two header records, row lengths and pixel bytes: every operand form of R9, R61 to R67. -/

namespace Sys2Proof.Machine

/-- `le16(B, o)` (R9). A byte the sequence does not have counts as 0. -/
def le16 (B : List Byte) (o : Nat) : Half :=
  B.getD (o + 1) 0 ++ B.getD o 0

/-- `le32(B, o)` (R9). -/
def le32 (B : List Byte) (o : Nat) : Word :=
  B.getD (o + 3) 0 ++ B.getD (o + 2) 0 ++ B.getD (o + 1) 0 ++ B.getD o 0

/-- `bytes16(v)` (R9). -/
def bytes16 (v : Half) : List Byte :=
  [v.extractLsb' 0 8, v.extractLsb' 8 8]

/-- `bytes32(v)` (R9). -/
def bytes32 (v : Word) : List Byte :=
  [v.extractLsb' 0 8, v.extractLsb' 8 8, v.extractLsb' 16 8, v.extractLsb' 24 8]

/-- `s32(v)`: a 32-bit pattern read as two's complement (R8). -/
def s32 (v : Word) : Int :=
  if v.getLsbD 31 then (v.toNat : Int) - 2 ^ 32 else (v.toNat : Int)

/-- `unpackFH` (R70), the layout of R61. -/
def unpackFH (B : List Byte) : FileHeader where
  type := le16 B 0
  size := le32 B 2
  reserved := le32 B 6
  offBits := le32 B 10

/-- `packFH` (R71). -/
def packFH (f : FileHeader) : List Byte :=
  bytes16 f.type ++ bytes32 f.size ++ bytes32 f.reserved ++ bytes32 f.offBits

/-- `unpackIH` (R74), the layout of R62 (log 15). -/
def unpackIH (B : List Byte) : InfoHeader where
  size := le32 B 0
  width := le32 B 4
  height := le32 B 8
  planes := le16 B 12
  bitCount := le16 B 14
  compression := le32 B 16
  sizeImage := le32 B 20
  xPelsPerMeter := le32 B 24
  yPelsPerMeter := le32 B 28
  clrUsed := le32 B 32
  clrImportant := le32 B 36

/-- `packIH` (R75). -/
def packIH (i : InfoHeader) : List Byte :=
  bytes32 i.size ++ bytes32 i.width ++ bytes32 i.height
    ++ bytes16 i.planes ++ bytes16 i.bitCount ++ bytes32 i.compression
    ++ bytes32 i.sizeImage ++ bytes32 i.xPelsPerMeter ++ bytes32 i.yPelsPerMeter
    ++ bytes32 i.clrUsed ++ bytes32 i.clrImportant

/-- `stride(w)`, on naturals with no wrap-around (R78). -/
def stride (w : Nat) : Nat :=
  4 * ((3 * w + 3) / 4)

/-- `padding(w)` (R79). -/
def padding (w : Nat) : Nat :=
  (4 - 3 * w % 4) % 4

/-- The three on-disk bytes of a pixel: blue, green, red (R44). -/
def pixelBytes (px : Pixel) : List Byte :=
  [px.blue, px.green, px.red]

/-- The pixel of column c in a row's bytes (R94 step 10). -/
def pixelOf (row : List Byte) (c : Nat) : Pixel where
  red := row.getD (3 * c + 2) 0
  green := row.getD (3 * c + 1) 0
  blue := row.getD (3 * c) 0

/-- HB[o .. o+n-1] as a byte sequence (R29, R42). -/
def hbSlice (hb : Vector Byte 54) (o n : Nat) : List Byte :=
  (hb.toList.drop o).take n

/-- HB with the bytes bs stored from index o; bytes past HB[53] fall away (R29). -/
def hbWrite (hb : Vector Byte 54) (o : Nat) (bs : List Byte) : Vector Byte 54 :=
  Vector.ofFn fun i => if o ≤ i.val ∧ i.val < o + bs.length then bs.getD (i.val - o) 0 else hb[i]

/-- The file header ENCODE builds for a file of `total` bytes (R87). -/
def builtFileHeader (total : Nat) : FileHeader where
  type := Config.magic
  size := BitVec.ofNat 32 total
  reserved := 0
  offBits := 54

/-- The info header ENCODE builds for a w × h image (R88, R93). -/
def builtInfoHeader (p : Params) (w h : Nat) : InfoHeader where
  size := 40
  width := BitVec.ofNat 32 w
  height := BitVec.ofNat 32 h
  planes := 1
  bitCount := Config.bpp
  compression := 0
  sizeImage := BitVec.ofNat 32 (h * stride w)
  xPelsPerMeter := Config.ppm
  yPelsPerMeter := Config.ppm
  clrUsed := 0
  clrImportant := p.clrImportant

end Sys2Proof.Machine
end

