-- ==== Sys2Proof/Machine/Ops.lean ====
section
/-! DEFINITION. The operations every meaning is written over: sparse memories, IN, OUT and IMG_PIX, the sink's answers,
acceptance, completion, `raise Fail`, and reset. -/

namespace Sys2Proof.Machine

/-! ### Sparse memories: a list of key and value in one canonical form, keys strictly rising -/

/-- What a key lists; an unlisted key lists no value (log 5, log 6). -/
def Memory.get? {α : Type} (m : List (Nat × α)) (k : Nat) : Option α :=
  match m with
  | [] => none
  | (a, v) :: t => if a = k then some v else Memory.get? t k

/-- Store a value at a key, keeping the keys strictly rising. -/
def Memory.set {α : Type} (m : List (Nat × α)) (k : Nat) (v : α) : List (Nat × α) :=
  match m with
  | [] => [(k, v)]
  | (a, u) :: t =>
    if k < a then (k, v) :: (a, u) :: t
    else if k = a then (k, v) :: t
    else (a, u) :: Memory.set t k v

/-- The canonical form: keys strictly rising. An unlisted key reads as no value, so no entry equals what it reads as. -/
def Memory.wf {α : Type} : List (Nat × α) → Bool
  | [] => true
  | (a, _) :: t => t.all (fun e => decide (a < e.1)) && Memory.wf t

/-- The memory that lists exactly the bytes bs from address a on. -/
def Memory.ofBytes (a : Nat) : List Byte → List Host.Cell
  | [] => []
  | b :: bs => (a, b) :: Memory.ofBytes (a + 1) bs

/-- The cell of the pixel at row r, column c of a w-pixel-wide image: "Row-major grid" (R41; log 6). -/
def pixelCell (w r c : Nat) : Nat :=
  r * w + c

/-! ### IN, IMG_PIX and OUT -/

/-- IN_LEN = IN_LEN_HI:IN_LEN_LO (R23). -/
def State.inLen (s : State) : Nat :=
  s.inLenHi.toNat * 2 ^ 32 + s.inLenLo.toNat

/-- IN[a]: the byte the host supplied, or this command's draw (R39, R129; log 5). -/
def State.inByte (s : State) (a : Nat) : Byte :=
  (Memory.get? s.inMem a).getD (Config.freeInByte s.inEpoch a)

/-- `MemRead(IN, a, n)` (R10, R39). -/
def State.memRead (s : State) (a n : Nat) : List Byte :=
  (List.range n).map fun j => s.inByte (a + j)

/-- A cell of the image memory: the pixel written there, or what the host holds (R126; log 6). -/
def State.imgCell (s : State) (i : Nat) : Pixel :=
  (Memory.get? s.imgPix i).getD (Config.heldPixel i)

/-- `ImgRead(r, c)` (R10, R41). -/
def State.imgRead (s : State) (r c : Nat) : Pixel :=
  s.imgCell (pixelCell s.imgW.toNat r c)

/-- `ImgWrite(r, c, px)` (R10, R41). -/
def State.imgWrite (s : State) (r c : Nat) (px : Pixel) : State :=
  { s with imgPix := Memory.set s.imgPix (pixelCell s.imgW.toNat r c) px }

/-- The image IMG_W × IMG_H fits the image memory, which holds at most P_IMG_MAX_PIXELS pixels (R37, R41). -/
def State.imgFits (s : State) : Bool :=
  decide (s.imgW.toNat * s.imgH.toNat ≤ s.params.imgMaxPixels)

/-- Row r, column c is a place of IMG_PIX: inside the image, and the image fits the memory (R37, R41). -/
def State.pixelExists (s : State) (r c : Nat) : Bool :=
  s.imgFits && decide (r < s.imgH.toNat) && decide (c < s.imgW.toNat)

/-- Row r, column c of a w-pixel-wide image is a place of some image that IMG_W and IMG_H can give, and its cell is
one of the P_IMG_MAX_PIXELS the memory has (R25, R41). -/
def State.cellExists (s : State) (w r c : Nat) : Bool :=
  decide (w < 2 ^ 32) && decide (r < 2 ^ 32) && decide (c < w) && decide (pixelCell w r c < s.params.imgMaxPixels)

/-- What OUT holds: the bytes accepted since the last ENCODE began or, where none has, since power-up, after what the
sink held then (R36, R40, R126). -/
def State.outBytes (s : State) : List Byte :=
  (if s.outHeld then Config.heldOut else []) ++ s.out

/-- A draw of P_SINK_ACK as an answer (R40). -/
def drawnAnswer (accepts : Bool) : SinkAnswer :=
  if accepts then .accept else .fail

/-- The host's answer to the j-th byte offered from here on (P_SINK_ACK, R40): an answer it has prepared, or a draw
(log 4). -/
def State.answerAt (s : State) (j : Nat) : SinkAnswer :=
  match s.acks[j]? with
  | some a => a
  | none => drawnAnswer (Config.freeSinkAck (s.draws + (j - s.acks.length)))

/-- The state once the next answer has been taken. -/
def State.answered (s : State) : State :=
  match s.acks with
  | _ :: rest => { s with acks := rest }
  | [] => { s with draws := s.draws + 1 }

/-- A byte the sink accepted (R40): appended to OUT and counted in OUT_LEN. -/
def State.putOut (s : State) (b : Byte) : State :=
  { s with out := s.out ++ [b], outLen := s.outLen + 1 }

/-- The state once the sink has taken the bytes bs, each answered with accept (R40): `memWrite` ends here when it
succeeds. -/
def State.sinkTook (s : State) (bs : List Byte) : State :=
  { s with
    out := s.out ++ bs
    outLen := s.outLen + BitVec.ofNat 32 bs.length
    acks := s.acks.drop bs.length
    draws := s.draws + (bs.length - s.acks.length) }

/-- `MemWrite(OUT, n, v)` (R40): the bytes are offered one at a time, in order; the first that is refused ends it. -/
def memWrite (v : List Byte) (s : State) : CmdEnd :=
  match v with
  | [] => { ending := .ok, st := s }
  | b :: bs =>
    match s.answerAt 0 with
    | .accept => memWrite bs (s.answered.putOut b)
    | .fail => { ending := .fail .write, st := s.answered }
    | .never => { ending := .stuck, st := s }

/-- ENCODE's fresh sink (R40, R83): OUT and OUT_LEN empty. -/
def State.startSink (s : State) : State :=
  { s with outHeld := false, out := [], outLen := 0 }

/-! ### Acceptance, completion and failure (R18, R57, R116) -/

/-- `on accept` (R18). -/
def State.accept (s : State) : State :=
  { s with status := Status.running }

/-- `on complete(ok, code)` (R18); completion discards the hidden state (R34). -/
def State.complete (s : State) (ok : Bool) (code : BitVec 4) : State :=
  { s with status := Status.completed ok code, seq := none }

/-- `finish OK` (R10, R18). -/
def State.finishOk (s : State) : State :=
  s.complete true 0

/-- `raise Fail(code)` (R10, R116): the unit's one way to take an error. Nothing is saved beside STATUS, there is no
handler; the return from it is the next command's acceptance (R118). -/
def State.raiseFail (s : State) (e : ErrCode) : State :=
  s.complete false e.code

/-- A command's end as the machine's outcome. -/
def CmdEnd.finish (r : CmdEnd) : Host.Outcome State Fault Refusal :=
  match r.ending with
  | .ok => .next r.st.finishOk
  | .fail e => .next (r.st.raiseFail e)
  | .stuck => .fault .sinkNeverAnswers

/-- A sequencer that has accepted a word and done nothing yet (R34). -/
def Seq.start (v : Word) : Seq :=
  { word := v, pos := .start, k := 0, c := 0, p := 0, row := [] }

/-- ENCODE's acceptance empties the sink (R40); no other acceptance touches it. -/
def State.freshSinkFor (d : Verdict) (s : State) : State :=
  match d with
  | .command .encode => s.startSink
  | _ => s

/-- The host's write of v to CMD while BUSY = 0 (R16, R18, R57): the word is accepted and the host has not polled yet
(R130). -/
def State.acceptCmd (v : Word) (s : State) : State :=
  { (s.freshSinkFor (decodeCmd v)).accept with
    seq := some (Seq.start v)
    host := { s.host with polled := false } }

/-- Every register, HB and the hidden state at reset (R36, R124); the memories, the parameters, the host and the
model's own fields as they are (R126). -/
def State.resetRegs (s : State) : State :=
  { State.reset with
    inMem := s.inMem
    outHeld := s.outHeld
    out := s.out
    imgPix := s.imgPix
    params := s.params
    acks := s.acks
    host := { s.host with polled := true }
    sched := s.sched
    draws := s.draws
    inEpoch := s.inEpoch }

end Sys2Proof.Machine
end

