-- ==== Sys2Proof/Machine/Bus.lean ====
section
/-! DEFINITION. The register space (R15 to R31): the offset map, what a host read returns and what a host write does. -/

namespace Sys2Proof.Machine

/-- The offset of a register (R15). -/
def regOffset : Reg → Nat
  | .cmd => 0x000
  | .status => 0x004
  | .argW => 0x008
  | .strideLo => 0x00C
  | .strideHi => 0x010
  | .padOut => 0x014
  | .inCtrl => 0x018
  | .inLenLo => 0x01C
  | .inLenHi => 0x020
  | .outCtrl => 0x024
  | .outLen => 0x028
  | .imgW => 0x030
  | .imgH => 0x034
  | .imgCtrl => 0x038
  | .fhType => 0x040
  | .fhSize => 0x044
  | .fhReserved => 0x048
  | .fhOffBits => 0x04C
  | .ihSize => 0x050
  | .ihWidth => 0x054
  | .ihHeight => 0x058
  | .ihPlanes => 0x05C
  | .ihBitCount => 0x060
  | .ihCompression => 0x064
  | .ihSizeImage => 0x068
  | .ihXppm => 0x06C
  | .ihYppm => 0x070
  | .ihClrUsed => 0x074
  | .ihClrImportant => 0x078
  | .hbw k => 0x080 + 4 * k.val

/-- The registers of R15 below the HB window, in offset order. -/
def namedRegs : List Reg :=
  [.cmd, .status, .argW, .strideLo, .strideHi, .padOut, .inCtrl, .inLenLo, .inLenHi, .outCtrl, .outLen,
   .imgW, .imgH, .imgCtrl, .fhType, .fhSize, .fhReserved, .fhOffBits,
   .ihSize, .ihWidth, .ihHeight, .ihPlanes, .ihBitCount, .ihCompression,
   .ihSizeImage, .ihXppm, .ihYppm, .ihClrUsed, .ihClrImportant]

/-- The register at an aligned offset; none at a reserved offset (R15, R30). -/
def regAt (off : Nat) : Option Reg :=
  if h : 0x080 ≤ off ∧ off < 0x0B8 then some (.hbw ⟨(off - 0x080) / 4, by omega⟩)
  else namedRegs.find? fun r => regOffset r == off

/-- A register's value (R15 to R30): bits above its width read 0. -/
def regRead (r : Reg) (s : State) : Word :=
  match r with
  | .cmd => 0
  | .status => s.status.word
  | .argW => s.argW
  | .strideLo => s.strideLo
  | .strideHi => s.strideHi
  | .padOut => s.padOut.setWidth 32
  | .inCtrl => s.inReady.setWidth 32
  | .inLenLo => s.inLenLo
  | .inLenHi => s.inLenHi
  | .outCtrl => s.outReady.setWidth 32
  | .outLen => s.outLen
  | .imgW => s.imgW
  | .imgH => s.imgH
  | .imgCtrl => (bit (imgValid s.imgW s.imgH)).setWidth 32
  | .fhType => s.fh.type.setWidth 32
  | .fhSize => s.fh.size
  | .fhReserved => s.fh.reserved
  | .fhOffBits => s.fh.offBits
  | .ihSize => s.ih.size
  | .ihWidth => s.ih.width
  | .ihHeight => s.ih.height
  | .ihPlanes => s.ih.planes.setWidth 32
  | .ihBitCount => s.ih.bitCount.setWidth 32
  | .ihCompression => s.ih.compression
  | .ihSizeImage => s.ih.sizeImage
  | .ihXppm => s.ih.xPelsPerMeter
  | .ihYppm => s.ih.yPelsPerMeter
  | .ihClrUsed => s.ih.clrUsed
  | .ihClrImportant => s.ih.clrImportant
  | .hbw k => le32 s.hb.toList (4 * k.val)

/-- A host write of v to a register while BUSY = 0: CMD issues the word (R16); a read-only register ignores it (R30);
any other keeps the bits of its width (R15, R28, R29). -/
def regWrite (r : Reg) (v : Word) (s : State) : State :=
  match r with
  | .cmd => s.acceptCmd v
  | .status => s
  | .argW => { s with argW := v }
  | .strideLo => s
  | .strideHi => s
  | .padOut => s
  | .inCtrl => { s with inReady := v.setWidth 1 }
  | .inLenLo => { s with inLenLo := v }
  | .inLenHi => { s with inLenHi := v }
  | .outCtrl => { s with outReady := v.setWidth 1 }
  | .outLen => s
  | .imgW => { s with imgW := v }
  | .imgH => { s with imgH := v }
  | .imgCtrl => s
  | .fhType => { s with fh := { s.fh with type := v.setWidth 16 } }
  | .fhSize => { s with fh := { s.fh with size := v } }
  | .fhReserved => { s with fh := { s.fh with reserved := v } }
  | .fhOffBits => { s with fh := { s.fh with offBits := v } }
  | .ihSize => { s with ih := { s.ih with size := v } }
  | .ihWidth => { s with ih := { s.ih with width := v } }
  | .ihHeight => { s with ih := { s.ih with height := v } }
  | .ihPlanes => { s with ih := { s.ih with planes := v.setWidth 16 } }
  | .ihBitCount => { s with ih := { s.ih with bitCount := v.setWidth 16 } }
  | .ihCompression => { s with ih := { s.ih with compression := v } }
  | .ihSizeImage => { s with ih := { s.ih with sizeImage := v } }
  | .ihXppm => { s with ih := { s.ih with xPelsPerMeter := v } }
  | .ihYppm => { s with ih := { s.ih with yPelsPerMeter := v } }
  | .ihClrUsed => { s with ih := { s.ih with clrUsed := v } }
  | .ihClrImportant => { s with ih := { s.ih with clrImportant := v } }
  | .hbw k => { s with hb := hbWrite s.hb (4 * k.val) (bytes32 v) }

/-- The result registers of R130, whose reads are defined only once the host has polled. IMG_CTRL is computed from two
of them (log 9). -/
def regIsResult : Reg → Bool
  | .strideLo | .strideHi | .padOut | .outLen | .imgW | .imgH | .imgCtrl => true
  | .fhType | .fhSize | .fhReserved | .fhOffBits => true
  | .ihSize | .ihWidth | .ihHeight | .ihPlanes | .ihBitCount | .ihCompression => true
  | .ihSizeImage | .ihXppm | .ihYppm | .ihClrUsed | .ihClrImportant => true
  | .hbw _ => true
  | .cmd | .status | .argW | .inCtrl | .inLenLo | .inLenHi | .outCtrl => false

/-- Whether a read of r returns a draw (R31, R130): while BUSY = 1 of any register but STATUS; of a result register
until the host has polled. -/
def State.readIsOpen (s : State) (r : Reg) : Bool :=
  r != .status && (s.status.busy || (regIsResult r && !s.host.polled))

/-- The word a host read of an aligned offset returns (R30, R31, R38, R130). -/
def busReadValue (off : Nat) (s : State) : Word :=
  match regAt off with
  | none => 0
  | some r => if s.readIsOpen r then Config.freeRead s.draws else regRead r s

/-- The state a host read leaves (R48): a STATUS read that shows BUSY = 0 is the host's poll (R130); a draw is spent. -/
def busReadState (off : Nat) (s : State) : State :=
  match regAt off with
  | none => s
  | some r =>
    if s.readIsOpen r then { s with draws := s.draws + 1 }
    else if r = .status ∧ s.status.busy = false then { s with host := { s.host with polled := true } }
    else s

/-- A host read of REG (R38): refused unless a whole aligned word; the host sees the word. -/
def busRead (off bytes : Nat) (s : State) : Host.Outcome State Fault Refusal :=
  if busAccessOk off bytes then
    let t := busReadState off s
    .next { t with host := { t.host with seen := some (.word (busReadValue off s)) } }
  else .refused .busAccess

/-- A host write of REG (R31, R38): refused unless a whole aligned word, lost while BUSY = 1 or at a reserved offset. -/
def busWrite (off bytes : Nat) (v : Word) (s : State) : Host.Outcome State Fault Refusal :=
  if busAccessOk off bytes then
    if s.status.busy then .next s
    else
      match regAt off with
      | none => .next s
      | some r => .next (regWrite r v s)
  else .refused .busAccess

end Sys2Proof.Machine
end

