-- ==== Sys2Proof/Machine/Decoder.lean ====
section
/-! DEFINITION. The BMP decoder: DECODE (R94 to R111). -/

namespace Sys2Proof.Machine

/-- The first of DECODE's checks on the headers to fail, steps 3 to 8b in order (R97 to R104); L is IN_LEN. -/
def decodeCheck (f : FileHeader) (i : InfoHeader) (L maxPixels : Nat) : Option ErrCode :=
  if f.type ≠ Config.magic then some .type
  else if f.size.toNat ≠ L then some .size
  else if f.offBits.toNat < 54 ∨ f.offBits.toNat > f.size.toNat then some .offset
  else if i.bitCount ≠ Config.bpp then some .format
  else if s32 i.width ≤ 0 ∨ s32 i.height ≤ 0 then some .dims
  else if f.offBits.toNat + i.height.toNat * (3 * i.width.toNat + padding i.width.toNat) > L then some .trunc
  else if i.width.toNat * i.height.toNat > maxPixels then some .capacity
  else none

/-- DECODE fails (R110): the image is the 0 × 0 sentinel, and no pixel is written. -/
def decodeFail (e : ErrCode) (s : State) : CmdEnd :=
  { ending := .fail e, st := { s with imgW := 0, imgH := 0 } }

/-- The 54 header bytes of IN in HB, and their fields in FH_* and IH_* (R94, R96). -/
def State.loadHeaders (s : State) : State :=
  let H := s.memRead 0 54
  { s with hb := hbWrite s.hb 0 H, fh := unpackFH (H.take 14), ih := unpackIH (H.drop 14) }

/-- DECODE up to its first pixel (R94 steps 1 to 9). -/
def decodePrepare (s : State) : CmdEnd :=
  if s.inReady = 0 then decodeFail .ioIn s
  else if s.inLen < 54 then decodeFail .short s
  else
    let t := s.loadHeaders
    match decodeCheck t.fh t.ih s.inLen s.params.imgMaxPixels with
    | some e => decodeFail e t
    | none => { ending := .ok, st := { t with imgW := t.ih.width, imgH := t.ih.height } }

/-- The image with one row's bytes stored into in-memory row r, columns 0 to w - 1 (R106). -/
def storeRow (w r : Nat) (row : List Byte) (m : List (Nat × Pixel)) : List (Nat × Pixel) :=
  (List.range w).foldl (fun m c => Memory.set m (pixelCell w r c) (pixelOf row c)) m

/-- The pixel rows still to read, n of them, the next at file offset p (R106): it is in-memory row n - 1, and the
padding after it is skipped. -/
def decodeRows (s : State) (w : Nat) (n p : Nat) (m : List (Nat × Pixel)) : List (Nat × Pixel) :=
  match n with
  | 0 => m
  | r + 1 => decodeRows s w r (p + 3 * w + padding w) (storeRow w r (s.memRead p (3 * w)) m)

/-- DECODE's operation (R94). -/
def decodeBody (s : State) : CmdEnd :=
  match decodePrepare s with
  | { ending := .ok, st := t } =>
    { ending := .ok
      st := { t with imgPix := decodeRows t t.imgW.toNat t.imgH.toNat t.fh.offBits.toNat t.imgPix } }
  | e => e

/-- The draw of unsupplied IN bytes that this DECODE used is spent (R129; log 5). -/
def CmdEnd.spendInDraw (r : CmdEnd) : CmdEnd :=
  { r with st := { r.st with inEpoch := r.st.inEpoch + 1 } }

/-- DECODE (R94). -/
def execDecode (s : State) : Host.Outcome State Fault Refusal :=
  (decodeBody s).spendInDraw.finish

end Sys2Proof.Machine
end

