-- ==== Sys2Proof/Machine/Encoder.lean ====
section
/-! DEFINITION. The BMP encoder: ENCODE (R83 to R93). -/

namespace Sys2Proof.Machine

/-- The size of the encoded file (R83, R85). -/
def encodedSize (w h : Nat) : Nat :=
  h * stride w + 54

/-- The first of ENCODE's checks to fail, in the order of R115 (R84, R85). -/
def encodeCheck (s : State) : Option ErrCode :=
  if s.outReady = 0 then some .ioOut
  else if s.imgW.toNat > Config.maxDim ∨ s.imgH.toNat > Config.maxDim then some .range
  else if s.imgW.toNat * s.imgH.toNat > s.params.imgMaxPixels then some .capacity
  else if encodedSize s.imgW.toNat s.imgH.toNat > Config.maxSize then some .range
  else none

/-- The headers built for the image, in FH_*, IH_* and HB (R83, R87, R88). -/
def State.buildHeaders (s : State) : State :=
  let f := builtFileHeader (encodedSize s.imgW.toNat s.imgH.toNat)
  let i := builtInfoHeader s.params s.imgW.toNat s.imgH.toNat
  { s with fh := f, ih := i, hb := hbWrite (hbWrite s.hb 0 (packFH f)) 14 (packIH i) }

/-- ENCODE up to its first offered byte (R83): the fresh sink, the checks, the headers. -/
def encodePrepare (s : State) : CmdEnd :=
  match encodeCheck s with
  | some e => { ending := .fail e, st := s.startSink }
  | none => { ending := .ok, st := s.startSink.buildHeaders }

/-- The bytes of in-memory row r of a w-pixel-wide image on disk (R64, R90). -/
def rowBytes (s : State) (w r : Nat) : List Byte :=
  ((List.range w).flatMap fun c => pixelBytes (s.imgRead r c)) ++ List.replicate (stride w - 3 * w) 0

/-- The pixel rows still to write, n of them (R90): the next is in-memory row n - 1, so the bottom row goes first. -/
def encodeRows (w : Nat) (n : Nat) (s : State) : CmdEnd :=
  match n with
  | 0 => { ending := .ok, st := s }
  | r + 1 =>
    match memWrite (rowBytes s w r) s with
    | { ending := .ok, st := t } => encodeRows w r t
    | e => e

/-- ENCODE's operation (R83). -/
def encodeBody (s : State) : CmdEnd :=
  match encodePrepare s with
  | { ending := .ok, st := t } =>
    match memWrite t.hb.toList t with
    | { ending := .ok, st := u } => encodeRows u.imgW.toNat u.imgH.toNat u
    | e => e
  | e => e

/-- ENCODE (R83). -/
def execEncode (s : State) : Host.Outcome State Fault Refusal :=
  (encodeBody s).finish

end Sys2Proof.Machine
end

