-- ==== Sys2Proof/Machine/Headers.lean ====
section
/-! DEFINITION. The header parsers and packers: FH_UNPACK, FH_PACK, IH_UNPACK, IH_PACK (R72, R73, R76, R77). -/

namespace Sys2Proof.Machine

/-- FH_UNPACK (R72). -/
def execFhUnpack (s : State) : Host.Outcome State Fault Refusal :=
  .next ({ s with fh := unpackFH (hbSlice s.hb 0 14) } : State).finishOk

/-- FH_PACK (R73). -/
def execFhPack (s : State) : Host.Outcome State Fault Refusal :=
  .next ({ s with hb := hbWrite s.hb 0 (packFH s.fh) } : State).finishOk

/-- IH_UNPACK (R76). -/
def execIhUnpack (s : State) : Host.Outcome State Fault Refusal :=
  .next ({ s with ih := unpackIH (hbSlice s.hb 14 40) } : State).finishOk

/-- IH_PACK (R77). -/
def execIhPack (s : State) : Host.Outcome State Fault Refusal :=
  .next ({ s with hb := hbWrite s.hb 14 (packIH s.ih) } : State).finishOk

end Sys2Proof.Machine
end

