-- ==== Sys2Proof/Machine/Stride.lean ====
section
/-! DEFINITION. The stride calculator: STRIDE (R81). -/

namespace Sys2Proof.Machine

/-- STRIDE (R81): the 64-bit stride of ARG_W in STRIDE_HI:STRIDE_LO, its padding in PAD_OUT. -/
def execStride (s : State) : Host.Outcome State Fault Refusal :=
  let r : BitVec 64 := BitVec.ofNat 64 (stride s.argW.toNat)
  .next ({ s with
    strideLo := r.extractLsb' 0 32
    strideHi := r.extractLsb' 32 32
    padOut := BitVec.ofNat 2 (padding s.argW.toNat) } : State).finishOk

end Sys2Proof.Machine
end

