-- ==== Sys2Proof/Machine/Dispatch.lean ====
section
/-! DEFINITION. One arm per command: a command's effect from its acceptance to its completion, in one transition (R14, R34). -/

namespace Sys2Proof.Machine

def exec (i : Instr) (s : State) : Host.Outcome State Fault Refusal :=
  match i with
  | .fhUnpack => Sys2Proof.Machine.execFhUnpack s
  | .fhPack => Sys2Proof.Machine.execFhPack s
  | .ihUnpack => Sys2Proof.Machine.execIhUnpack s
  | .ihPack => Sys2Proof.Machine.execIhPack s
  | .stride => Sys2Proof.Machine.execStride s
  | .encode => Sys2Proof.Machine.execEncode s
  | .decode => Sys2Proof.Machine.execDecode s

end Sys2Proof.Machine
end

