-- ==== Sys2Proof/Machine/Sequencer.lean ====
section
/-! DEFINITION. The unit's moves: a command run whole (R14, R34), and the same command one access at a time over the
hidden sequencer state of R34, in the order its rule lists the accesses (R51). -/

namespace Sys2Proof.Machine

/-- The sequencer's first move: a command of no loop runs; ENCODE and DECODE make their checks and come to their first
access (R83, R94). R34 lists no place for the header bytes ENCODE is offering: that HB is copied into the row buffer is
the model's choice (log 21). -/
def tickStart (q : Seq) (s : State) : Host.Outcome State Fault Refusal :=
  match decodeCmd q.word with
  | .command .encode =>
    match encodePrepare s with
    | { ending := .ok, st := t } =>
      .next { t with seq := some { q with pos := .offer, k := 0, c := 0, row := t.hb.toList } }
    | e => e.finish
  | .command .decode =>
    match decodePrepare s with
    | { ending := .ok, st := t } =>
      .next { t with seq := some { q with pos := .fetch, k := 0, c := 0, p := t.fh.offBits.toNat, row := [] } }
    | e => e.spendInDraw.finish
  | .command i => exec i s
  | .zeroFieldSet => .next (s.raiseFail .illegal)
  | .reservedOp => .next (s.raiseFail .illegal)

/-- ENCODE offers the next byte of the buffer (R40), or goes on to the next row, or finishes (R90, R92). -/
def tickOffer (q : Seq) (s : State) : Host.Outcome State Fault Refusal :=
  match q.row with
  | b :: bs =>
    match s.answerAt 0 with
    | .accept => .next { s.answered.putOut b with seq := some { q with row := bs } }
    | .fail => .next (s.answered.raiseFail .write)
    | .never => .fault .sinkNeverAnswers
  | [] =>
    if q.k < s.imgH.toNat then .next { s with seq := some { q with pos := .gather, c := 0 } }
    else .next s.finishOk

/-- ENCODE reads the next pixel of the row into the buffer, or pads the row (R90). -/
def tickGather (q : Seq) (s : State) : Host.Outcome State Fault Refusal :=
  let w := s.imgW.toNat
  if q.c < w then
    .next { s with seq := some { q with c := q.c + 1
                                        row := q.row ++ pixelBytes (s.imgRead (s.imgH.toNat - 1 - q.k) q.c) } }
  else
    .next { s with seq := some { q with pos := .offer, k := q.k + 1
                                        row := q.row ++ List.replicate (stride w - 3 * w) 0 } }

/-- DECODE reads the next row from IN into the buffer, or finishes (R106, R107). -/
def tickFetch (q : Seq) (s : State) : Host.Outcome State Fault Refusal :=
  if q.k < s.imgH.toNat then
    .next { s with seq := some { q with pos := .store, c := 0, row := s.memRead q.p (3 * s.imgW.toNat) } }
  else
    ({ ending := .ok, st := s } : CmdEnd).spendInDraw.finish

/-- DECODE stores the next pixel of the buffer, or skips the padding (R106). -/
def tickStore (q : Seq) (s : State) : Host.Outcome State Fault Refusal :=
  let w := s.imgW.toNat
  if q.c < w then
    .next { s.imgWrite (s.imgH.toNat - 1 - q.k) q.c (pixelOf q.row q.c) with seq := some { q with c := q.c + 1 } }
  else
    .next { s with seq := some { q with pos := .fetch, k := q.k + 1, p := q.p + 3 * w + padding w, row := [] } }

/-- One move of the sequencer (R34); with no command running the unit waits (R124). -/
def tick (s : State) : Host.Outcome State Fault Refusal :=
  match s.seq with
  | none => .next s
  | some q =>
    match q.pos with
    | .start => tickStart q s
    | .offer => tickOffer q s
    | .gather => tickGather q s
    | .fetch => tickFetch q s
    | .store => tickStore q s

/-- n moves of the sequencer, one after another. -/
def ticks (n : Nat) (s : State) : Host.Outcome State Fault Refusal :=
  match n with
  | 0 => .next s
  | n + 1 =>
    match tick s with
    | .next t => ticks n t
    | .fault e => .fault e
    | .refused r => .refused r

/-- Run an accepted word (R57): the command of a legal word, ERR_ILLEGAL for any other (R58). -/
def runWord (v : Word) (s : State) : Host.Outcome State Fault Refusal :=
  match decodeCmd v with
  | .command i => exec i s
  | .zeroFieldSet => .next (s.raiseFail .illegal)
  | .reservedOp => .next (s.raiseFail .illegal)

/-- The unit's move: the whole of a command that stands at its start, one access of a command under way (log 1). -/
def unitMove (s : State) : Host.Outcome State Fault Refusal :=
  match s.seq with
  | none => .next s
  | some q =>
    match q.pos with
    | .start => runWord q.word s
    | .offer => tick s
    | .gather => tick s
    | .fetch => tick s
    | .store => tick s

/-- Cell i of `new` stored over m, if a draw says that it had landed (R125; log 11). -/
def landPixel (d i : Nat) (new m : List (Nat × Pixel)) : List (Nat × Pixel) :=
  match Memory.get? new i with
  | some px => if Config.freeLanded d i then Memory.set m i px else m
  | none => m

/-- The first n cells of `new`, each landed or not by a draw, over `old` (R125; log 11). -/
def landedPixels (d n : Nat) (new old : List (Nat × Pixel)) : List (Nat × Pixel) :=
  (List.range n).foldl (fun m i => landPixel d i new m) old

/-- What a reset during a command leaves in OUT and IMG_PIX when the command was last seen at its start (R125): some
number of the bytes ENCODE would have had accepted, some of the pixels DECODE would have written. -/
def State.abortEffects (v : Word) (s : State) : State :=
  match decodeCmd v with
  | .command .encode =>
    let r := (encodeBody s).st
    let n := Config.freeCount r.draws % (r.out.length + 1)
    { s with outHeld := false, out := r.out.take n, acks := s.acks.drop n, draws := r.draws + 1 }
  | .command .decode =>
    match decodeBody s with
    | { ending := .ok, st := r } =>
      { s with
        imgPix := landedPixels s.draws (r.imgW.toNat * r.imgH.toNat) r.imgPix s.imgPix
        draws := s.draws + 1
        inEpoch := s.inEpoch + 1 }
    | _ => { s with inEpoch := s.inEpoch + 1 }
  | _ => s

/-- The host asserts reset (R124 to R126). A command under way has had exactly the accesses its sequencer made. -/
def State.applyReset (s : State) : State :=
  match s.seq with
  | none => s.resetRegs
  | some q =>
    match q.pos with
    | .start => (s.abortEffects q.word).resetRegs
    | .offer => s.resetRegs
    | .gather => s.resetRegs
    | .fetch => ({ s with inEpoch := s.inEpoch + 1 } : State).resetRegs
    | .store => ({ s with inEpoch := s.inEpoch + 1 } : State).resetRegs

end Sys2Proof.Machine
end

