-- ==== Sys2Proof/Machine/HostMoves.lean ====
section
/-! DEFINITION. The host's moves (R13, R37, R124) and its programs (R68, R69). -/

namespace Sys2Proof.Machine

/-! ### Host programs (R68) -/

/-- The value of a host temporary: what it was last given, or what the host happens to hold (log 13). -/
def HostAgent.temp (h : HostAgent) (t : Nat) : Word :=
  (Memory.get? h.temps t).getD (Config.heldTemp t)

/-- Give a host temporary a value. -/
def HostAgent.setTemp (h : HostAgent) (t : Nat) (v : Word) : HostAgent :=
  { h with temps := Memory.set h.temps t v }

/-- The line number of a label (R68). -/
def labelIndex (p : List HostLine) (l : Nat) : Option Nat :=
  p.findIdx? fun x => x == .label l

/-- The host goes on to line n of its program. -/
def State.atLine (s : State) (n : Nat) : State :=
  { s with host := { s.host with pc := n } }

/-- The host runs the next line of its program (R68); past its last line it does nothing. -/
def hostLine (s : State) : Host.Outcome State Fault Refusal :=
  match s.host.prog[s.host.pc]? with
  | none => .next s
  | some (.wr r v) => busWrite (regOffset r) 4 v (s.atLine (s.host.pc + 1))
  | some (.rd r t) =>
    match busRead (regOffset r) 4 (s.atLine (s.host.pc + 1)) with
    | .next u => .next { u with host := u.host.setTemp t (busReadValue (regOffset r) s) }
    | .fault e => .fault e
    | .refused e => .refused e
  | some (.andi d t imm) =>
    .next { s with host := { s.host.setTemp d (s.host.temp t &&& imm) with pc := s.host.pc + 1 } }
  | some (.bnz t l) =>
    if s.host.temp t = 0 then .next (s.atLine (s.host.pc + 1))
    else
      match labelIndex s.host.prog l with
      | some n => .next (s.atLine n)
      | none => .refused .noSuchLabel
  | some (.label _) => .next (s.atLine (s.host.pc + 1))

/-- `cmd OP` (R69). -/
def cmdLines (i : Instr) : List HostLine :=
  [.wr .cmd (encode i)]

/-- `poll` (R69), with its label l; t0 and t1 are the temporaries 0 and 1. -/
def pollLines (l : Nat) : List HostLine :=
  [.label l, .rd .status 0, .andi 1 0 1, .bnz 1 l]

/-- `wrhb k, b0, b1, b2, b3` (R69). -/
def wrhbLines (k : Fin 14) (b0 b1 b2 b3 : Byte) : List HostLine :=
  [.wr (.hbw k) (le32 [b0, b1, b2, b3] 0)]

/-- `run OP` (R69). -/
def runLines (i : Instr) (l : Nat) : List HostLine :=
  cmdLines i ++ pollLines l

/-! ### The host's other moves -/

/-- The unit owns IN and IMG_PIX from the CMD write until the host has read STATUS with BUSY = 0: the host neither
writes them (R128) nor reads IMG_PIX (R14, R37, R51) between (log 10). -/
def State.unitOwns (s : State) : Bool :=
  s.status.busy || !s.host.polled

/-- One action of the host. -/
def hostMove (a : HostAction) (s : State) : Host.Outcome State Fault Refusal :=
  match a with
  | .write off bytes v => busWrite off bytes v s
  | .read off bytes => busRead off bytes s
  | .line => hostLine s
  | .putIn a b =>
    if s.unitOwns then .refused .unitOwns
    else if a < 2 ^ 64 then .next { s with inMem := Memory.set s.inMem a b }
    else .refused .noSuchPlace
  | .putPixel w r c px =>
    if s.unitOwns then .refused .unitOwns
    else if s.cellExists w r c then .next { s with imgPix := Memory.set s.imgPix (pixelCell w r c) px }
    else .refused .noSuchPlace
  | .readPixel r c =>
    if s.unitOwns then .refused .unitOwns
    else if s.pixelExists r c then
      .next { s with host := { s.host with seen := some (.pixel (s.imgRead r c)) } }
    else .refused .noSuchPlace
  | .readOut p =>
    match s.outBytes[p]? with
    | some b => .next { s with host := { s.host with seen := some (.byte b) } }
    | none => .refused .noSuchPlace
  | .answer a => .next { s with acks := s.acks ++ [a] }
  | .reset => .next s.applyReset

/-- One move of an agent (R14). -/
def runMove (m : Move) (s : State) : Host.Outcome State Fault Refusal :=
  match m with
  | .unit => unitMove s
  | .tick => tick s
  | .host a => hostMove a s

/-- The move made when none is scheduled: the unit runs its command, or else the host runs its program (R134; log 2). -/
def defaultMove (s : State) : Move :=
  match s.seq with
  | some _ => .unit
  | none => .host .line

/-- The schedule with the unit's move next; an empty schedule has it next already when a command runs. -/
def unitNext : List Move → List Move
  | [] => []
  | m :: ms => .unit :: m :: ms

end Sys2Proof.Machine
end

