-- ==== Sys2Proof/Machine/Step.lean ====
section
/-! DEFINITION. One step: the next scheduled move, or the default one; and the word that makes the next step run a command. -/

namespace Sys2Proof.Machine

/-- One step of the machine (R14; log 2). -/
def step (s : State) : Host.Outcome State Fault Refusal :=
  match s.sched with
  | m :: ms => runMove m { s with sched := ms }
  | [] => runMove (defaultMove s) s

/-- The state in which the host has written the word w to CMD and the unit moves next, so that the very next step
decodes it and runs exactly it (log 14). -/
def State.withFetchWord (s : State) (nbits w : Nat) : State :=
  { s.acceptCmd (BitVec.ofNat 32 (w % 2 ^ nbits)) with sched := unitNext s.sched }

end Sys2Proof.Machine
end

