-- ==== Sys2Proof/Safety.lean ====
section
/-! DEFINITION. What a good state is: the legal STATUS combinations, the canonical memories, and the bounds the hidden
sequencer keeps. -/

namespace Sys2Proof.Machine

/-- The four legal combinations of STATUS (R17), with a produced error code (R113: 14 and 15 are never produced). -/
def Status.legal (t : Status) : Bool :=
  match t.busy, t.done, t.ok with
  | false, false, false => t.err == 0
  | true, false, false => t.err == 0
  | false, true, true => t.err == 0
  | false, true, false => t.err != 0 && decide (t.err.toNat ≤ 13)
  | _, _, _ => false

/-- Where the hidden sequencer may stand, and within which bounds (R34, R39, R41, R85, R90, R103, R104, R106). R34
bounds the row buffer by stride(w); that it holds the 54 header bytes first is the model's choice (log 21). -/
def State.seqInBounds (s : State) (q : Seq) : Prop :=
  let w := s.imgW.toNat
  let h := s.imgH.toNat
  match q.pos with
  | .start => q = Seq.start q.word
  | .offer =>
    decodeCmd q.word = .command .encode ∧ w * h ≤ s.params.imgMaxPixels ∧ q.k ≤ h
      ∧ q.row.length ≤ max 54 (stride w)
  | .gather =>
    decodeCmd q.word = .command .encode ∧ w * h ≤ s.params.imgMaxPixels ∧ q.k < h ∧ q.c ≤ w
      ∧ q.row.length = 3 * q.c
  | .fetch =>
    decodeCmd q.word = .command .decode ∧ w * h ≤ s.params.imgMaxPixels ∧ q.k ≤ h ∧ q.row = []
      ∧ q.p = s.fh.offBits.toNat + q.k * stride w ∧ s.fh.offBits.toNat + h * stride w ≤ s.inLen
  | .store =>
    decodeCmd q.word = .command .decode ∧ w * h ≤ s.params.imgMaxPixels ∧ q.k < h ∧ q.c ≤ w
      ∧ q.row.length = 3 * w ∧ q.p = s.fh.offBits.toNat + q.k * stride w ∧ s.fh.offBits.toNat + h * stride w ≤ s.inLen

/-- The invariant of the machine. -/
structure State.Inv (s : State) : Prop where
  /-- STATUS is one of R17's four combinations. -/
  statusLegal : s.status.legal = true
  /-- BUSY = 1 exactly while a command is under way (R17, R34). -/
  busyIffSeq : s.status.busy = s.seq.isSome
  /-- While BUSY = 1 the host has not polled the command (R130). -/
  busyUnpolled : s.status.busy = true → s.host.polled = false
  /-- IN is in its canonical form, inside the 64-bit address space (R23, R37). -/
  inWf : Memory.wf s.inMem = true
  inBound : ∀ e ∈ s.inMem, e.1 < 2 ^ 64
  /-- IMG_PIX is in its canonical form, and holds no more than P_IMG_MAX_PIXELS pixels (R37, R41). -/
  imgWf : Memory.wf s.imgPix = true
  imgBound : ∀ e ∈ s.imgPix, e.1 < s.params.imgMaxPixels
  /-- The host's temporaries are in canonical form. -/
  tempsWf : Memory.wf s.host.temps = true
  /-- P_IMG_MAX_PIXELS ≥ 1 (R7). -/
  capacity : 1 ≤ s.params.imgMaxPixels
  /-- The sequencer stays in bounds. -/
  seqOk : ∀ q, s.seq = some q → s.seqInBounds q

/-- ENCODE's checks all pass (R84, R85). -/
structure State.Encodable (s : State) : Prop where
  ready : s.outReady = 1
  width : s.imgW.toNat ≤ 2 ^ 31 - 1
  height : s.imgH.toNat ≤ 2 ^ 31 - 1
  capacity : s.imgW.toNat * s.imgH.toNat ≤ s.params.imgMaxPixels
  size : s.imgH.toNat * stride s.imgW.toNat + 54 ≤ 2 ^ 32 - 1

/-- The host accepts each of the next n bytes it is offered (P_SINK_ACK, R40). -/
def State.accepts (s : State) (n : Nat) : Prop :=
  ∀ j, j < n → s.answerAt j = .accept

/-- The file of R65: both headers, then on-disk row k, which is in-memory row h - 1 - k, for k = 0 to h - 1. -/
def encodedFile (s : State) : List Byte :=
  let w := s.imgW.toNat
  let h := s.imgH.toNat
  packFH (builtFileHeader (encodedSize w h)) ++ packIH (builtInfoHeader s.params w h)
    ++ (List.range h).flatMap fun k => rowBytes s w (h - 1 - k)

/-- The 32-bit field at a file offset of IN (R61, R62). -/
def State.inField32 (s : State) (o : Nat) : Word :=
  s.inByte (o + 3) ++ s.inByte (o + 2) ++ s.inByte (o + 1) ++ s.inByte o

/-- The 16-bit field at a file offset of IN (R61, R62). -/
def State.inField16 (s : State) (o : Nat) : Half :=
  s.inByte (o + 1) ++ s.inByte o

/-- The width, height and data offset of the file in IN, as natural numbers (R61, R62). -/
def State.fileW (s : State) : Nat := (s.inField32 18).toNat
def State.fileH (s : State) : Nat := (s.inField32 22).toNat
def State.fileOff (s : State) : Nat := (s.inField32 10).toNat

/-- DECODE's checks all pass (R95 to R104). -/
structure State.Decodable (s : State) : Prop where
  ready : s.inReady = 1
  long : 54 ≤ s.inLen
  magic0 : s.inByte 0 = 0x42
  magic1 : s.inByte 1 = 0x4D
  size : (s.inField32 2).toNat = s.inLen
  offLow : 54 ≤ s.fileOff
  offHigh : s.fileOff ≤ (s.inField32 2).toNat
  bitCount : s.inField16 28 = 24
  width : 0 < s32 (s.inField32 18)
  height : 0 < s32 (s.inField32 22)
  long8a : s.fileOff + s.fileH * stride s.fileW ≤ s.inLen
  capacity : s.fileW * s.fileH ≤ s.params.imgMaxPixels

/-- The state DECODE fails in once it has read the headers (R96, R110, R117). -/
def State.decodeFailed (s : State) (code : BitVec 4) : State :=
  { s.loadHeaders with
    imgW := 0, imgH := 0, inEpoch := s.inEpoch + 1, seq := none
    status := { busy := false, done := true, ok := false, err := code } }

end Sys2Proof.Machine
end

