-- ==== Sys2Proof/Certificates/Slice0/Obligations.lean ====
section
/-! DEFINITION. The statements for the provers, from the numbered rules of spec/. -/

open Sys2Proof Sys2Proof.Machine

/-! ### Encoding -/

/-- R56: each row's word, and no other word, decodes to its command. -/
def Obligations.CommandWordsDecode : Prop :=
  ∀ v : Word,
    (decodeCmd v = .command .fhUnpack ↔ v = 0x00000001) ∧ (decodeCmd v = .command .fhPack ↔ v = 0x00000002) ∧
    (decodeCmd v = .command .ihUnpack ↔ v = 0x00000003) ∧ (decodeCmd v = .command .ihPack ↔ v = 0x00000004) ∧
    (decodeCmd v = .command .stride ↔ v = 0x00000005) ∧ (decodeCmd v = .command .encode ↔ v = 0x00000006) ∧
    (decodeCmd v = .command .decode ↔ v = 0x00000007)

/-- Decode and encode agree on every command (R55, R56). -/
def Obligations.DecodeEncodeAgree : Prop :=
  ∀ i : Instr, decodeCmd (encode i) = .command i

/-- The opcode table's words, written out (R56). -/
def Obligations.TableWordsDecode : Prop :=
  decodeTableWord 32 0b00000000000000000000000000000001 = some .fhUnpack ∧
  decodeTableWord 32 0b00000000000000000000000000000100 = some .ihPack ∧
  decodeTableWord 32 0b00000000000000000000000000000101 = some .stride ∧
  decodeTableWord 32 0b00000000000000000000000000000110 = some .encode ∧
  decodeTableWord 32 0b00000000000000000000000000000111 = some .decode ∧
  decodeTableWord 32 0b10000000000000000000000000000101 = none

/-- R58: an illegal word completes with ERR_ILLEGAL and changes no other state. That a step with nothing scheduled is
the unit's move is the model's choice (log 2), and that "at once" is its next move after acceptance is its reading
(log 17). -/
def Obligations.IllegalWordCompletes : Prop :=
  ∀ (s : State) (v : Word), s.sched = [] → s.seq = some (Seq.start v) →
    (v.extractLsb' 4 28 ≠ 0 ∨ v.extractLsb' 0 4 = 0 ∨ 8 ≤ (v.extractLsb' 0 4).toNat) →
    step s = .next { s with status := { busy := false, done := true, ok := false, err := 1 }, seq := none }

/-! ### Steps -/

/-- A step makes the next scheduled move. A unit's move at the start of an accepted legal word is `exec` of its command,
and one further on is one access of the sequencer; a `tick` is one access, and a host's move is that move. With nothing
scheduled the unit moves while a command is under way, and else the host runs its next line. The schedule and its
default are the model's (logs 1 and 2). -/
def Obligations.StepRunsDecodedCommand : Prop :=
  (∀ (s : State) (v : Word) (i : Instr), decodeCmd v = .command i → s.seq = some (Seq.start v) →
    (s.sched = [] → step s = exec i s) ∧
    (∀ ms, s.sched = .unit :: ms → step s = exec i { s with sched := ms })) ∧
  (∀ (s : State) (q : Seq), s.seq = some q → q.pos ≠ .start →
    (s.sched = [] → step s = tick s) ∧
    (∀ ms, s.sched = .unit :: ms → step s = tick { s with sched := ms })) ∧
  (∀ (s : State) (ms : List Move), s.sched = .tick :: ms → step s = tick { s with sched := ms }) ∧
  (∀ (s : State) (a : HostAction) (ms : List Move), s.sched = .host a :: ms →
    step s = hostMove a { s with sched := ms }) ∧
  (∀ s : State, s.sched = [] → s.seq = none → step s = hostMove .line s)

/-- From any state, the step after `withFetchWord` runs exactly the word's command. -/
def Obligations.FetchedWordRunsNext : Prop :=
  ∀ (s : State) (w : Nat) (i : Instr), decodeTableWord 32 w = some i →
    step (s.withFetchWord 32 w) = exec i { s.withFetchWord 32 w with sched := s.sched }

/-- A write of CMD with BUSY = 0 accepts the word (R16, R18, R57) and empties the sink only for ENCODE (R40); with
BUSY = 1 it does nothing; CMD reads as 0. -/
def Obligations.CmdWriteIssuesCommand : Prop :=
  ∀ (s : State) (v : Word),
    (s.status.busy = false →
      hostMove (.write 0x000 4 v) s = .next { s with
        status := { busy := true, done := false, ok := false, err := 0 }
        seq := some { word := v, pos := .start, k := 0, c := 0, p := 0, row := [] }
        host := { s.host with polled := false }
        outHeld := if v = 6 then false else s.outHeld
        out := if v = 6 then [] else s.out
        outLen := if v = 6 then 0 else s.outLen }) ∧
    (s.status.busy = true → hostMove (.write 0x000 4 v) s = .next s) ∧
    regRead .cmd s = 0

/-- With no command under way and no move scheduled for it, the unit waits (R124): a step of an ended host program
changes nothing. -/
def Obligations.IdleUnitWaits : Prop :=
  ∀ s : State, s.sched = [] → s.seq = none → s.host.prog.length ≤ s.host.pc → step s = .next s

/-! ### Registers -/

/-- The offsets of R15, reserved offsets among them. -/
def Obligations.RegisterMapOffsets : Prop :=
  (∀ p ∈ ([(0x000, .cmd), (0x004, .status), (0x008, .argW), (0x00C, .strideLo), (0x010, .strideHi), (0x014, .padOut),
      (0x018, .inCtrl), (0x01C, .inLenLo), (0x020, .inLenHi), (0x024, .outCtrl), (0x028, .outLen), (0x030, .imgW),
      (0x034, .imgH), (0x038, .imgCtrl), (0x040, .fhType), (0x044, .fhSize), (0x048, .fhReserved),
      (0x04C, .fhOffBits), (0x050, .ihSize), (0x054, .ihWidth), (0x058, .ihHeight), (0x05C, .ihPlanes),
      (0x060, .ihBitCount), (0x064, .ihCompression), (0x068, .ihSizeImage), (0x06C, .ihXppm), (0x070, .ihYppm),
      (0x074, .ihClrUsed), (0x078, .ihClrImportant)] : List (Nat × Reg)), regAt p.1 = some p.2 ∧ regOffset p.2 = p.1) ∧
  (∀ k : Fin 14, regAt (0x080 + 4 * k.val) = some (.hbw k)) ∧
  (∀ off ∈ [0x02C, 0x03C, 0x07C], regAt off = none) ∧ (∀ off, 0x0B8 ≤ off → regAt off = none)

/-- The bits of the STATUS word (R17). -/
def Obligations.StatusWordFields : Prop :=
  ∀ t : Status,
    t.word.getLsbD 0 = t.busy ∧ t.word.getLsbD 1 = t.done ∧ t.word.getLsbD 2 = t.ok ∧
    t.word.extractLsb' 8 4 = t.err ∧ t.word.extractLsb' 3 5 = 0 ∧ t.word.extractLsb' 12 20 = 0

/-- A read of STATUS shows it, BUSY or not, changes nothing of the unit, and is the host's poll once it shows BUSY = 0
(R17, R31, R130). -/
def Obligations.StatusReadIsPoll : Prop :=
  ∀ s : State, hostMove (.read 0x004 4) s = .next { s with
    host := { s.host with polled := s.host.polled || !s.status.busy, seen := some (.word s.status.word) } }

/-- While BUSY = 1 a register reads as a draw, and a result register until the host has polled too; after that it reads
as its value, and a register that is no result register does so as soon as BUSY = 0 (R31, R130). That CMD reads as a
draw while BUSY = 1, where R16 says 0, is the model's reading (log 8), and that IMG_CTRL counts as a result register is
its choice (log 9). -/
def Obligations.RegisterReadsDefinedAfterPoll : Prop :=
  (∀ r ∈ [Reg.cmd, .argW, .inCtrl, .inLenLo, .inLenHi, .outCtrl], regIsResult r = false) ∧
  (∀ r ∈ [Reg.strideLo, .strideHi, .padOut, .outLen, .imgW, .imgH, .imgCtrl, .fhType, .fhSize, .fhReserved, .fhOffBits,
      .ihSize, .ihWidth, .ihHeight, .ihPlanes, .ihBitCount, .ihCompression, .ihSizeImage, .ihXppm, .ihYppm, .ihClrUsed,
      .ihClrImportant], regIsResult r = true) ∧
  (∀ k, regIsResult (.hbw k) = true) ∧
  ∀ (s : State) (r : Reg), r ≠ .status →
    ((s.status.busy = true ∨ (regIsResult r = true ∧ s.host.polled = false)) →
      hostMove (.read (regOffset r) 4) s = .next { s with
        draws := s.draws + 1
        host := { s.host with seen := some (.word (Config.freeRead s.draws)) } }) ∧
    (s.status.busy = false → (s.host.polled = true ∨ regIsResult r = false) →
      hostMove (.read (regOffset r) 4) s = .next { s with host := { s.host with seen := some (.word (regRead r s)) } })

/-- R28 and R15: what a register keeps of a write while BUSY = 0, and what it then reads. -/
def Obligations.RegisterWritesKeepWidth : Prop :=
  ∀ (s : State) (v : Word), s.status.busy = false →
    (∀ r ∈ [Reg.fhType, .ihPlanes, .ihBitCount], ∃ t, hostMove (.write (regOffset r) 4 v) s = .next t ∧
      (regRead r t).toNat = v.toNat % 2 ^ 16) ∧
    (∀ r ∈ [Reg.inCtrl, .outCtrl], ∃ t, hostMove (.write (regOffset r) 4 v) s = .next t ∧
      (regRead r t).toNat = v.toNat % 2) ∧
    (∀ r ∈ [Reg.argW, .inLenLo, .inLenHi, .imgW, .imgH, .fhSize, .fhReserved, .fhOffBits, .ihSize, .ihWidth, .ihHeight,
        .ihCompression, .ihSizeImage, .ihXppm, .ihYppm, .ihClrUsed, .ihClrImportant],
      ∃ t, hostMove (.write (regOffset r) 4 v) s = .next t ∧ regRead r t = v)

/-- A host write to a register other than CMD changes what no other register reads: not another name of the space, not
the memories (R15). -/
def Obligations.RegisterWriteFrame : Prop :=
  ∀ (s : State) (r r' : Reg) (v : Word), s.status.busy = false → r ≠ .cmd → r' ≠ r →
    (r' = .imgCtrl → r ≠ .imgW ∧ r ≠ .imgH) →
    ∃ t, hostMove (.write (regOffset r) 4 v) s = .next t ∧ regRead r' t = regRead r' s ∧
      t.status = s.status ∧ t.seq = s.seq ∧ t.inMem = s.inMem ∧ t.outHeld = s.outHeld ∧ t.out = s.out ∧
      t.imgPix = s.imgPix ∧ t.params = s.params ∧ t.acks = s.acks ∧ t.host = s.host ∧ t.sched = s.sched ∧
      t.draws = s.draws ∧ t.inEpoch = s.inEpoch

/-- R25: IMG_CTRL reads 1 exactly when IMG_W and IMG_H are both at least 1, and 0 otherwise, after a write of either
too. -/
def Obligations.ImgCtrlIsComputed : Prop :=
  ∀ s : State,
    regRead .imgCtrl s = (if 1 ≤ s.imgW.toNat ∧ 1 ≤ s.imgH.toNat then 1 else 0) ∧
    (s.status.busy = false → ∀ v : Word,
      (∃ t, hostMove (.write 0x030 4 v) s = .next t ∧ t = { s with imgW := v } ∧
        regRead .imgCtrl t = if 1 ≤ v.toNat ∧ 1 ≤ s.imgH.toNat then 1 else 0) ∧
      (∃ t, hostMove (.write 0x034 4 v) s = .next t ∧ t = { s with imgH := v } ∧
        regRead .imgCtrl t = if 1 ≤ s.imgW.toNat ∧ 1 ≤ v.toNat then 1 else 0))

/-- R30: reserved offsets read 0 and ignore writes; read-only registers ignore writes. -/
def Obligations.ReservedAndReadOnlyIgnoreWrites : Prop :=
  ∀ (s : State) (v : Word),
    (∀ off, off ∈ [0x02C, 0x03C, 0x07C] ∨ (0x0B8 ≤ off ∧ off < 0x100 ∧ off % 4 = 0) →
      hostMove (.write off 4 v) s = .next s ∧
      hostMove (.read off 4) s = .next { s with host := { s.host with seen := some (.word 0) } }) ∧
    (∀ r ∈ [Reg.status, .strideLo, .strideHi, .padOut, .outLen, .imgCtrl],
      hostMove (.write (regOffset r) 4 v) s = .next s)

/-- R131: a write while BUSY = 1 is lost, CMD among them. -/
def Obligations.BusyWritesLost : Prop :=
  ∀ (s : State) (off : Nat) (v : Word), s.status.busy = true → off % 4 = 0 → off < 256 →
    hostMove (.write off 4 v) s = .next s

/-- An access to REG that is not a whole aligned word is refused (R38). -/
def Obligations.OddAccessRefused : Prop :=
  ∀ (s : State) (off bytes : Nat) (v : Word), bytes ≠ 4 ∨ off % 4 ≠ 0 ∨ 256 ≤ off →
    hostMove (.write off bytes v) s = .refused .busAccess ∧ hostMove (.read off bytes) s = .refused .busAccess

/-- The window onto HB (R29): a write of word k stores its four bytes, lowest first, and of the last word only two; a
read gives four bytes back, the absent ones as 0; nothing else changes. -/
def Obligations.HeaderWindowWords : Prop :=
  ∀ (s : State) (k : Fin 14) (v : Word), s.status.busy = false →
    (∃ t, hostMove (.write (0x080 + 4 * k.val) 4 v) s = .next t ∧
      (∀ j, j < 54 → t.hb.toList[j]? =
        if 4 * k.val ≤ j ∧ j < 4 * k.val + 4 then some (v.extractLsb' (8 * (j - 4 * k.val)) 8) else s.hb.toList[j]?) ∧
      t = { s with hb := t.hb }) ∧
    (∀ i, i < 4 → (regRead (.hbw k) s).extractLsb' (8 * i) 8 = (s.hb.toList[4 * k.val + i]?).getD 0)

/-! ### The host's memories -/

/-- The host's moves on IN and IMG_PIX while the unit does not own them (R37, R128): the place is written and reads as
written, every other place reads as before. A pixel of a w-pixel-wide image goes to the cell r · w + c, and an image of
that width shows it at (r, c): that the memory is such a row-major grid, kept across writes of IMG_W and IMG_H, is the
model's choice (log 6). -/
def Obligations.HostPlacesBytesAndPixels : Prop :=
  ∀ s : State, s.status.busy = false → s.host.polled = true →
    (∀ a b, a < 2 ^ 64 → ∃ t, hostMove (.putIn a b) s = .next t ∧
      (∀ x, t.inByte x = if x = a then b else s.inByte x) ∧ t = { s with inMem := t.inMem }) ∧
    (∀ w r c px, w < 2 ^ 32 → r < 2 ^ 32 → c < w → r * w + c < s.params.imgMaxPixels →
      ∃ t, hostMove (.putPixel w r c px) s = .next t ∧ t = { s with imgPix := t.imgPix } ∧
        (∀ i, t.imgCell i = if i = r * w + c then px else s.imgCell i) ∧
        (∀ (v : Word) x y, v.toNat = w → y < w →
          ({ t with imgW := v } : State).imgRead x y =
            if x = r ∧ y = c then px else ({ s with imgW := v } : State).imgRead x y))

/-- IMG_PIX holds at most P_IMG_MAX_PIXELS pixels (R37, R41): the host has no move that places a pixel past them, and
under the invariant no more are ever listed. The refusal's name is the model's (log 12). -/
def Obligations.ImageMemoryCapacity : Prop :=
  (∀ (s : State) w r c px, s.status.busy = false → s.host.polled = true →
    w ≤ c ∨ s.params.imgMaxPixels ≤ r * w + c ∨ 2 ^ 32 ≤ w ∨ 2 ^ 32 ≤ r →
    hostMove (.putPixel w r c px) s = .refused .noSuchPlace) ∧
  (∀ s : State, s.Inv → s.imgPix.length ≤ s.params.imgMaxPixels)

/-- What a host read of IMG_PIX and of OUT answers (R37, R41, R51): the pixel of a place inside the image, if the image
fits the memory, and the byte at a position of OUT, which at power-up holds what the host holds (log 7); a place that
does not exist is refused (log 12). -/
def Obligations.HostReadsPixelsAndOut : Prop :=
  ∀ s : State,
    (s.status.busy = false → s.host.polled = true → ∀ r c,
      (r < s.imgH.toNat → c < s.imgW.toNat → s.imgW.toNat * s.imgH.toNat ≤ s.params.imgMaxPixels →
        hostMove (.readPixel r c) s = .next { s with host := { s.host with seen := some (.pixel (s.imgRead r c)) } }) ∧
      (s.imgH.toNat ≤ r ∨ s.imgW.toNat ≤ c ∨ s.params.imgMaxPixels < s.imgW.toNat * s.imgH.toNat →
        hostMove (.readPixel r c) s = .refused .noSuchPlace)) ∧
    (∀ p b, s.outBytes[p]? = some b →
      hostMove (.readOut p) s = .next { s with host := { s.host with seen := some (.byte b) } }) ∧
    (∀ p, s.outBytes.length ≤ p → hostMove (.readOut p) s = .refused .noSuchPlace)

/-- While the unit owns them the host has no move that writes IN or IMG_PIX (R128), and none that reads IMG_PIX (R14, R51).
That ownership lasts until the poll for reads and writes both is the model's reading (log 10). -/
def Obligations.OwnedMemoriesRefused : Prop :=
  ∀ s : State, s.status.busy = true ∨ s.host.polled = false →
    (∀ a b, hostMove (.putIn a b) s = .refused .unitOwns) ∧
    (∀ w r c px, hostMove (.putPixel w r c px) s = .refused .unitOwns) ∧
    (∀ r c, hostMove (.readPixel r c) s = .refused .unitOwns)

/-! ### Header parsers and the stride calculator -/

/-- R72: FH_UNPACK loads the four registers from HB[0..13], byte by byte, and changes nothing else. -/
def Obligations.FhUnpackResult : Prop :=
  ∀ s : State, exec .fhUnpack s = .next { s with
    fh := { type := s.hb[1] ++ s.hb[0], size := s.hb[5] ++ s.hb[4] ++ s.hb[3] ++ s.hb[2],
            reserved := s.hb[9] ++ s.hb[8] ++ s.hb[7] ++ s.hb[6],
            offBits := s.hb[13] ++ s.hb[12] ++ s.hb[11] ++ s.hb[10] }
    status := { busy := false, done := true, ok := true, err := 0 }, seq := none }

/-- R73: FH_PACK stores the four registers into HB[0..13], least significant byte first; HB[14..53] and all else are
unchanged. -/
def Obligations.FhPackResult : Prop :=
  ∀ s : State, ∃ t, exec .fhPack s = .next t ∧
    t.hb.toList.take 14 =
      [s.fh.type.extractLsb' 0 8, s.fh.type.extractLsb' 8 8,
       s.fh.size.extractLsb' 0 8, s.fh.size.extractLsb' 8 8, s.fh.size.extractLsb' 16 8, s.fh.size.extractLsb' 24 8,
       s.fh.reserved.extractLsb' 0 8, s.fh.reserved.extractLsb' 8 8, s.fh.reserved.extractLsb' 16 8,
       s.fh.reserved.extractLsb' 24 8, s.fh.offBits.extractLsb' 0 8, s.fh.offBits.extractLsb' 8 8,
       s.fh.offBits.extractLsb' 16 8, s.fh.offBits.extractLsb' 24 8] ∧
    t.hb.toList.drop 14 = s.hb.toList.drop 14 ∧
    t = { s with hb := t.hb, status := { busy := false, done := true, ok := true, err := 0 }, seq := none }

/-- R76: IH_UNPACK loads the eleven registers from HB[14..53], byte by byte, and changes nothing else. -/
def Obligations.IhUnpackResult : Prop :=
  ∀ s : State, exec .ihUnpack s = .next { s with
    ih := { size := s.hb[17] ++ s.hb[16] ++ s.hb[15] ++ s.hb[14],
            width := s.hb[21] ++ s.hb[20] ++ s.hb[19] ++ s.hb[18],
            height := s.hb[25] ++ s.hb[24] ++ s.hb[23] ++ s.hb[22],
            planes := s.hb[27] ++ s.hb[26], bitCount := s.hb[29] ++ s.hb[28],
            compression := s.hb[33] ++ s.hb[32] ++ s.hb[31] ++ s.hb[30],
            sizeImage := s.hb[37] ++ s.hb[36] ++ s.hb[35] ++ s.hb[34],
            xPelsPerMeter := s.hb[41] ++ s.hb[40] ++ s.hb[39] ++ s.hb[38],
            yPelsPerMeter := s.hb[45] ++ s.hb[44] ++ s.hb[43] ++ s.hb[42],
            clrUsed := s.hb[49] ++ s.hb[48] ++ s.hb[47] ++ s.hb[46],
            clrImportant := s.hb[53] ++ s.hb[52] ++ s.hb[51] ++ s.hb[50] }
    status := { busy := false, done := true, ok := true, err := 0 }, seq := none }

/-- R77: IH_PACK stores the eleven registers into HB[14..53] at the offsets of R62; HB[0..13] and all else are
unchanged. -/
def Obligations.IhPackResult : Prop :=
  ∀ s : State, ∃ t, exec .ihPack s = .next t ∧
    (∀ p ∈ [(14, s.ih.size), (18, s.ih.width), (22, s.ih.height), (30, s.ih.compression), (34, s.ih.sizeImage),
        (38, s.ih.xPelsPerMeter), (42, s.ih.yPelsPerMeter), (46, s.ih.clrUsed), (50, s.ih.clrImportant)],
      ∀ j, j < 4 → t.hb.toList[p.1 + j]? = some (p.2.extractLsb' (8 * j) 8)) ∧
    (∀ p ∈ [(26, s.ih.planes), (28, s.ih.bitCount)],
      ∀ j, j < 2 → t.hb.toList[p.1 + j]? = some (p.2.extractLsb' (8 * j) 8)) ∧
    t.hb.toList.take 14 = s.hb.toList.take 14 ∧
    t = { s with hb := t.hb, status := { busy := false, done := true, ok := true, err := 0 }, seq := none }

/-- R71: packing and unpacking the file header are inverse, both ways. -/
def Obligations.FileHeaderInverse : Prop :=
  (∀ f : FileHeader, unpackFH (packFH f) = f) ∧
  (∀ B : List Byte, B.length = 14 → packFH (unpackFH B) = B)

/-- R75: packing and unpacking the info header are inverse, both ways. -/
def Obligations.InfoHeaderInverse : Prop :=
  (∀ i : InfoHeader, unpackIH (packIH i) = i) ∧
  (∀ B : List Byte, B.length = 40 → packIH (unpackIH B) = B)

/-- R81: STRIDE gives the whole stride of every 32-bit width, without wrap, and its padding; nothing else changes. -/
def Obligations.StrideResult : Prop :=
  ∀ s : State, ∃ t, exec .stride s = .next t ∧
    t.strideHi.toNat * 2 ^ 32 + t.strideLo.toNat = 4 * ((3 * s.argW.toNat + 3) / 4) ∧
    t.padOut.toNat = (4 - 3 * s.argW.toNat % 4) % 4 ∧
    t = { s with strideLo := t.strideLo, strideHi := t.strideHi, padOut := t.padOut,
                 status := { busy := false, done := true, ok := true, err := 0 }, seq := none }

/-- R80 and R82: the two row-length formulas agree. -/
def Obligations.StrideLaws : Prop :=
  ∀ w : Nat, stride w = 3 * w + padding w ∧ stride w % 4 = 0 ∧ 3 * w ≤ stride w ∧ stride w - 3 * w < 4 ∧
    padding w = w % 4

/-! ### The encoder -/

/-- R92, R87, R88: with every check passed and every byte accepted, ENCODE completes with OK; OUT is the file of R65,
and the headers stand in FH_*, IH_* and HB; nothing else changes but the answers used up. -/
def Obligations.EncodeCompletes : Prop :=
  ∀ s : State, s.Encodable → s.accepts (s.imgH.toNat * stride s.imgW.toNat + 54) →
    ∃ t, exec .encode s = .next t ∧
      t.outBytes = encodedFile s ∧
      t.outLen.toNat = 54 + s.imgH.toNat * stride s.imgW.toNat ∧
      t.fh.type = 0x4D42 ∧ t.fh.size.toNat = s.imgH.toNat * stride s.imgW.toNat + 54 ∧ t.fh.reserved = 0 ∧
      t.fh.offBits = 54 ∧
      t.ih.size = 40 ∧ t.ih.width = s.imgW ∧ t.ih.height = s.imgH ∧ t.ih.planes = 1 ∧ t.ih.bitCount = 24 ∧
      t.ih.compression = 0 ∧ t.ih.sizeImage.toNat = s.imgH.toNat * stride s.imgW.toNat ∧
      t.ih.xPelsPerMeter = 11811 ∧ t.ih.yPelsPerMeter = 11811 ∧ t.ih.clrUsed = 0 ∧
      t.ih.clrImportant = s.params.clrImportant ∧
      t.hb.toList = packFH t.fh ++ packIH t.ih ∧
      t.acks = s.acks.drop t.outBytes.length ∧ t.draws = s.draws + (t.outBytes.length - s.acks.length) ∧
      t = { s with outHeld := false, out := t.out, outLen := t.outLen, fh := t.fh, ih := t.ih, hb := t.hb, acks := t.acks,
                   draws := t.draws, status := { busy := false, done := true, ok := true, err := 0 }, seq := none }

/-- R65, R64, R44, R45: byte by byte, what the encoded file holds after its 54 header bytes. -/
def Obligations.EncodedFileLayout : Prop :=
  ∀ s : State,
    (encodedFile s).length = 54 + s.imgH.toNat * stride s.imgW.toNat ∧
    (encodedFile s).take 54 = packFH (builtFileHeader (encodedSize s.imgW.toNat s.imgH.toNat))
      ++ packIH (builtInfoHeader s.params s.imgW.toNat s.imgH.toNat) ∧
    ∀ k, k < s.imgH.toNat →
      (∀ c, c < s.imgW.toNat →
        let px := s.imgRead (s.imgH.toNat - 1 - k) c
        let at0 := 54 + k * stride s.imgW.toNat + 3 * c
        (encodedFile s)[at0]? = some px.blue ∧ (encodedFile s)[at0 + 1]? = some px.green ∧
        (encodedFile s)[at0 + 2]? = some px.red) ∧
      (∀ j, 3 * s.imgW.toNat ≤ j → j < stride s.imgW.toNat →
        (encodedFile s)[54 + k * stride s.imgW.toNat + j]? = some 0)

/-- R84, R85, R115: ENCODE's checks in their order; a failed one offers no byte and leaves all but OUT, OUT_LEN and
STATUS unchanged. -/
def Obligations.EncodeChecksInOrder : Prop :=
  ∀ s : State,
    let fails (code : BitVec 4) : Prop := exec .encode s = .next { s with
      outHeld := false, out := [], outLen := 0
      status := { busy := false, done := true, ok := false, err := code }, seq := none }
    (s.outReady = 0 → fails 11) ∧
    (s.outReady = 1 → (2 ^ 31 - 1 < s.imgW.toNat ∨ 2 ^ 31 - 1 < s.imgH.toNat) → fails 12) ∧
    (s.outReady = 1 → s.imgW.toNat ≤ 2 ^ 31 - 1 → s.imgH.toNat ≤ 2 ^ 31 - 1 →
      s.params.imgMaxPixels < s.imgW.toNat * s.imgH.toNat → fails 10) ∧
    (s.outReady = 1 → s.imgW.toNat ≤ 2 ^ 31 - 1 → s.imgH.toNat ≤ 2 ^ 31 - 1 →
      s.imgW.toNat * s.imgH.toNat ≤ s.params.imgMaxPixels →
      2 ^ 32 - 1 < s.imgH.toNat * stride s.imgW.toNat + 54 → fails 12)

/-- R91: the first refused byte ends ENCODE with ERR_WRITE; no later byte is offered (n + 1 answers are used up); OUT is
the accepted prefix, OUT_LEN its length, the headers are the built ones, and the image is unchanged. -/
def Obligations.EncodeRefusedByte : Prop :=
  ∀ (s : State) (n : Nat), s.Encodable → n < s.imgH.toNat * stride s.imgW.toNat + 54 → s.accepts n →
    s.answerAt n = .fail →
    ∃ t, exec .encode s = .next t ∧
      t.outBytes = (encodedFile s).take n ∧ t.outBytes.length = n ∧ t.outLen.toNat = n ∧
      t.fh = builtFileHeader (encodedSize s.imgW.toNat s.imgH.toNat) ∧
      t.ih = builtInfoHeader s.params s.imgW.toNat s.imgH.toNat ∧
      t.hb.toList = packFH t.fh ++ packIH t.ih ∧
      t.acks = s.acks.drop (n + 1) ∧ t.draws = s.draws + (n + 1 - s.acks.length) ∧
      t = { s with outHeld := false, out := t.out, outLen := t.outLen, fh := t.fh, ih := t.ih, hb := t.hb,
                   acks := t.acks, draws := t.draws
                   status := { busy := false, done := true, ok := false, err := 13 }, seq := none }

/-- A sink that never answers an offered byte leaves ENCODE stuck (R135). -/
def Obligations.SilentSinkIsStuck : Prop :=
  ∀ (s : State) (n : Nat), s.Encodable → n < s.imgH.toNat * stride s.imgW.toNat + 54 → s.accepts n →
    s.answerAt n = .never → exec .encode s = .fault .sinkNeverAnswers

/-- The host may answer in every state, while a command is under way too, and the answer joins those it has prepared, as
the last (R14, R40; log 4). ENCODE completes from every state whose host answers: it answers a next state in which no
command runs (R134, R135). -/
def Obligations.EncodeAlwaysCompletes : Prop :=
  (∀ (s : State) (a : SinkAnswer), hostMove (.answer a) s = .next { s with acks := s.acks ++ [a] }) ∧
  ∀ s : State, (∀ a ∈ s.acks, a ≠ .never) →
    ∃ t, exec .encode s = .next t ∧ t.seq = none ∧ t.status.busy = false ∧ t.status.done = true

/-- An image with a dimension of 0 is encoded to its 54 header bytes, with success (R86). -/
def Obligations.EncodeEmptyImage : Prop :=
  ∀ s : State, s.outReady = 1 → s.imgW.toNat ≤ 2 ^ 31 - 1 → s.imgH.toNat ≤ 2 ^ 31 - 1 → (s.imgW = 0 ∨ s.imgH = 0) →
    s.accepts 54 →
    ∃ t, exec .encode s = .next t ∧ t.status = { busy := false, done := true, ok := true, err := 0 } ∧
      t.outBytes = t.hb.toList ∧ t.outLen = 54 ∧ t.fh.size = 54 ∧ t.ih.width = s.imgW ∧ t.ih.height = s.imgH

/-- After ENCODE, OUT_LEN counts the bytes of OUT, however ENCODE ended (R24). -/
def Obligations.OutLenCountsOut : Prop :=
  ∀ s t : State, exec .encode s = .next t → t.outLen.toNat = t.outBytes.length

/-! ### The decoder -/

/-- R95, R97, R99, R100 and the steps between: DECODE's checks in their order, and the state each failure leaves. -/
def Obligations.DecodeChecksInOrder : Prop :=
  ∀ s : State,
    (s.inReady = 0 → exec .decode s = .next { s with
      imgW := 0, imgH := 0, inEpoch := s.inEpoch + 1, seq := none
      status := { busy := false, done := true, ok := false, err := 2 } }) ∧
    (s.inReady = 1 → s.inLen < 54 → exec .decode s = .next { s with
      imgW := 0, imgH := 0, inEpoch := s.inEpoch + 1, seq := none
      status := { busy := false, done := true, ok := false, err := 3 } }) ∧
    (s.inReady = 1 → 54 ≤ s.inLen →
      let type3 := s.inByte 0 = 0x42 ∧ s.inByte 1 = 0x4D
      let size4 := (s.inField32 2).toNat = s.inLen
      let off5 := 54 ≤ s.fileOff ∧ s.fileOff ≤ (s.inField32 2).toNat
      let format6 := s.inField16 28 = 24
      let dims7 := 0 < s32 (s.inField32 18) ∧ 0 < s32 (s.inField32 22)
      let trunc8a := s.fileOff + s.fileH * stride s.fileW ≤ s.inLen
      let capacity8b := s.fileW * s.fileH ≤ s.params.imgMaxPixels
      (¬ type3 → exec .decode s = .next (s.decodeFailed 4)) ∧
      (type3 → ¬ size4 → exec .decode s = .next (s.decodeFailed 5)) ∧
      (type3 → size4 → ¬ off5 → exec .decode s = .next (s.decodeFailed 6)) ∧
      (type3 → size4 → off5 → ¬ format6 → exec .decode s = .next (s.decodeFailed 7)) ∧
      (type3 → size4 → off5 → format6 → ¬ dims7 → exec .decode s = .next (s.decodeFailed 8)) ∧
      (type3 → size4 → off5 → format6 → dims7 → ¬ trunc8a → exec .decode s = .next (s.decodeFailed 9)) ∧
      (type3 → size4 → off5 → format6 → dims7 → trunc8a → ¬ capacity8b →
        exec .decode s = .next (s.decodeFailed 10)))

/-- What a failed DECODE leaves in the header registers: HB is IN[0..53], and FH_*, IH_* are its fields (R96, R117). -/
def Obligations.DecodeFailureKeepsHeaders : Prop :=
  ∀ (s : State) (code : BitVec 4),
    (s.decodeFailed code).hb.toList = s.memRead 0 54 ∧
    (s.decodeFailed code).fh = unpackFH (s.memRead 0 14) ∧ (s.decodeFailed code).ih = unpackIH (s.memRead 14 40) ∧
    s.decodeFailed code = { s with
      hb := (s.decodeFailed code).hb, fh := (s.decodeFailed code).fh, ih := (s.decodeFailed code).ih,
      imgW := 0, imgH := 0, inEpoch := s.inEpoch + 1, seq := none
      status := { busy := false, done := true, ok := false, err := code } }

/-- R107, R106: with every check passed, DECODE completes with OK; every pixel (r, c) is the blue, green and red byte of
its place in IN; headers and dimensions are the file's; nothing else changes but
the model's own count of DECODEs (log 5), no cell past the image among it. That such cells exist and stay is the model's choice (log 6). -/
def Obligations.DecodeLoadsImage : Prop :=
  ∀ s : State, s.Decodable →
    ∃ t, exec .decode s = .next t ∧
      t.imgW = s.inField32 18 ∧ t.imgH = s.inField32 22 ∧ imgValid t.imgW t.imgH = true ∧
      t.hb.toList = s.memRead 0 54 ∧ t.fh = unpackFH (s.memRead 0 14) ∧ t.ih = unpackIH (s.memRead 14 40) ∧
      (∀ r c, r < s.fileH → c < s.fileW →
        let at0 := s.fileOff + (s.fileH - 1 - r) * stride s.fileW + 3 * c
        t.imgRead r c = { red := s.inByte (at0 + 2), green := s.inByte (at0 + 1), blue := s.inByte at0 }) ∧
      (∀ i, s.fileW * s.fileH ≤ i → t.imgCell i = s.imgCell i) ∧
      t = { s with hb := t.hb, fh := t.fh, ih := t.ih, imgW := t.imgW, imgH := t.imgH, imgPix := t.imgPix,
                   inEpoch := s.inEpoch + 1, seq := none
                   status := { busy := false, done := true, ok := true, err := 0 } }

/-- DECODE completes from every state; it succeeds exactly when every check passes, and otherwise leaves the 0 × 0
sentinel with no pixel written (R110, R134). -/
def Obligations.DecodeAllOrNothing : Prop :=
  ∀ s : State, ∃ t, exec .decode s = .next t ∧ t.seq = none ∧ t.status.done = true ∧
    (t.status.ok = true ↔ s.Decodable) ∧
    (t.status.ok = false → t.imgW = 0 ∧ t.imgH = 0 ∧ t.imgPix = s.imgPix)

/-- R109: the bytes DECODE does not read may hold anything: two inputs alike in the 54 header bytes and in the 3·w bytes
of every row give the same result. -/
def Obligations.DecodeIgnoresUnreadBytes : Prop :=
  ∀ (s : State) (m : List Host.Cell), s.Decodable →
    let s' : State := { s with inMem := m }
    (∀ a, a < 54 → s'.inByte a = s.inByte a) →
    (∀ k j, k < s.fileH → j < 3 * s.fileW →
      s'.inByte (s.fileOff + k * stride s.fileW + j) = s.inByte (s.fileOff + k * stride s.fileW + j)) →
    ∃ t, exec .decode s = .next t ∧ exec .decode s' = .next { t with inMem := m }

/-! ### Whole commands -/

/-- R112: encoding an image and decoding the bytes gives the image back. -/
def Obligations.EncodeDecodeRoundTrip : Prop :=
  ∀ s : State, s.Encodable → 1 ≤ s.imgW.toNat → 1 ≤ s.imgH.toNat →
    s.accepts (s.imgH.toNat * stride s.imgW.toNat + 54) →
    ∃ t u, exec .encode s = .next t ∧
      exec .decode { t with inMem := Memory.ofBytes 0 t.outBytes, inLenLo := t.outLen, inLenHi := 0, inReady := 1 }
        = .next u ∧
      u.status = { busy := false, done := true, ok := true, err := 0 } ∧
      u.imgW = s.imgW ∧ u.imgH = s.imgH ∧
      ∀ r c, r < s.imgH.toNat → c < s.imgW.toNat → u.imgRead r c = s.imgRead r c

/-- A command run access by access over the hidden sequencer comes to the same end as the command run whole: some
number of the sequencer's moves from acceptance gives exactly its outcome (R34, R51). -/
def Obligations.SequencerRefinesCommand : Prop :=
  ∀ (s : State) (v : Word), s.seq = some (Seq.start v) → ∃ n, ticks n s = runWord v s

/-- R18, R116: a command that answers a next state has completed: no command runs, and STATUS is success or a failure's
code; the header commands and STRIDE always succeed. -/
def Obligations.CommandsCompleteWithStatus : Prop :=
  ∀ (i : Instr) (s t : State), exec i s = .next t →
    t.seq = none ∧ (t.status = Status.success ∨ ∃ e, t.status = Status.failed e) ∧
    (i ≠ .encode → i ≠ .decode → t.status = Status.success)

/-- No command writes anything beside its row of R60's table and STATUS. -/
def Obligations.CommandsWriteOnlyTheirResults : Prop :=
  ∀ (i : Instr) (s t : State), exec i s = .next t →
    (t.argW = s.argW ∧ t.inReady = s.inReady ∧ t.inLenLo = s.inLenLo ∧ t.inLenHi = s.inLenHi ∧
      t.outReady = s.outReady ∧ t.inMem = s.inMem ∧ t.params = s.params ∧ t.host = s.host ∧ t.sched = s.sched) ∧
    (i ≠ .stride → t.strideLo = s.strideLo ∧ t.strideHi = s.strideHi ∧ t.padOut = s.padOut) ∧
    (i ≠ .encode → t.outHeld = s.outHeld ∧ t.out = s.out ∧ t.outLen = s.outLen ∧ t.acks = s.acks ∧ t.draws = s.draws) ∧
    (i ≠ .decode → t.imgW = s.imgW ∧ t.imgH = s.imgH ∧ t.imgPix = s.imgPix ∧ t.inEpoch = s.inEpoch) ∧
    (i ∉ [.fhUnpack, .encode, .decode] → t.fh = s.fh) ∧
    (i ∉ [.ihUnpack, .encode, .decode] → t.ih = s.ih) ∧
    (i ∉ [.fhPack, .ihPack, .encode, .decode] → t.hb = s.hb)

/-- ENCODE reads nothing beside its row of R60's table and the sink's answers (R14): two states alike in those give the
same STATUS and the same bytes, and the same headers once a byte is offered: one was accepted, or the first was refused
(ERR_WRITE, R91). -/
def Obligations.EncodeReadsOnlyItsOperands : Prop :=
  ∀ s s' : State, s'.outReady = s.outReady → s'.imgW = s.imgW → s'.imgH = s.imgH → s'.imgPix = s.imgPix →
    s'.params = s.params → (∀ j, s'.answerAt j = s.answerAt j) →
    ∀ t, exec .encode s = .next t → ∃ t', exec .encode s' = .next t' ∧ t'.status = t.status ∧
      t'.outBytes = t.outBytes ∧ t'.outLen = t.outLen ∧
      (t.outBytes ≠ [] ∨ t.status.err = 13 → t'.fh = t.fh ∧ t'.ih = t.ih ∧ t'.hb = t.hb)

/-- DECODE reads nothing beside its row of R60's table (R14): two states alike in IN_CTRL, IN_LEN, IN and the capacity
give the same STATUS and the same image. -/
def Obligations.DecodeReadsOnlyItsOperands : Prop :=
  ∀ s s' : State, s'.inReady = s.inReady → s'.inLenLo = s.inLenLo → s'.inLenHi = s.inLenHi →
    (∀ a, s'.inByte a = s.inByte a) → s'.params = s.params →
    ∃ t t', exec .decode s = .next t ∧ exec .decode s' = .next t' ∧ t'.status = t.status ∧
      t'.imgW = t.imgW ∧ t'.imgH = t.imgH ∧
      (∀ r c, r < t.imgH.toNat → c < t.imgW.toNat → t'.imgRead r c = t.imgRead r c) ∧
      (s.inReady = 1 → 54 ≤ s.inLen → t'.fh = t.fh ∧ t'.ih = t.ih ∧ t'.hb = t.hb)

/-! ### Reset -/

/-- R124: after a reset, whenever it comes, every register reads 0, HB is zero, STATUS is idle, no command is under way,
and the unit waits. With no command under way the memories keep what they held (R126). -/
def Obligations.ResetClearsRegisters : Prop :=
  ∀ s : State, ∃ t, hostMove .reset s = .next t ∧
    (∀ r, regRead r t = 0) ∧ t.hb = Vector.replicate 54 0 ∧ t.seq = none ∧
    t.status = { busy := false, done := false, ok := false, err := 0 } ∧
    unitMove t = .next t ∧ tick t = .next t ∧
    t.inMem = s.inMem ∧ t.params = s.params ∧
    (s.seq = none → t.outHeld = s.outHeld ∧ t.out = s.out ∧ t.imgPix = s.imgPix)

/-- A reset that stops an accepted ENCODE keeps some number of the bytes the sink would have accepted (R125): no more than
come before the first that is refused or never answered, and none if a check would fail. That the draw is made at the
reset is the model's (log 11). -/
def Obligations.ResetDuringEncode : Prop :=
  ∀ s : State, s.seq = some (Seq.start 6) →
    ∃ t n, hostMove .reset s = .next t ∧
      (s.Encodable → n ≤ (encodedFile s).length ∧ t.outBytes = (encodedFile s).take n ∧
        ∀ m, s.answerAt m ≠ .accept → n ≤ m) ∧
      (¬ s.Encodable → t.outBytes = []) ∧
      (∀ r, regRead r t = 0) ∧ t.seq = none ∧ t.inMem = s.inMem ∧ t.imgPix = s.imgPix

/-- A reset that stops an accepted DECODE leaves each cell of the image memory old or new, with IMG_W = IMG_H = 0 (R125).
The cells are log 6's. -/
def Obligations.ResetDuringDecode : Prop :=
  ∀ (s u : State), s.seq = some (Seq.start 7) → exec .decode s = .next u →
    ∃ t, hostMove .reset s = .next t ∧
      (∀ i, t.imgCell i = s.imgCell i ∨ t.imgCell i = u.imgCell i) ∧
      (∀ r, regRead r t = 0) ∧ t.seq = none ∧ t.inMem = s.inMem ∧ t.outBytes = s.outBytes

/-- A reset of a command the sequencer has begun keeps exactly the bytes accepted and the pixels stored so far, one of
the outcomes R125 allows (that it is this one is the model's reading, log 11); a reset of any other accepted word than
ENCODE's and DECODE's keeps OUT and IMG_PIX as they were. -/
def Obligations.ResetMidCommand : Prop :=
  ∀ (s : State) (q : Seq), s.seq = some q →
    (q.pos ≠ .start ∨ (q.word ≠ 6 ∧ q.word ≠ 7)) →
    ∃ t, hostMove .reset s = .next t ∧ t.outBytes = s.outBytes ∧ t.imgPix = s.imgPix ∧
      (∀ i, t.imgCell i = s.imgCell i) ∧ (∀ r, regRead r t = 0) ∧ t.hb = Vector.replicate 54 0 ∧ t.seq = none ∧
      t.inMem = s.inMem ∧ t.params = s.params ∧ t.acks = s.acks

/-! ### Invariants and whole-machine rules -/

/-- The machine after reset meets the invariant. -/
def Obligations.ResetMeetsInvariant : Prop :=
  State.reset.Inv

/-- Every step keeps the invariant: STATUS in one of R17's four combinations, BUSY exactly while a command is under way,
canonical memories, IMG_PIX within P_IMG_MAX_PIXELS, and the sequencer in its bounds. -/
def Obligations.StepKeepsInvariant : Prop :=
  ∀ s t : State, s.Inv → step s = .next t → t.Inv

/-- Under the invariant no access of the sequencer leaves its memory (R39, R41). A move reads no byte at or past IN_LEN,
the header read and the row reads among them, and no pixel outside the image: two states alike in the bytes below
IN_LEN and in the pixels of the image make the same move, both memories apart. It writes no byte of IN and no cell past
the image: each cell of the two states ends alike, or both as they were. -/
def Obligations.SequencerStaysInside : Prop :=
  ∀ (s : State) (m : List Host.Cell) (p : List (Nat × Pixel)), s.Inv →
    let s' : State := { s with inMem := m, imgPix := p }
    (∀ a, a < s.inLen → s'.inByte a = s.inByte a) →
    (∀ r c, r < s.imgH.toNat → c < s.imgW.toNat → s'.imgRead r c = s.imgRead r c) →
    (∀ e, tick s = .fault e → tick s' = .fault e) ∧
    (∀ t, tick s = .next t →
      t.inMem = s.inMem ∧ (∀ i, s.imgW.toNat * s.imgH.toNat ≤ i → t.imgCell i = s.imgCell i) ∧
      ∃ t', tick s' = .next t' ∧ t' = { t with inMem := m, imgPix := t'.imgPix } ∧
        ∀ i, t'.imgCell i = t.imgCell i ∨ (t'.imgCell i = s'.imgCell i ∧ t.imgCell i = s.imgCell i))

/-- Only STRIDE and reset change STRIDE_LO, STRIDE_HI and PAD_OUT (R20, R21). -/
def Obligations.OnlyStrideWritesItsResults : Prop :=
  ∀ s t : State, step s = .next t →
    (t.strideLo ≠ s.strideLo ∨ t.strideHi ≠ s.strideHi ∨ t.padOut ≠ s.padOut) →
    (∃ q, s.seq = some q ∧ q.word = 5) ∨ s.sched.head? = some (.host .reset)

/-- No step changes a parameter of the machine (R7). -/
def Obligations.ParametersAreFixed : Prop :=
  ∀ s t : State, step s = .next t → t.params = s.params

/-! ### Host programs -/

/-- R68's lines: `wr` and `rd` are the bus write and the bus read of their register at the next line, `rd` putting the
word the host then sees into its temporary; `andi` and `bnz` work on the temporaries; and after the last line nothing
happens. A label's line is the first that marks it. A temporary nothing has
written, a label as a line of its own that does nothing, and the refusal of a branch to a missing label are the model's (log 13). -/
def Obligations.HostProgramLines : Prop :=
  (∀ (p : List HostLine) (l : Nat),
    (∀ n, labelIndex p l = some n ↔ p[n]? = some (HostLine.label l) ∧ ∀ m, m < n → p[m]? ≠ some (HostLine.label l)) ∧
    (labelIndex p l = none ↔ ∀ n : Nat, p[n]? ≠ some (HostLine.label l))) ∧
  ∀ s : State,
    let next : State := { s with host := { s.host with pc := s.host.pc + 1 } }
    (∀ r v, s.host.prog[s.host.pc]? = some (.wr r v) → hostMove .line s = hostMove (.write (regOffset r) 4 v) next) ∧
    (∀ r d, s.host.prog[s.host.pc]? = some (.rd r d) →
      ∃ u t w, hostMove (.read (regOffset r) 4) next = .next u ∧ u.host.seen = some (.word w) ∧
        hostMove .line s = .next t ∧ t = { u with host := { u.host with temps := t.host.temps } } ∧
        (∀ x, t.host.temp x = if x = d then w else s.host.temp x)) ∧
    (∀ d x imm, s.host.prog[s.host.pc]? = some (.andi d x imm) →
      ∃ t, hostMove .line s = .next t ∧ t = { next with host := { next.host with temps := t.host.temps } } ∧
        (∀ y, t.host.temp y = if y = d then s.host.temp x &&& imm else s.host.temp y)) ∧
    (∀ x l, s.host.prog[s.host.pc]? = some (.bnz x l) →
      (s.host.temp x = 0 → hostMove .line s = .next next) ∧
      (s.host.temp x ≠ 0 →
        (∀ n, labelIndex s.host.prog l = some n →
          hostMove .line s = .next { s with host := { s.host with pc := n } }) ∧
        (labelIndex s.host.prog l = none → hostMove .line s = .refused .noSuchLabel))) ∧
    (∀ l, s.host.prog[s.host.pc]? = some (.label l) → hostMove .line s = .next next) ∧
    (s.host.prog[s.host.pc]? = none → hostMove .line s = .next s)
end

