-- ==== Sys2Proof/Laws/Operands.lean ====
section
/-! SUPPORT. The laws of field assembly, the header buffer and row lengths. -/

namespace Sys2Proof.Machine

/-! ### Row lengths (R78 to R82) -/

/-- The encoder's and the decoder's formulas agree (R80). -/
theorem stride_eq (w : Nat) : stride w = 3 * w + padding w := by
  unfold stride padding; omega

theorem padding_lt (w : Nat) : padding w < 4 := by
  unfold padding; omega

theorem stride_sub (w : Nat) : stride w - 3 * w = padding w := by
  rw [stride_eq]; omega

/-! ### Field assembly (R9) -/

@[simp] theorem length_bytes16 (v : Half) : (bytes16 v).length = 2 := rfl
@[simp] theorem length_bytes32 (v : Word) : (bytes32 v).length = 4 := rfl

theorem getLsbD_append_byte {n : Nat} (x : BitVec n) (y : Byte) (i : Nat) :
    (x ++ y).getLsbD i = if i < 8 then y.getLsbD i else x.getLsbD (i - 8) := by
  rw [BitVec.getLsbD_append]

/-- The bits of a half assembled from two bytes. -/
theorem getLsbD_half (a b : Byte) (i : Nat) :
    (a ++ b : Half).getLsbD i = if i < 8 then b.getLsbD i else a.getLsbD (i - 8) :=
  getLsbD_append_byte a b i

/-- The bits of a word assembled from four bytes. -/
theorem getLsbD_word (a b c d : Byte) (i : Nat) :
    (a ++ b ++ c ++ d : Word).getLsbD i =
      if i < 8 then d.getLsbD i else if i - 8 < 8 then c.getLsbD (i - 8)
      else if i - 8 - 8 < 8 then b.getLsbD (i - 8 - 8) else a.getLsbD (i - 8 - 8 - 8) := by
  refine (getLsbD_append_byte (a ++ b ++ c) d i).trans ?_
  refine if_congr Iff.rfl rfl ?_
  refine (getLsbD_append_byte (a ++ b) c (i - 8)).trans ?_
  exact if_congr Iff.rfl rfl (getLsbD_append_byte a b (i - 8 - 8))

theorem byte_ext {x y : Byte} (h : ∀ i, i < 8 → x.getLsbD i = y.getLsbD i) : x = y :=
  BitVec.eq_of_getLsbD_eq h

theorem bytes16_append (a b : Byte) : bytes16 (a ++ b) = [b, a] := by
  have h0 : (a ++ b : Half).extractLsb' 0 8 = b := byte_ext fun i hi => by
    rw [BitVec.getLsbD_extractLsb', getLsbD_half, if_pos (by omega)]; simp [hi]
  have h1 : (a ++ b : Half).extractLsb' 8 8 = a := byte_ext fun i hi => by
    rw [BitVec.getLsbD_extractLsb', getLsbD_half, if_neg (by omega)]; simp [hi]
  show [(a ++ b : Half).extractLsb' 0 8, (a ++ b : Half).extractLsb' 8 8] = _
  rw [h0, h1]

theorem bytes32_append (a b c d : Byte) : bytes32 (a ++ b ++ c ++ d) = [d, c, b, a] := by
  have h0 : (a ++ b ++ c ++ d : Word).extractLsb' 0 8 = d := byte_ext fun i hi => by
    rw [BitVec.getLsbD_extractLsb', getLsbD_word, if_pos (by omega)]; simp [hi]
  have h1 : (a ++ b ++ c ++ d : Word).extractLsb' 8 8 = c := byte_ext fun i hi => by
    rw [BitVec.getLsbD_extractLsb', getLsbD_word, if_neg (by omega), if_pos (by omega)]; simp [hi]
  have h2 : (a ++ b ++ c ++ d : Word).extractLsb' 16 8 = b := byte_ext fun i hi => by
    rw [BitVec.getLsbD_extractLsb', getLsbD_word, if_neg (by omega), if_neg (by omega), if_pos (by omega),
      show 16 + i - 8 - 8 = i by omega]
    simp [hi]
  have h3 : (a ++ b ++ c ++ d : Word).extractLsb' 24 8 = a := byte_ext fun i hi => by
    rw [BitVec.getLsbD_extractLsb', getLsbD_word, if_neg (by omega), if_neg (by omega), if_neg (by omega),
      show 24 + i - 8 - 8 - 8 = i by omega]
    simp [hi]
  show [(a ++ b ++ c ++ d : Word).extractLsb' 0 8, (a ++ b ++ c ++ d : Word).extractLsb' 8 8,
    (a ++ b ++ c ++ d : Word).extractLsb' 16 8, (a ++ b ++ c ++ d : Word).extractLsb' 24 8] = _
  rw [h0, h1, h2, h3]

theorem half_of_bytes (v : Half) : v.extractLsb' 8 8 ++ v.extractLsb' 0 8 = v := by
  apply BitVec.eq_of_getLsbD_eq
  intro i hi
  refine (getLsbD_half _ _ i).trans ?_
  simp only [BitVec.getLsbD_extractLsb']
  split
  · simp [*]
  · rw [show 8 + (i - 8) = i by omega]; simp; omega

theorem word_of_bytes (v : Word) :
    v.extractLsb' 24 8 ++ v.extractLsb' 16 8 ++ v.extractLsb' 8 8 ++ v.extractLsb' 0 8 = v := by
  apply BitVec.eq_of_getLsbD_eq
  intro i hi
  refine (getLsbD_word _ _ _ _ i).trans ?_
  simp only [BitVec.getLsbD_extractLsb']
  split
  · simp [*]
  · split
    · rw [show 8 + (i - 8) = i by omega]; simp [*]
    · split
      · rw [show 16 + (i - 8 - 8) = i by omega]; simp [*]
      · rw [show 24 + (i - 8 - 8 - 8) = i by omega]; simp; omega

/-- A 16-bit field assembled from its own bytes, wherever they stand (R9, R63). -/
theorem le16_bytes16 (pre post : List Byte) (v : Half) : le16 (pre ++ bytes16 v ++ post) pre.length = v := by
  unfold le16 bytes16
  simpa [List.getD_eq_getElem?_getD, List.getElem?_append] using half_of_bytes v

/-- A 32-bit field assembled from its own bytes, wherever they stand (R9, R63). -/
theorem le32_bytes32 (pre post : List Byte) (v : Word) : le32 (pre ++ bytes32 v ++ post) pre.length = v := by
  unfold le32 bytes32
  simpa [List.getD_eq_getElem?_getD, List.getElem?_append] using word_of_bytes v

/-- The bytes of a 16-bit field are the bytes it was assembled from (R9, R63). -/
theorem bytes16_le16 (B : List Byte) (o : Nat) (h : o + 2 ≤ B.length) :
    bytes16 (le16 B o) = (B.drop o).take 2 := by
  unfold le16
  rw [bytes16_append]
  apply List.ext_getElem?
  intro j
  rcases j with _ | _ | j
  · simp [List.getD_eq_getElem?_getD]
    rw [List.getElem?_eq_getElem (by omega)]; rfl
  · simp [List.getD_eq_getElem?_getD]
    rw [List.getElem?_eq_getElem (by omega)]; rfl
  · simp

/-- The bytes of a 32-bit field are the bytes it was assembled from (R9, R63). -/
theorem bytes32_le32 (B : List Byte) (o : Nat) (h : o + 4 ≤ B.length) :
    bytes32 (le32 B o) = (B.drop o).take 4 := by
  unfold le32
  rw [bytes32_append]
  apply List.ext_getElem?
  intro j
  rcases j with _ | _ | _ | _ | j
  · simp [List.getD_eq_getElem?_getD]
    rw [List.getElem?_eq_getElem (by omega)]; rfl
  · simp [List.getD_eq_getElem?_getD]
    rw [List.getElem?_eq_getElem (by omega)]; rfl
  · simp [List.getD_eq_getElem?_getD]
    rw [List.getElem?_eq_getElem (by omega)]; rfl
  · simp [List.getD_eq_getElem?_getD]
    rw [List.getElem?_eq_getElem (by omega)]; rfl
  · simp

@[simp] theorem length_packFH (f : FileHeader) : (packFH f).length = 14 := rfl
@[simp] theorem length_packIH (i : InfoHeader) : (packIH i).length = 40 := rfl

/-! ### The header buffer (R29, R42) -/

@[simp] theorem length_hb (hb : Vector Byte 54) : hb.toList.length = 54 := by simp

/-- HB[j] after bytes are stored from index o. -/
theorem getElem?_hbWrite (hb : Vector Byte 54) (o : Nat) (bs : List Byte) (j : Nat) (hj : j < 54) :
    (hbWrite hb o bs).toList[j]? =
      if o ≤ j ∧ j < o + bs.length then bs[j - o]? else hb.toList[j]? := by
  unfold hbWrite
  simp only [Vector.getElem?_toList, Vector.getElem?_eq_getElem hj, Vector.getElem_ofFn]
  split
  · rename_i h
    rw [List.getElem?_eq_getElem (by omega), List.getD_eq_getElem?_getD, List.getElem?_eq_getElem (by omega)]
    rfl
  · simp

theorem getElem?_hbSlice (hb : Vector Byte 54) (o n j : Nat) :
    (hbSlice hb o n)[j]? = if j < n then hb.toList[o + j]? else none := by
  unfold hbSlice
  rw [List.getElem?_take]
  split <;> simp

@[simp] theorem length_hbSlice (hb : Vector Byte 54) (o n : Nat) :
    (hbSlice hb o n).length = min n (54 - o) := by
  simp [hbSlice]

/-- Storing all 54 bytes replaces HB. -/
theorem toList_hbWrite_all (hb : Vector Byte 54) (bs : List Byte) (h : bs.length = 54) :
    (hbWrite hb 0 bs).toList = bs := by
  apply List.ext_getElem?
  intro j
  by_cases hj : j < 54
  · rw [getElem?_hbWrite _ _ _ _ hj, if_pos (by omega)]; simp
  · rw [List.getElem?_eq_none (by simp; omega), List.getElem?_eq_none (by omega)]

/-- Storing both header images replaces HB by their concatenation (R92). -/
theorem toList_hbWrite_headers (hb : Vector Byte 54) (f : FileHeader) (i : InfoHeader) :
    (hbWrite (hbWrite hb 0 (packFH f)) 14 (packIH i)).toList = packFH f ++ packIH i := by
  apply List.ext_getElem?
  intro j
  by_cases hj : j < 54
  · have hf := length_packFH f
    have hi := length_packIH i
    rw [getElem?_hbWrite _ _ _ _ hj]
    by_cases h14 : 14 ≤ j
    · rw [if_pos (by omega), List.getElem?_append_right (by omega), hf]
    · rw [if_neg (by omega), getElem?_hbWrite _ _ _ _ hj, if_pos (by omega), List.getElem?_append_left (by omega)]
      rfl
  · rw [List.getElem?_eq_none (by simp; omega), List.getElem?_eq_none (by simp; omega)]

theorem hbSlice_getD (hb : Vector Byte 54) (o n j : Nat) (h : j < n) (h2 : o + j < 54) :
    (hbSlice hb o n).getD j 0 = hb[o + j] := by
  rw [List.getD_eq_getElem?_getD, getElem?_hbSlice, if_pos h]
  simp [h2]

theorem toList_hbWrite_take (hb : Vector Byte 54) (o : Nat) (bs : List Byte) (n : Nat) (hn : n ≤ o) :
    (hbWrite hb o bs).toList.take n = hb.toList.take n := by
  apply List.ext_getElem?
  intro j
  rw [List.getElem?_take, List.getElem?_take]
  by_cases h : j < n
  · rw [if_pos h, if_pos h]
    by_cases hj : j < 54
    · rw [getElem?_hbWrite _ _ _ _ hj, if_neg (by omega)]
    · rw [List.getElem?_eq_none (by simp; omega), List.getElem?_eq_none (by simp; omega)]
  · rw [if_neg h, if_neg h]

theorem half_eq_iff (a b c d : Byte) : (a ++ b : Half) = (c ++ d : Half) ↔ a = c ∧ b = d := by
  constructor
  · intro h
    have := congrArg bytes16 h
    rw [bytes16_append, bytes16_append] at this
    simp at this; exact ⟨this.2, this.1⟩
  · rintro ⟨rfl, rfl⟩; rfl

end Sys2Proof.Machine
end

