-- ==== Sys2Proof/Laws/State.lean ====
section
/-! SUPPORT. One lemma per field per named update of the state, so that no later proof unfolds a record update. -/

namespace Sys2Proof.Machine

@[simp] theorem State.imgWrite_status (s : State) (r c : Nat) (px : Pixel) : (s.imgWrite r c px).status = s.status := rfl
@[simp] theorem State.imgWrite_argW (s : State) (r c : Nat) (px : Pixel) : (s.imgWrite r c px).argW = s.argW := rfl
@[simp] theorem State.imgWrite_strideLo (s : State) (r c : Nat) (px : Pixel) : (s.imgWrite r c px).strideLo = s.strideLo := rfl
@[simp] theorem State.imgWrite_strideHi (s : State) (r c : Nat) (px : Pixel) : (s.imgWrite r c px).strideHi = s.strideHi := rfl
@[simp] theorem State.imgWrite_padOut (s : State) (r c : Nat) (px : Pixel) : (s.imgWrite r c px).padOut = s.padOut := rfl
@[simp] theorem State.imgWrite_inReady (s : State) (r c : Nat) (px : Pixel) : (s.imgWrite r c px).inReady = s.inReady := rfl
@[simp] theorem State.imgWrite_inLenLo (s : State) (r c : Nat) (px : Pixel) : (s.imgWrite r c px).inLenLo = s.inLenLo := rfl
@[simp] theorem State.imgWrite_inLenHi (s : State) (r c : Nat) (px : Pixel) : (s.imgWrite r c px).inLenHi = s.inLenHi := rfl
@[simp] theorem State.imgWrite_outReady (s : State) (r c : Nat) (px : Pixel) : (s.imgWrite r c px).outReady = s.outReady := rfl
@[simp] theorem State.imgWrite_outLen (s : State) (r c : Nat) (px : Pixel) : (s.imgWrite r c px).outLen = s.outLen := rfl
@[simp] theorem State.imgWrite_imgW (s : State) (r c : Nat) (px : Pixel) : (s.imgWrite r c px).imgW = s.imgW := rfl
@[simp] theorem State.imgWrite_imgH (s : State) (r c : Nat) (px : Pixel) : (s.imgWrite r c px).imgH = s.imgH := rfl
@[simp] theorem State.imgWrite_fh (s : State) (r c : Nat) (px : Pixel) : (s.imgWrite r c px).fh = s.fh := rfl
@[simp] theorem State.imgWrite_ih (s : State) (r c : Nat) (px : Pixel) : (s.imgWrite r c px).ih = s.ih := rfl
@[simp] theorem State.imgWrite_hb (s : State) (r c : Nat) (px : Pixel) : (s.imgWrite r c px).hb = s.hb := rfl
@[simp] theorem State.imgWrite_seq (s : State) (r c : Nat) (px : Pixel) : (s.imgWrite r c px).seq = s.seq := rfl
@[simp] theorem State.imgWrite_inMem (s : State) (r c : Nat) (px : Pixel) : (s.imgWrite r c px).inMem = s.inMem := rfl
@[simp] theorem State.imgWrite_outHeld (s : State) (r c : Nat) (px : Pixel) : (s.imgWrite r c px).outHeld = s.outHeld := rfl
@[simp] theorem State.imgWrite_out (s : State) (r c : Nat) (px : Pixel) : (s.imgWrite r c px).out = s.out := rfl
@[simp] theorem State.imgWrite_imgPix (s : State) (r c : Nat) (px : Pixel) : (s.imgWrite r c px).imgPix = Memory.set s.imgPix (pixelCell s.imgW.toNat r c) px := rfl
@[simp] theorem State.imgWrite_params (s : State) (r c : Nat) (px : Pixel) : (s.imgWrite r c px).params = s.params := rfl
@[simp] theorem State.imgWrite_acks (s : State) (r c : Nat) (px : Pixel) : (s.imgWrite r c px).acks = s.acks := rfl
@[simp] theorem State.imgWrite_host (s : State) (r c : Nat) (px : Pixel) : (s.imgWrite r c px).host = s.host := rfl
@[simp] theorem State.imgWrite_sched (s : State) (r c : Nat) (px : Pixel) : (s.imgWrite r c px).sched = s.sched := rfl
@[simp] theorem State.imgWrite_draws (s : State) (r c : Nat) (px : Pixel) : (s.imgWrite r c px).draws = s.draws := rfl
@[simp] theorem State.imgWrite_inEpoch (s : State) (r c : Nat) (px : Pixel) : (s.imgWrite r c px).inEpoch = s.inEpoch := rfl

@[simp] theorem State.answered_status (s : State) : (s.answered).status = s.status := by
  unfold State.answered; split <;> rfl
@[simp] theorem State.answered_argW (s : State) : (s.answered).argW = s.argW := by
  unfold State.answered; split <;> rfl
@[simp] theorem State.answered_strideLo (s : State) : (s.answered).strideLo = s.strideLo := by
  unfold State.answered; split <;> rfl
@[simp] theorem State.answered_strideHi (s : State) : (s.answered).strideHi = s.strideHi := by
  unfold State.answered; split <;> rfl
@[simp] theorem State.answered_padOut (s : State) : (s.answered).padOut = s.padOut := by
  unfold State.answered; split <;> rfl
@[simp] theorem State.answered_inReady (s : State) : (s.answered).inReady = s.inReady := by
  unfold State.answered; split <;> rfl
@[simp] theorem State.answered_inLenLo (s : State) : (s.answered).inLenLo = s.inLenLo := by
  unfold State.answered; split <;> rfl
@[simp] theorem State.answered_inLenHi (s : State) : (s.answered).inLenHi = s.inLenHi := by
  unfold State.answered; split <;> rfl
@[simp] theorem State.answered_outReady (s : State) : (s.answered).outReady = s.outReady := by
  unfold State.answered; split <;> rfl
@[simp] theorem State.answered_outLen (s : State) : (s.answered).outLen = s.outLen := by
  unfold State.answered; split <;> rfl
@[simp] theorem State.answered_imgW (s : State) : (s.answered).imgW = s.imgW := by
  unfold State.answered; split <;> rfl
@[simp] theorem State.answered_imgH (s : State) : (s.answered).imgH = s.imgH := by
  unfold State.answered; split <;> rfl
@[simp] theorem State.answered_fh (s : State) : (s.answered).fh = s.fh := by
  unfold State.answered; split <;> rfl
@[simp] theorem State.answered_ih (s : State) : (s.answered).ih = s.ih := by
  unfold State.answered; split <;> rfl
@[simp] theorem State.answered_hb (s : State) : (s.answered).hb = s.hb := by
  unfold State.answered; split <;> rfl
@[simp] theorem State.answered_seq (s : State) : (s.answered).seq = s.seq := by
  unfold State.answered; split <;> rfl
@[simp] theorem State.answered_inMem (s : State) : (s.answered).inMem = s.inMem := by
  unfold State.answered; split <;> rfl
@[simp] theorem State.answered_outHeld (s : State) : (s.answered).outHeld = s.outHeld := by
  unfold State.answered; split <;> rfl
@[simp] theorem State.answered_out (s : State) : (s.answered).out = s.out := by
  unfold State.answered; split <;> rfl
@[simp] theorem State.answered_imgPix (s : State) : (s.answered).imgPix = s.imgPix := by
  unfold State.answered; split <;> rfl
@[simp] theorem State.answered_params (s : State) : (s.answered).params = s.params := by
  unfold State.answered; split <;> rfl
@[simp] theorem State.answered_host (s : State) : (s.answered).host = s.host := by
  unfold State.answered; split <;> rfl
@[simp] theorem State.answered_sched (s : State) : (s.answered).sched = s.sched := by
  unfold State.answered; split <;> rfl
@[simp] theorem State.answered_inEpoch (s : State) : (s.answered).inEpoch = s.inEpoch := by
  unfold State.answered; split <;> rfl

@[simp] theorem State.putOut_status (s : State) (b : Byte) : (s.putOut b).status = s.status := rfl
@[simp] theorem State.putOut_argW (s : State) (b : Byte) : (s.putOut b).argW = s.argW := rfl
@[simp] theorem State.putOut_strideLo (s : State) (b : Byte) : (s.putOut b).strideLo = s.strideLo := rfl
@[simp] theorem State.putOut_strideHi (s : State) (b : Byte) : (s.putOut b).strideHi = s.strideHi := rfl
@[simp] theorem State.putOut_padOut (s : State) (b : Byte) : (s.putOut b).padOut = s.padOut := rfl
@[simp] theorem State.putOut_inReady (s : State) (b : Byte) : (s.putOut b).inReady = s.inReady := rfl
@[simp] theorem State.putOut_inLenLo (s : State) (b : Byte) : (s.putOut b).inLenLo = s.inLenLo := rfl
@[simp] theorem State.putOut_inLenHi (s : State) (b : Byte) : (s.putOut b).inLenHi = s.inLenHi := rfl
@[simp] theorem State.putOut_outReady (s : State) (b : Byte) : (s.putOut b).outReady = s.outReady := rfl
@[simp] theorem State.putOut_outLen (s : State) (b : Byte) : (s.putOut b).outLen = s.outLen + 1 := rfl
@[simp] theorem State.putOut_imgW (s : State) (b : Byte) : (s.putOut b).imgW = s.imgW := rfl
@[simp] theorem State.putOut_imgH (s : State) (b : Byte) : (s.putOut b).imgH = s.imgH := rfl
@[simp] theorem State.putOut_fh (s : State) (b : Byte) : (s.putOut b).fh = s.fh := rfl
@[simp] theorem State.putOut_ih (s : State) (b : Byte) : (s.putOut b).ih = s.ih := rfl
@[simp] theorem State.putOut_hb (s : State) (b : Byte) : (s.putOut b).hb = s.hb := rfl
@[simp] theorem State.putOut_seq (s : State) (b : Byte) : (s.putOut b).seq = s.seq := rfl
@[simp] theorem State.putOut_inMem (s : State) (b : Byte) : (s.putOut b).inMem = s.inMem := rfl
@[simp] theorem State.putOut_outHeld (s : State) (b : Byte) : (s.putOut b).outHeld = s.outHeld := rfl
@[simp] theorem State.putOut_out (s : State) (b : Byte) : (s.putOut b).out = s.out ++ [b] := rfl
@[simp] theorem State.putOut_imgPix (s : State) (b : Byte) : (s.putOut b).imgPix = s.imgPix := rfl
@[simp] theorem State.putOut_params (s : State) (b : Byte) : (s.putOut b).params = s.params := rfl
@[simp] theorem State.putOut_acks (s : State) (b : Byte) : (s.putOut b).acks = s.acks := rfl
@[simp] theorem State.putOut_host (s : State) (b : Byte) : (s.putOut b).host = s.host := rfl
@[simp] theorem State.putOut_sched (s : State) (b : Byte) : (s.putOut b).sched = s.sched := rfl
@[simp] theorem State.putOut_draws (s : State) (b : Byte) : (s.putOut b).draws = s.draws := rfl
@[simp] theorem State.putOut_inEpoch (s : State) (b : Byte) : (s.putOut b).inEpoch = s.inEpoch := rfl

@[simp] theorem State.sinkTook_status (s : State) (bs : List Byte) : (s.sinkTook bs).status = s.status := rfl
@[simp] theorem State.sinkTook_argW (s : State) (bs : List Byte) : (s.sinkTook bs).argW = s.argW := rfl
@[simp] theorem State.sinkTook_strideLo (s : State) (bs : List Byte) : (s.sinkTook bs).strideLo = s.strideLo := rfl
@[simp] theorem State.sinkTook_strideHi (s : State) (bs : List Byte) : (s.sinkTook bs).strideHi = s.strideHi := rfl
@[simp] theorem State.sinkTook_padOut (s : State) (bs : List Byte) : (s.sinkTook bs).padOut = s.padOut := rfl
@[simp] theorem State.sinkTook_inReady (s : State) (bs : List Byte) : (s.sinkTook bs).inReady = s.inReady := rfl
@[simp] theorem State.sinkTook_inLenLo (s : State) (bs : List Byte) : (s.sinkTook bs).inLenLo = s.inLenLo := rfl
@[simp] theorem State.sinkTook_inLenHi (s : State) (bs : List Byte) : (s.sinkTook bs).inLenHi = s.inLenHi := rfl
@[simp] theorem State.sinkTook_outReady (s : State) (bs : List Byte) : (s.sinkTook bs).outReady = s.outReady := rfl
@[simp] theorem State.sinkTook_outLen (s : State) (bs : List Byte) : (s.sinkTook bs).outLen = s.outLen + BitVec.ofNat 32 bs.length := rfl
@[simp] theorem State.sinkTook_imgW (s : State) (bs : List Byte) : (s.sinkTook bs).imgW = s.imgW := rfl
@[simp] theorem State.sinkTook_imgH (s : State) (bs : List Byte) : (s.sinkTook bs).imgH = s.imgH := rfl
@[simp] theorem State.sinkTook_fh (s : State) (bs : List Byte) : (s.sinkTook bs).fh = s.fh := rfl
@[simp] theorem State.sinkTook_ih (s : State) (bs : List Byte) : (s.sinkTook bs).ih = s.ih := rfl
@[simp] theorem State.sinkTook_hb (s : State) (bs : List Byte) : (s.sinkTook bs).hb = s.hb := rfl
@[simp] theorem State.sinkTook_seq (s : State) (bs : List Byte) : (s.sinkTook bs).seq = s.seq := rfl
@[simp] theorem State.sinkTook_inMem (s : State) (bs : List Byte) : (s.sinkTook bs).inMem = s.inMem := rfl
@[simp] theorem State.sinkTook_outHeld (s : State) (bs : List Byte) : (s.sinkTook bs).outHeld = s.outHeld := rfl
@[simp] theorem State.sinkTook_out (s : State) (bs : List Byte) : (s.sinkTook bs).out = s.out ++ bs := rfl
@[simp] theorem State.sinkTook_imgPix (s : State) (bs : List Byte) : (s.sinkTook bs).imgPix = s.imgPix := rfl
@[simp] theorem State.sinkTook_params (s : State) (bs : List Byte) : (s.sinkTook bs).params = s.params := rfl
@[simp] theorem State.sinkTook_acks (s : State) (bs : List Byte) : (s.sinkTook bs).acks = s.acks.drop bs.length := rfl
@[simp] theorem State.sinkTook_host (s : State) (bs : List Byte) : (s.sinkTook bs).host = s.host := rfl
@[simp] theorem State.sinkTook_sched (s : State) (bs : List Byte) : (s.sinkTook bs).sched = s.sched := rfl
@[simp] theorem State.sinkTook_draws (s : State) (bs : List Byte) : (s.sinkTook bs).draws = s.draws + (bs.length - s.acks.length) := rfl
@[simp] theorem State.sinkTook_inEpoch (s : State) (bs : List Byte) : (s.sinkTook bs).inEpoch = s.inEpoch := rfl

@[simp] theorem State.startSink_status (s : State) : (s.startSink).status = s.status := rfl
@[simp] theorem State.startSink_argW (s : State) : (s.startSink).argW = s.argW := rfl
@[simp] theorem State.startSink_strideLo (s : State) : (s.startSink).strideLo = s.strideLo := rfl
@[simp] theorem State.startSink_strideHi (s : State) : (s.startSink).strideHi = s.strideHi := rfl
@[simp] theorem State.startSink_padOut (s : State) : (s.startSink).padOut = s.padOut := rfl
@[simp] theorem State.startSink_inReady (s : State) : (s.startSink).inReady = s.inReady := rfl
@[simp] theorem State.startSink_inLenLo (s : State) : (s.startSink).inLenLo = s.inLenLo := rfl
@[simp] theorem State.startSink_inLenHi (s : State) : (s.startSink).inLenHi = s.inLenHi := rfl
@[simp] theorem State.startSink_outReady (s : State) : (s.startSink).outReady = s.outReady := rfl
@[simp] theorem State.startSink_outLen (s : State) : (s.startSink).outLen = 0 := rfl
@[simp] theorem State.startSink_imgW (s : State) : (s.startSink).imgW = s.imgW := rfl
@[simp] theorem State.startSink_imgH (s : State) : (s.startSink).imgH = s.imgH := rfl
@[simp] theorem State.startSink_fh (s : State) : (s.startSink).fh = s.fh := rfl
@[simp] theorem State.startSink_ih (s : State) : (s.startSink).ih = s.ih := rfl
@[simp] theorem State.startSink_hb (s : State) : (s.startSink).hb = s.hb := rfl
@[simp] theorem State.startSink_seq (s : State) : (s.startSink).seq = s.seq := rfl
@[simp] theorem State.startSink_inMem (s : State) : (s.startSink).inMem = s.inMem := rfl
@[simp] theorem State.startSink_outHeld (s : State) : (s.startSink).outHeld = false := rfl
@[simp] theorem State.startSink_out (s : State) : (s.startSink).out = [] := rfl
@[simp] theorem State.startSink_imgPix (s : State) : (s.startSink).imgPix = s.imgPix := rfl
@[simp] theorem State.startSink_params (s : State) : (s.startSink).params = s.params := rfl
@[simp] theorem State.startSink_acks (s : State) : (s.startSink).acks = s.acks := rfl
@[simp] theorem State.startSink_host (s : State) : (s.startSink).host = s.host := rfl
@[simp] theorem State.startSink_sched (s : State) : (s.startSink).sched = s.sched := rfl
@[simp] theorem State.startSink_draws (s : State) : (s.startSink).draws = s.draws := rfl
@[simp] theorem State.startSink_inEpoch (s : State) : (s.startSink).inEpoch = s.inEpoch := rfl

@[simp] theorem State.accept_status (s : State) : (s.accept).status = Status.running := rfl
@[simp] theorem State.accept_argW (s : State) : (s.accept).argW = s.argW := rfl
@[simp] theorem State.accept_strideLo (s : State) : (s.accept).strideLo = s.strideLo := rfl
@[simp] theorem State.accept_strideHi (s : State) : (s.accept).strideHi = s.strideHi := rfl
@[simp] theorem State.accept_padOut (s : State) : (s.accept).padOut = s.padOut := rfl
@[simp] theorem State.accept_inReady (s : State) : (s.accept).inReady = s.inReady := rfl
@[simp] theorem State.accept_inLenLo (s : State) : (s.accept).inLenLo = s.inLenLo := rfl
@[simp] theorem State.accept_inLenHi (s : State) : (s.accept).inLenHi = s.inLenHi := rfl
@[simp] theorem State.accept_outReady (s : State) : (s.accept).outReady = s.outReady := rfl
@[simp] theorem State.accept_outLen (s : State) : (s.accept).outLen = s.outLen := rfl
@[simp] theorem State.accept_imgW (s : State) : (s.accept).imgW = s.imgW := rfl
@[simp] theorem State.accept_imgH (s : State) : (s.accept).imgH = s.imgH := rfl
@[simp] theorem State.accept_fh (s : State) : (s.accept).fh = s.fh := rfl
@[simp] theorem State.accept_ih (s : State) : (s.accept).ih = s.ih := rfl
@[simp] theorem State.accept_hb (s : State) : (s.accept).hb = s.hb := rfl
@[simp] theorem State.accept_seq (s : State) : (s.accept).seq = s.seq := rfl
@[simp] theorem State.accept_inMem (s : State) : (s.accept).inMem = s.inMem := rfl
@[simp] theorem State.accept_outHeld (s : State) : (s.accept).outHeld = s.outHeld := rfl
@[simp] theorem State.accept_out (s : State) : (s.accept).out = s.out := rfl
@[simp] theorem State.accept_imgPix (s : State) : (s.accept).imgPix = s.imgPix := rfl
@[simp] theorem State.accept_params (s : State) : (s.accept).params = s.params := rfl
@[simp] theorem State.accept_acks (s : State) : (s.accept).acks = s.acks := rfl
@[simp] theorem State.accept_host (s : State) : (s.accept).host = s.host := rfl
@[simp] theorem State.accept_sched (s : State) : (s.accept).sched = s.sched := rfl
@[simp] theorem State.accept_draws (s : State) : (s.accept).draws = s.draws := rfl
@[simp] theorem State.accept_inEpoch (s : State) : (s.accept).inEpoch = s.inEpoch := rfl

@[simp] theorem State.complete_status (s : State) (o : Bool) (e : BitVec 4) : (s.complete o e).status = Status.completed o e := rfl
@[simp] theorem State.complete_argW (s : State) (o : Bool) (e : BitVec 4) : (s.complete o e).argW = s.argW := rfl
@[simp] theorem State.complete_strideLo (s : State) (o : Bool) (e : BitVec 4) : (s.complete o e).strideLo = s.strideLo := rfl
@[simp] theorem State.complete_strideHi (s : State) (o : Bool) (e : BitVec 4) : (s.complete o e).strideHi = s.strideHi := rfl
@[simp] theorem State.complete_padOut (s : State) (o : Bool) (e : BitVec 4) : (s.complete o e).padOut = s.padOut := rfl
@[simp] theorem State.complete_inReady (s : State) (o : Bool) (e : BitVec 4) : (s.complete o e).inReady = s.inReady := rfl
@[simp] theorem State.complete_inLenLo (s : State) (o : Bool) (e : BitVec 4) : (s.complete o e).inLenLo = s.inLenLo := rfl
@[simp] theorem State.complete_inLenHi (s : State) (o : Bool) (e : BitVec 4) : (s.complete o e).inLenHi = s.inLenHi := rfl
@[simp] theorem State.complete_outReady (s : State) (o : Bool) (e : BitVec 4) : (s.complete o e).outReady = s.outReady := rfl
@[simp] theorem State.complete_outLen (s : State) (o : Bool) (e : BitVec 4) : (s.complete o e).outLen = s.outLen := rfl
@[simp] theorem State.complete_imgW (s : State) (o : Bool) (e : BitVec 4) : (s.complete o e).imgW = s.imgW := rfl
@[simp] theorem State.complete_imgH (s : State) (o : Bool) (e : BitVec 4) : (s.complete o e).imgH = s.imgH := rfl
@[simp] theorem State.complete_fh (s : State) (o : Bool) (e : BitVec 4) : (s.complete o e).fh = s.fh := rfl
@[simp] theorem State.complete_ih (s : State) (o : Bool) (e : BitVec 4) : (s.complete o e).ih = s.ih := rfl
@[simp] theorem State.complete_hb (s : State) (o : Bool) (e : BitVec 4) : (s.complete o e).hb = s.hb := rfl
@[simp] theorem State.complete_seq (s : State) (o : Bool) (e : BitVec 4) : (s.complete o e).seq = none := rfl
@[simp] theorem State.complete_inMem (s : State) (o : Bool) (e : BitVec 4) : (s.complete o e).inMem = s.inMem := rfl
@[simp] theorem State.complete_outHeld (s : State) (o : Bool) (e : BitVec 4) : (s.complete o e).outHeld = s.outHeld := rfl
@[simp] theorem State.complete_out (s : State) (o : Bool) (e : BitVec 4) : (s.complete o e).out = s.out := rfl
@[simp] theorem State.complete_imgPix (s : State) (o : Bool) (e : BitVec 4) : (s.complete o e).imgPix = s.imgPix := rfl
@[simp] theorem State.complete_params (s : State) (o : Bool) (e : BitVec 4) : (s.complete o e).params = s.params := rfl
@[simp] theorem State.complete_acks (s : State) (o : Bool) (e : BitVec 4) : (s.complete o e).acks = s.acks := rfl
@[simp] theorem State.complete_host (s : State) (o : Bool) (e : BitVec 4) : (s.complete o e).host = s.host := rfl
@[simp] theorem State.complete_sched (s : State) (o : Bool) (e : BitVec 4) : (s.complete o e).sched = s.sched := rfl
@[simp] theorem State.complete_draws (s : State) (o : Bool) (e : BitVec 4) : (s.complete o e).draws = s.draws := rfl
@[simp] theorem State.complete_inEpoch (s : State) (o : Bool) (e : BitVec 4) : (s.complete o e).inEpoch = s.inEpoch := rfl

@[simp] theorem State.finishOk_status (s : State) : (s.finishOk).status = Status.success := rfl
@[simp] theorem State.finishOk_argW (s : State) : (s.finishOk).argW = s.argW := rfl
@[simp] theorem State.finishOk_strideLo (s : State) : (s.finishOk).strideLo = s.strideLo := rfl
@[simp] theorem State.finishOk_strideHi (s : State) : (s.finishOk).strideHi = s.strideHi := rfl
@[simp] theorem State.finishOk_padOut (s : State) : (s.finishOk).padOut = s.padOut := rfl
@[simp] theorem State.finishOk_inReady (s : State) : (s.finishOk).inReady = s.inReady := rfl
@[simp] theorem State.finishOk_inLenLo (s : State) : (s.finishOk).inLenLo = s.inLenLo := rfl
@[simp] theorem State.finishOk_inLenHi (s : State) : (s.finishOk).inLenHi = s.inLenHi := rfl
@[simp] theorem State.finishOk_outReady (s : State) : (s.finishOk).outReady = s.outReady := rfl
@[simp] theorem State.finishOk_outLen (s : State) : (s.finishOk).outLen = s.outLen := rfl
@[simp] theorem State.finishOk_imgW (s : State) : (s.finishOk).imgW = s.imgW := rfl
@[simp] theorem State.finishOk_imgH (s : State) : (s.finishOk).imgH = s.imgH := rfl
@[simp] theorem State.finishOk_fh (s : State) : (s.finishOk).fh = s.fh := rfl
@[simp] theorem State.finishOk_ih (s : State) : (s.finishOk).ih = s.ih := rfl
@[simp] theorem State.finishOk_hb (s : State) : (s.finishOk).hb = s.hb := rfl
@[simp] theorem State.finishOk_seq (s : State) : (s.finishOk).seq = none := rfl
@[simp] theorem State.finishOk_inMem (s : State) : (s.finishOk).inMem = s.inMem := rfl
@[simp] theorem State.finishOk_outHeld (s : State) : (s.finishOk).outHeld = s.outHeld := rfl
@[simp] theorem State.finishOk_out (s : State) : (s.finishOk).out = s.out := rfl
@[simp] theorem State.finishOk_imgPix (s : State) : (s.finishOk).imgPix = s.imgPix := rfl
@[simp] theorem State.finishOk_params (s : State) : (s.finishOk).params = s.params := rfl
@[simp] theorem State.finishOk_acks (s : State) : (s.finishOk).acks = s.acks := rfl
@[simp] theorem State.finishOk_host (s : State) : (s.finishOk).host = s.host := rfl
@[simp] theorem State.finishOk_sched (s : State) : (s.finishOk).sched = s.sched := rfl
@[simp] theorem State.finishOk_draws (s : State) : (s.finishOk).draws = s.draws := rfl
@[simp] theorem State.finishOk_inEpoch (s : State) : (s.finishOk).inEpoch = s.inEpoch := rfl

@[simp] theorem State.raiseFail_status (s : State) (e : ErrCode) : (s.raiseFail e).status = Status.failed e := rfl
@[simp] theorem State.raiseFail_argW (s : State) (e : ErrCode) : (s.raiseFail e).argW = s.argW := rfl
@[simp] theorem State.raiseFail_strideLo (s : State) (e : ErrCode) : (s.raiseFail e).strideLo = s.strideLo := rfl
@[simp] theorem State.raiseFail_strideHi (s : State) (e : ErrCode) : (s.raiseFail e).strideHi = s.strideHi := rfl
@[simp] theorem State.raiseFail_padOut (s : State) (e : ErrCode) : (s.raiseFail e).padOut = s.padOut := rfl
@[simp] theorem State.raiseFail_inReady (s : State) (e : ErrCode) : (s.raiseFail e).inReady = s.inReady := rfl
@[simp] theorem State.raiseFail_inLenLo (s : State) (e : ErrCode) : (s.raiseFail e).inLenLo = s.inLenLo := rfl
@[simp] theorem State.raiseFail_inLenHi (s : State) (e : ErrCode) : (s.raiseFail e).inLenHi = s.inLenHi := rfl
@[simp] theorem State.raiseFail_outReady (s : State) (e : ErrCode) : (s.raiseFail e).outReady = s.outReady := rfl
@[simp] theorem State.raiseFail_outLen (s : State) (e : ErrCode) : (s.raiseFail e).outLen = s.outLen := rfl
@[simp] theorem State.raiseFail_imgW (s : State) (e : ErrCode) : (s.raiseFail e).imgW = s.imgW := rfl
@[simp] theorem State.raiseFail_imgH (s : State) (e : ErrCode) : (s.raiseFail e).imgH = s.imgH := rfl
@[simp] theorem State.raiseFail_fh (s : State) (e : ErrCode) : (s.raiseFail e).fh = s.fh := rfl
@[simp] theorem State.raiseFail_ih (s : State) (e : ErrCode) : (s.raiseFail e).ih = s.ih := rfl
@[simp] theorem State.raiseFail_hb (s : State) (e : ErrCode) : (s.raiseFail e).hb = s.hb := rfl
@[simp] theorem State.raiseFail_seq (s : State) (e : ErrCode) : (s.raiseFail e).seq = none := rfl
@[simp] theorem State.raiseFail_inMem (s : State) (e : ErrCode) : (s.raiseFail e).inMem = s.inMem := rfl
@[simp] theorem State.raiseFail_outHeld (s : State) (e : ErrCode) : (s.raiseFail e).outHeld = s.outHeld := rfl
@[simp] theorem State.raiseFail_out (s : State) (e : ErrCode) : (s.raiseFail e).out = s.out := rfl
@[simp] theorem State.raiseFail_imgPix (s : State) (e : ErrCode) : (s.raiseFail e).imgPix = s.imgPix := rfl
@[simp] theorem State.raiseFail_params (s : State) (e : ErrCode) : (s.raiseFail e).params = s.params := rfl
@[simp] theorem State.raiseFail_acks (s : State) (e : ErrCode) : (s.raiseFail e).acks = s.acks := rfl
@[simp] theorem State.raiseFail_host (s : State) (e : ErrCode) : (s.raiseFail e).host = s.host := rfl
@[simp] theorem State.raiseFail_sched (s : State) (e : ErrCode) : (s.raiseFail e).sched = s.sched := rfl
@[simp] theorem State.raiseFail_draws (s : State) (e : ErrCode) : (s.raiseFail e).draws = s.draws := rfl
@[simp] theorem State.raiseFail_inEpoch (s : State) (e : ErrCode) : (s.raiseFail e).inEpoch = s.inEpoch := rfl

@[simp] theorem State.acceptCmd_status (s : State) (v : Word) : (State.acceptCmd v s).status = Status.running := by
  unfold State.acceptCmd State.freshSinkFor; split <;> rfl
@[simp] theorem State.acceptCmd_argW (s : State) (v : Word) : (State.acceptCmd v s).argW = s.argW := by
  unfold State.acceptCmd State.freshSinkFor; split <;> rfl
@[simp] theorem State.acceptCmd_strideLo (s : State) (v : Word) : (State.acceptCmd v s).strideLo = s.strideLo := by
  unfold State.acceptCmd State.freshSinkFor; split <;> rfl
@[simp] theorem State.acceptCmd_strideHi (s : State) (v : Word) : (State.acceptCmd v s).strideHi = s.strideHi := by
  unfold State.acceptCmd State.freshSinkFor; split <;> rfl
@[simp] theorem State.acceptCmd_padOut (s : State) (v : Word) : (State.acceptCmd v s).padOut = s.padOut := by
  unfold State.acceptCmd State.freshSinkFor; split <;> rfl
@[simp] theorem State.acceptCmd_inReady (s : State) (v : Word) : (State.acceptCmd v s).inReady = s.inReady := by
  unfold State.acceptCmd State.freshSinkFor; split <;> rfl
@[simp] theorem State.acceptCmd_inLenLo (s : State) (v : Word) : (State.acceptCmd v s).inLenLo = s.inLenLo := by
  unfold State.acceptCmd State.freshSinkFor; split <;> rfl
@[simp] theorem State.acceptCmd_inLenHi (s : State) (v : Word) : (State.acceptCmd v s).inLenHi = s.inLenHi := by
  unfold State.acceptCmd State.freshSinkFor; split <;> rfl
@[simp] theorem State.acceptCmd_outReady (s : State) (v : Word) : (State.acceptCmd v s).outReady = s.outReady := by
  unfold State.acceptCmd State.freshSinkFor; split <;> rfl
@[simp] theorem State.acceptCmd_imgW (s : State) (v : Word) : (State.acceptCmd v s).imgW = s.imgW := by
  unfold State.acceptCmd State.freshSinkFor; split <;> rfl
@[simp] theorem State.acceptCmd_imgH (s : State) (v : Word) : (State.acceptCmd v s).imgH = s.imgH := by
  unfold State.acceptCmd State.freshSinkFor; split <;> rfl
@[simp] theorem State.acceptCmd_fh (s : State) (v : Word) : (State.acceptCmd v s).fh = s.fh := by
  unfold State.acceptCmd State.freshSinkFor; split <;> rfl
@[simp] theorem State.acceptCmd_ih (s : State) (v : Word) : (State.acceptCmd v s).ih = s.ih := by
  unfold State.acceptCmd State.freshSinkFor; split <;> rfl
@[simp] theorem State.acceptCmd_hb (s : State) (v : Word) : (State.acceptCmd v s).hb = s.hb := by
  unfold State.acceptCmd State.freshSinkFor; split <;> rfl
@[simp] theorem State.acceptCmd_seq (s : State) (v : Word) : (State.acceptCmd v s).seq = some (Seq.start v) := by
  unfold State.acceptCmd State.freshSinkFor; split <;> rfl
@[simp] theorem State.acceptCmd_inMem (s : State) (v : Word) : (State.acceptCmd v s).inMem = s.inMem := by
  unfold State.acceptCmd State.freshSinkFor; split <;> rfl
@[simp] theorem State.acceptCmd_imgPix (s : State) (v : Word) : (State.acceptCmd v s).imgPix = s.imgPix := by
  unfold State.acceptCmd State.freshSinkFor; split <;> rfl
@[simp] theorem State.acceptCmd_params (s : State) (v : Word) : (State.acceptCmd v s).params = s.params := by
  unfold State.acceptCmd State.freshSinkFor; split <;> rfl
@[simp] theorem State.acceptCmd_acks (s : State) (v : Word) : (State.acceptCmd v s).acks = s.acks := by
  unfold State.acceptCmd State.freshSinkFor; split <;> rfl
@[simp] theorem State.acceptCmd_host (s : State) (v : Word) : (State.acceptCmd v s).host = { s.host with polled := false } := by
  unfold State.acceptCmd State.freshSinkFor; split <;> rfl
@[simp] theorem State.acceptCmd_sched (s : State) (v : Word) : (State.acceptCmd v s).sched = s.sched := by
  unfold State.acceptCmd State.freshSinkFor; split <;> rfl
@[simp] theorem State.acceptCmd_draws (s : State) (v : Word) : (State.acceptCmd v s).draws = s.draws := by
  unfold State.acceptCmd State.freshSinkFor; split <;> rfl
@[simp] theorem State.acceptCmd_inEpoch (s : State) (v : Word) : (State.acceptCmd v s).inEpoch = s.inEpoch := by
  unfold State.acceptCmd State.freshSinkFor; split <;> rfl

@[simp] theorem State.resetRegs_status (s : State) : (s.resetRegs).status = State.reset.status := rfl
@[simp] theorem State.resetRegs_argW (s : State) : (s.resetRegs).argW = State.reset.argW := rfl
@[simp] theorem State.resetRegs_strideLo (s : State) : (s.resetRegs).strideLo = State.reset.strideLo := rfl
@[simp] theorem State.resetRegs_strideHi (s : State) : (s.resetRegs).strideHi = State.reset.strideHi := rfl
@[simp] theorem State.resetRegs_padOut (s : State) : (s.resetRegs).padOut = State.reset.padOut := rfl
@[simp] theorem State.resetRegs_inReady (s : State) : (s.resetRegs).inReady = State.reset.inReady := rfl
@[simp] theorem State.resetRegs_inLenLo (s : State) : (s.resetRegs).inLenLo = State.reset.inLenLo := rfl
@[simp] theorem State.resetRegs_inLenHi (s : State) : (s.resetRegs).inLenHi = State.reset.inLenHi := rfl
@[simp] theorem State.resetRegs_outReady (s : State) : (s.resetRegs).outReady = State.reset.outReady := rfl
@[simp] theorem State.resetRegs_outLen (s : State) : (s.resetRegs).outLen = State.reset.outLen := rfl
@[simp] theorem State.resetRegs_imgW (s : State) : (s.resetRegs).imgW = State.reset.imgW := rfl
@[simp] theorem State.resetRegs_imgH (s : State) : (s.resetRegs).imgH = State.reset.imgH := rfl
@[simp] theorem State.resetRegs_fh (s : State) : (s.resetRegs).fh = State.reset.fh := rfl
@[simp] theorem State.resetRegs_ih (s : State) : (s.resetRegs).ih = State.reset.ih := rfl
@[simp] theorem State.resetRegs_hb (s : State) : (s.resetRegs).hb = State.reset.hb := rfl
@[simp] theorem State.resetRegs_seq (s : State) : (s.resetRegs).seq = State.reset.seq := rfl
@[simp] theorem State.resetRegs_inMem (s : State) : (s.resetRegs).inMem = s.inMem := rfl
@[simp] theorem State.resetRegs_outHeld (s : State) : (s.resetRegs).outHeld = s.outHeld := rfl
@[simp] theorem State.resetRegs_out (s : State) : (s.resetRegs).out = s.out := rfl
@[simp] theorem State.resetRegs_imgPix (s : State) : (s.resetRegs).imgPix = s.imgPix := rfl
@[simp] theorem State.resetRegs_params (s : State) : (s.resetRegs).params = s.params := rfl
@[simp] theorem State.resetRegs_acks (s : State) : (s.resetRegs).acks = s.acks := rfl
@[simp] theorem State.resetRegs_host (s : State) : (s.resetRegs).host = { s.host with polled := true } := rfl
@[simp] theorem State.resetRegs_sched (s : State) : (s.resetRegs).sched = s.sched := rfl
@[simp] theorem State.resetRegs_draws (s : State) : (s.resetRegs).draws = s.draws := rfl
@[simp] theorem State.resetRegs_inEpoch (s : State) : (s.resetRegs).inEpoch = s.inEpoch := rfl

@[simp] theorem State.buildHeaders_status (s : State) : (s.buildHeaders).status = s.status := rfl
@[simp] theorem State.buildHeaders_argW (s : State) : (s.buildHeaders).argW = s.argW := rfl
@[simp] theorem State.buildHeaders_strideLo (s : State) : (s.buildHeaders).strideLo = s.strideLo := rfl
@[simp] theorem State.buildHeaders_strideHi (s : State) : (s.buildHeaders).strideHi = s.strideHi := rfl
@[simp] theorem State.buildHeaders_padOut (s : State) : (s.buildHeaders).padOut = s.padOut := rfl
@[simp] theorem State.buildHeaders_inReady (s : State) : (s.buildHeaders).inReady = s.inReady := rfl
@[simp] theorem State.buildHeaders_inLenLo (s : State) : (s.buildHeaders).inLenLo = s.inLenLo := rfl
@[simp] theorem State.buildHeaders_inLenHi (s : State) : (s.buildHeaders).inLenHi = s.inLenHi := rfl
@[simp] theorem State.buildHeaders_outReady (s : State) : (s.buildHeaders).outReady = s.outReady := rfl
@[simp] theorem State.buildHeaders_outLen (s : State) : (s.buildHeaders).outLen = s.outLen := rfl
@[simp] theorem State.buildHeaders_imgW (s : State) : (s.buildHeaders).imgW = s.imgW := rfl
@[simp] theorem State.buildHeaders_imgH (s : State) : (s.buildHeaders).imgH = s.imgH := rfl
@[simp] theorem State.buildHeaders_seq (s : State) : (s.buildHeaders).seq = s.seq := rfl
@[simp] theorem State.buildHeaders_inMem (s : State) : (s.buildHeaders).inMem = s.inMem := rfl
@[simp] theorem State.buildHeaders_outHeld (s : State) : (s.buildHeaders).outHeld = s.outHeld := rfl
@[simp] theorem State.buildHeaders_out (s : State) : (s.buildHeaders).out = s.out := rfl
@[simp] theorem State.buildHeaders_imgPix (s : State) : (s.buildHeaders).imgPix = s.imgPix := rfl
@[simp] theorem State.buildHeaders_params (s : State) : (s.buildHeaders).params = s.params := rfl
@[simp] theorem State.buildHeaders_acks (s : State) : (s.buildHeaders).acks = s.acks := rfl
@[simp] theorem State.buildHeaders_host (s : State) : (s.buildHeaders).host = s.host := rfl
@[simp] theorem State.buildHeaders_sched (s : State) : (s.buildHeaders).sched = s.sched := rfl
@[simp] theorem State.buildHeaders_draws (s : State) : (s.buildHeaders).draws = s.draws := rfl
@[simp] theorem State.buildHeaders_inEpoch (s : State) : (s.buildHeaders).inEpoch = s.inEpoch := rfl

@[simp] theorem State.loadHeaders_status (s : State) : (s.loadHeaders).status = s.status := rfl
@[simp] theorem State.loadHeaders_argW (s : State) : (s.loadHeaders).argW = s.argW := rfl
@[simp] theorem State.loadHeaders_strideLo (s : State) : (s.loadHeaders).strideLo = s.strideLo := rfl
@[simp] theorem State.loadHeaders_strideHi (s : State) : (s.loadHeaders).strideHi = s.strideHi := rfl
@[simp] theorem State.loadHeaders_padOut (s : State) : (s.loadHeaders).padOut = s.padOut := rfl
@[simp] theorem State.loadHeaders_inReady (s : State) : (s.loadHeaders).inReady = s.inReady := rfl
@[simp] theorem State.loadHeaders_inLenLo (s : State) : (s.loadHeaders).inLenLo = s.inLenLo := rfl
@[simp] theorem State.loadHeaders_inLenHi (s : State) : (s.loadHeaders).inLenHi = s.inLenHi := rfl
@[simp] theorem State.loadHeaders_outReady (s : State) : (s.loadHeaders).outReady = s.outReady := rfl
@[simp] theorem State.loadHeaders_outLen (s : State) : (s.loadHeaders).outLen = s.outLen := rfl
@[simp] theorem State.loadHeaders_imgW (s : State) : (s.loadHeaders).imgW = s.imgW := rfl
@[simp] theorem State.loadHeaders_imgH (s : State) : (s.loadHeaders).imgH = s.imgH := rfl
@[simp] theorem State.loadHeaders_seq (s : State) : (s.loadHeaders).seq = s.seq := rfl
@[simp] theorem State.loadHeaders_inMem (s : State) : (s.loadHeaders).inMem = s.inMem := rfl
@[simp] theorem State.loadHeaders_outHeld (s : State) : (s.loadHeaders).outHeld = s.outHeld := rfl
@[simp] theorem State.loadHeaders_out (s : State) : (s.loadHeaders).out = s.out := rfl
@[simp] theorem State.loadHeaders_imgPix (s : State) : (s.loadHeaders).imgPix = s.imgPix := rfl
@[simp] theorem State.loadHeaders_params (s : State) : (s.loadHeaders).params = s.params := rfl
@[simp] theorem State.loadHeaders_acks (s : State) : (s.loadHeaders).acks = s.acks := rfl
@[simp] theorem State.loadHeaders_host (s : State) : (s.loadHeaders).host = s.host := rfl
@[simp] theorem State.loadHeaders_sched (s : State) : (s.loadHeaders).sched = s.sched := rfl
@[simp] theorem State.loadHeaders_draws (s : State) : (s.loadHeaders).draws = s.draws := rfl
@[simp] theorem State.loadHeaders_inEpoch (s : State) : (s.loadHeaders).inEpoch = s.inEpoch := rfl

@[simp] theorem State.atLine_status (s : State) (n : Nat) : (s.atLine n).status = s.status := rfl
@[simp] theorem State.atLine_argW (s : State) (n : Nat) : (s.atLine n).argW = s.argW := rfl
@[simp] theorem State.atLine_strideLo (s : State) (n : Nat) : (s.atLine n).strideLo = s.strideLo := rfl
@[simp] theorem State.atLine_strideHi (s : State) (n : Nat) : (s.atLine n).strideHi = s.strideHi := rfl
@[simp] theorem State.atLine_padOut (s : State) (n : Nat) : (s.atLine n).padOut = s.padOut := rfl
@[simp] theorem State.atLine_inReady (s : State) (n : Nat) : (s.atLine n).inReady = s.inReady := rfl
@[simp] theorem State.atLine_inLenLo (s : State) (n : Nat) : (s.atLine n).inLenLo = s.inLenLo := rfl
@[simp] theorem State.atLine_inLenHi (s : State) (n : Nat) : (s.atLine n).inLenHi = s.inLenHi := rfl
@[simp] theorem State.atLine_outReady (s : State) (n : Nat) : (s.atLine n).outReady = s.outReady := rfl
@[simp] theorem State.atLine_outLen (s : State) (n : Nat) : (s.atLine n).outLen = s.outLen := rfl
@[simp] theorem State.atLine_imgW (s : State) (n : Nat) : (s.atLine n).imgW = s.imgW := rfl
@[simp] theorem State.atLine_imgH (s : State) (n : Nat) : (s.atLine n).imgH = s.imgH := rfl
@[simp] theorem State.atLine_fh (s : State) (n : Nat) : (s.atLine n).fh = s.fh := rfl
@[simp] theorem State.atLine_ih (s : State) (n : Nat) : (s.atLine n).ih = s.ih := rfl
@[simp] theorem State.atLine_hb (s : State) (n : Nat) : (s.atLine n).hb = s.hb := rfl
@[simp] theorem State.atLine_seq (s : State) (n : Nat) : (s.atLine n).seq = s.seq := rfl
@[simp] theorem State.atLine_inMem (s : State) (n : Nat) : (s.atLine n).inMem = s.inMem := rfl
@[simp] theorem State.atLine_outHeld (s : State) (n : Nat) : (s.atLine n).outHeld = s.outHeld := rfl
@[simp] theorem State.atLine_out (s : State) (n : Nat) : (s.atLine n).out = s.out := rfl
@[simp] theorem State.atLine_imgPix (s : State) (n : Nat) : (s.atLine n).imgPix = s.imgPix := rfl
@[simp] theorem State.atLine_params (s : State) (n : Nat) : (s.atLine n).params = s.params := rfl
@[simp] theorem State.atLine_acks (s : State) (n : Nat) : (s.atLine n).acks = s.acks := rfl
@[simp] theorem State.atLine_host (s : State) (n : Nat) : (s.atLine n).host = { s.host with pc := n } := rfl
@[simp] theorem State.atLine_sched (s : State) (n : Nat) : (s.atLine n).sched = s.sched := rfl
@[simp] theorem State.atLine_draws (s : State) (n : Nat) : (s.atLine n).draws = s.draws := rfl
@[simp] theorem State.atLine_inEpoch (s : State) (n : Nat) : (s.atLine n).inEpoch = s.inEpoch := rfl

end Sys2Proof.Machine
end

