-- ==== Sys2Proof/Laws/Bus.lean ====
section
/-! SUPPORT. The laws of the register space: offsets and names, what a write keeps, what a read does to the state. -/

namespace Sys2Proof.Machine

/-- The register at a register's offset is that register (R15). -/
theorem regAt_regOffset (r : Reg) : regAt (regOffset r) = some r := by
  cases r with
  | hbw k => revert k; decide
  | _ => decide

/-- An access to a register's offset is a whole aligned word (R38). -/
theorem busAccessOk_regOffset (r : Reg) : busAccessOk (regOffset r) 4 = true := by
  cases r with
  | hbw k => revert k; decide
  | _ => decide

/-- A write to a register that the host may make while BUSY = 0 (R31). -/
theorem busWrite_regOffset (r : Reg) (v : Word) (s : State) (h : s.status.busy = false) :
    busWrite (regOffset r) 4 v s = .next (regWrite r v s) := by
  simp [busWrite, busAccessOk_regOffset, h, regAt_regOffset]

/-- A read of a register: the host sees a word, and the state changes as `busReadState` says. -/
theorem busRead_regOffset (r : Reg) (s : State) :
    busRead (regOffset r) 4 s = .next { busReadState (regOffset r) s with
      host := { (busReadState (regOffset r) s).host with seen := some (.word (busReadValue (regOffset r) s)) } } := by
  simp [busRead, busAccessOk_regOffset]

/-- All a host read can do to the state before the host sees the word: nothing, spend a draw, or count as the poll. -/
theorem busReadState_cases (off : Nat) (s : State) :
    busReadState off s = s ∨ busReadState off s = { s with draws := s.draws + 1 } ∨
      (s.status.busy = false ∧ busReadState off s = { s with host := { s.host with polled := true } }) := by
  unfold busReadState
  split
  · exact .inl rfl
  · split
    · exact .inr (.inl rfl)
    · split
      · rename_i h; exact .inr (.inr ⟨h.2, rfl⟩)
      · exact .inl rfl

theorem regWrite_params (r : Reg) (v : Word) (s : State) : (regWrite r v s).params = s.params := by
  cases r with
  | cmd => simp [regWrite]
  | hbw k => simp [regWrite]
  | _ => rfl

theorem regWrite_strides (r : Reg) (v : Word) (s : State) :
    (regWrite r v s).strideLo = s.strideLo ∧ (regWrite r v s).strideHi = s.strideHi ∧
      (regWrite r v s).padOut = s.padOut := by
  cases r with
  | cmd => simp [regWrite]
  | hbw k => simp [regWrite]
  | _ => exact ⟨rfl, rfl, rfl⟩

/-- A register window word's store leaves every other window word alone (R29). -/
theorem le32_hbWrite_ne (hb : Vector Byte 54) (k k' : Fin 14) (v : Word) (h : k' ≠ k) :
    le32 (hbWrite hb (4 * k.val) (bytes32 v)).toList (4 * k'.val) = le32 hb.toList (4 * k'.val) := by
  have hk : k'.val ≠ k.val := fun e => h (Fin.ext e)
  have key : ∀ j, (j < 4 * k.val ∨ 4 * k.val + 4 ≤ j) →
      (hbWrite hb (4 * k.val) (bytes32 v)).toList.getD j 0 = hb.toList.getD j 0 := by
    intro j hj
    rw [List.getD_eq_getElem?_getD, List.getD_eq_getElem?_getD]
    by_cases h54 : j < 54
    · rw [getElem?_hbWrite _ _ _ _ h54, if_neg (by simp; omega)]
    · rw [List.getElem?_eq_none (by simp; omega), List.getElem?_eq_none (by simp; omega)]
  unfold le32
  rw [key, key, key, key] <;> omega

/-- After a reset every register reads as after power-up (R36). -/
theorem regRead_resetRegs (s : State) (r : Reg) : regRead r s.resetRegs = regRead r State.reset := by
  cases r <;> rfl

end Sys2Proof.Machine
end

