-- ==== Sys2Proof/Laws/Decode.lean ====
section
/-! SUPPORT. The command word and its fields are one another's inverse, and the opcode map read both ways. -/

namespace Sys2Proof

/-- The fields of a word, put together, are the word (R55). -/
theorem cmdWord_cmdFields (v : Word) : cmdWord (cmdFields v) = v := by
  apply BitVec.eq_of_getLsbD_eq
  intro i hi
  show (v.extractLsb' 4 28 ++ v.extractLsb' 0 4).getLsbD i = _
  refine (BitVec.getLsbD_append (x := v.extractLsb' 4 28) (y := v.extractLsb' 0 4)).trans ?_
  by_cases h : i < 4
  · simp [h]
  · simp [h, show i - 4 < 28 by omega, show 4 + (i - 4) = i by omega]

/-- A word put together from fields has those fields (R55). -/
theorem cmdFields_cmdWord (f : CmdFields) : cmdFields (cmdWord f) = f := by
  obtain ⟨op, zero⟩ := f
  have key : ∀ i, (zero ++ op : Word).getLsbD i = if i < 4 then op.getLsbD i else zero.getLsbD (i - 4) :=
    fun i => (BitVec.getLsbD_append (x := zero) (y := op))
  simp only [cmdFields, cmdWord, CmdFields.mk.injEq]
  constructor
  · apply BitVec.eq_of_getLsbD_eq
    intro i hi
    rw [BitVec.getLsbD_extractLsb', key]
    simp [hi]
  · apply BitVec.eq_of_getLsbD_eq
    intro i hi
    rw [BitVec.getLsbD_extractLsb', key]
    simp [hi]

/-- The two readings of the opcode map agree (R56). -/
theorem opCommand_iff (op : BitVec 4) (i : Instr) : opCommand op = .command i ↔ op = i.opcode := by
  revert op i
  intro op i
  cases i <;> revert op <;> decide

/-- A reserved OP is no command (R57, R58). -/
theorem opCommand_reserved (op : BitVec 4) (h : op = 0 ∨ 8 ≤ op.toNat) : opCommand op = .reservedOp := by
  revert op; decide

end Sys2Proof
end

