-- ==== Sys2Proof/Laws/Memory.lean ====
section
/-! SUPPORT. The laws of the sparse memories: read after write, and that every operation keeps the canonical form. -/

namespace Sys2Proof.Machine

variable {α : Type}

@[simp] theorem Memory.get?_nil (k : Nat) : Memory.get? ([] : List (Nat × α)) k = none := rfl

theorem Memory.get?_cons (a : Nat) (v : α) (t : List (Nat × α)) (k : Nat) :
    Memory.get? ((a, v) :: t) k = if a = k then some v else Memory.get? t k := rfl

@[simp] theorem Memory.wf_nil : Memory.wf ([] : List (Nat × α)) = true := rfl

theorem Memory.wf_cons (a : Nat) (v : α) (t : List (Nat × α)) :
    Memory.wf ((a, v) :: t) = true ↔ (∀ e ∈ t, a < e.1) ∧ Memory.wf t = true := by
  simp [Memory.wf]

/-- A write is read back. -/
@[simp] theorem Memory.get?_set_same (m : List (Nat × α)) (k : Nat) (v : α) :
    Memory.get? (Memory.set m k v) k = some v := by
  induction m with
  | nil => simp [Memory.set, Memory.get?]
  | cons e t ih =>
    obtain ⟨a, u⟩ := e
    simp only [Memory.set]
    split
    · simp [Memory.get?]
    · split
      · simp [Memory.get?]
      · rw [Memory.get?_cons, if_neg (by omega), ih]

/-- A write leaves every other key alone. -/
theorem Memory.get?_set_ne (m : List (Nat × α)) {k j : Nat} (v : α) (h : j ≠ k) :
    Memory.get? (Memory.set m k v) j = Memory.get? m j := by
  induction m with
  | nil => simp [Memory.set, Memory.get?, Ne.symm h]
  | cons e t ih =>
    obtain ⟨a, u⟩ := e
    simp only [Memory.set]
    split
    · rw [Memory.get?_cons, if_neg (Ne.symm h)]
    · split
      · subst_vars; simp [Memory.get?_cons, Ne.symm h]
      · rw [Memory.get?_cons, Memory.get?_cons, ih]

/-- The keys of a memory after a write: the old ones and the written one. -/
theorem Memory.mem_set {m : List (Nat × α)} {k : Nat} {v : α} {e : Nat × α} (h : e ∈ Memory.set m k v) :
    e = (k, v) ∨ e ∈ m := by
  induction m with
  | nil => simpa [Memory.set] using h
  | cons d t ih =>
    obtain ⟨a, u⟩ := d
    simp only [Memory.set] at h
    split at h
    · rcases List.mem_cons.1 h with h | h
      · exact .inl h
      · exact .inr h
    · split at h
      · rcases List.mem_cons.1 h with h | h
        · exact .inl h
        · exact .inr (List.mem_cons_of_mem _ h)
      · rcases List.mem_cons.1 h with h | h
        · exact .inr (h ▸ List.mem_cons_self)
        · exact (ih h).imp id (List.mem_cons_of_mem _)

/-- A write keeps the canonical form. -/
theorem Memory.wf_set {m : List (Nat × α)} (h : Memory.wf m = true) (k : Nat) (v : α) :
    Memory.wf (Memory.set m k v) = true := by
  induction m with
  | nil => simp [Memory.set, Memory.wf]
  | cons e t ih =>
    obtain ⟨a, u⟩ := e
    obtain ⟨ha, ht⟩ := (Memory.wf_cons a u t).1 h
    simp only [Memory.set]
    split
    · rename_i hk
      refine (Memory.wf_cons _ _ _).2 ⟨fun e he => ?_, h⟩
      rcases List.mem_cons.1 he with rfl | he
      · exact hk
      · exact Nat.lt_trans hk (ha e he)
    · split
      · rename_i hk
        exact (Memory.wf_cons _ _ _).2 ⟨fun e he => hk ▸ ha e he, ht⟩
      · refine (Memory.wf_cons _ _ _).2 ⟨fun e he => ?_, ih ht⟩
        rcases Memory.mem_set he with rfl | he
        · simp only; omega
        · exact ha e he

/-- An entry of a canonical memory is what its key reads as. -/
theorem Memory.get?_of_mem {m : List (Nat × α)} (h : Memory.wf m = true) {e : Nat × α} (he : e ∈ m) :
    Memory.get? m e.1 = some e.2 := by
  induction m with
  | nil => cases he
  | cons d t ih =>
    obtain ⟨a, u⟩ := d
    obtain ⟨ha, ht⟩ := (Memory.wf_cons a u t).1 h
    rcases List.mem_cons.1 he with rfl | he
    · simp [Memory.get?]
    · rw [Memory.get?_cons, if_neg (Nat.ne_of_lt (ha e he)), ih ht he]

/-- What a key reads as is an entry. -/
theorem Memory.mem_of_get? {m : List (Nat × α)} {k : Nat} {v : α} (h : Memory.get? m k = some v) : (k, v) ∈ m := by
  induction m with
  | nil => cases h
  | cons d t ih =>
    obtain ⟨a, u⟩ := d
    rw [Memory.get?_cons] at h
    split at h
    · subst_vars; cases h; exact List.mem_cons_self
    · exact List.mem_cons_of_mem _ (ih h)

/-- Equal memories are equal data: two canonical memories that read alike at every key are the same list. -/
theorem Memory.ext_of_get? {m n : List (Nat × α)} (hm : Memory.wf m = true) (hn : Memory.wf n = true)
    (h : ∀ k, Memory.get? m k = Memory.get? n k) : m = n := by
  induction m generalizing n with
  | nil =>
    cases n with
    | nil => rfl
    | cons d t =>
      have := h d.1
      rw [Memory.get?_of_mem hn List.mem_cons_self] at this
      cases this
  | cons e t ih =>
    obtain ⟨a, v⟩ := e
    cases n with
    | nil =>
      have := h a
      rw [Memory.get?_of_mem hm List.mem_cons_self] at this
      cases this
    | cons d t' =>
      obtain ⟨b, u⟩ := d
      obtain ⟨ha, ht⟩ := (Memory.wf_cons _ _ _).1 hm
      obtain ⟨hb, ht'⟩ := (Memory.wf_cons _ _ _).1 hn
      have ea : (a, v) ∈ (b, u) :: t' :=
        Memory.mem_of_get? ((h a).symm.trans (Memory.get?_of_mem hm List.mem_cons_self))
      have eb : (b, u) ∈ (a, v) :: t :=
        Memory.mem_of_get? ((h b).trans (Memory.get?_of_mem hn List.mem_cons_self))
      have hab : (a, v) = (b, u) := by
        rcases List.mem_cons.1 ea with e1 | e1
        · exact e1
        · rcases List.mem_cons.1 eb with e2 | e2
          · exact e2.symm
          · have := hb _ e1; have := ha _ e2; simp only at *; omega
      cases hab
      congr 1
      refine ih ht ht' fun k => ?_
      have hk := h k
      rw [Memory.get?_cons, Memory.get?_cons] at hk
      split at hk
      · rename_i hak
        subst hak
        have n1 : Memory.get? t a = none := by
          cases hg : Memory.get? t a with
          | none => rfl
          | some x => exact absurd (ha _ (Memory.mem_of_get? hg)) (Nat.lt_irrefl _)
        have n2 : Memory.get? t' a = none := by
          cases hg : Memory.get? t' a with
          | none => rfl
          | some x => exact absurd (hb _ (Memory.mem_of_get? hg)) (Nat.lt_irrefl _)
        rw [n1, n2]
      · exact hk

/-- What `ofBytes` lists at an address. -/
theorem Memory.get?_ofBytes (bs : List Byte) (a j : Nat) :
    Memory.get? (Memory.ofBytes a bs) (a + j) = bs[j]? := by
  induction bs generalizing a j with
  | nil => simp [Memory.ofBytes]
  | cons b t ih =>
    rw [Memory.ofBytes, Memory.get?_cons]
    cases j with
    | zero => simp
    | succ j =>
      rw [if_neg (by omega), show a + (j + 1) = (a + 1) + j by omega, ih]
      simp

theorem Memory.mem_ofBytes {bs : List Byte} {a : Nat} {e : Nat × Byte} (h : e ∈ Memory.ofBytes a bs) :
    a ≤ e.1 ∧ e.1 < a + bs.length := by
  induction bs generalizing a with
  | nil => cases h
  | cons b t ih =>
    rcases List.mem_cons.1 h with rfl | h
    · simp
    · have := ih h
      simp only [List.length_cons]
      omega

/-- The memory that lists a byte sequence is canonical. -/
theorem Memory.wf_ofBytes (a : Nat) (bs : List Byte) : Memory.wf (Memory.ofBytes a bs) = true := by
  induction bs generalizing a with
  | nil => rfl
  | cons b t ih =>
    exact (Memory.wf_cons _ _ _).2 ⟨fun e he => (Memory.mem_ofBytes he).1, ih _⟩

/-- A canonical memory whose keys are all below n lists at most n of them. -/
theorem Memory.length_le {m : List (Nat × α)} {n : Nat} (h : Memory.wf m = true) (hb : ∀ e ∈ m, e.1 < n) :
    m.length ≤ n := by
  have key : ∀ (m : List (Nat × α)) (a : Nat), Memory.wf m = true → (∀ e ∈ m, a ≤ e.1 ∧ e.1 < n) → a ≤ n →
      m.length ≤ n - a := by
    intro m
    induction m with
    | nil => intro a _ _ _; simp
    | cons e t ih =>
      intro a hw hl ha
      obtain ⟨h1, h2⟩ := (Memory.wf_cons e.1 e.2 t).1 hw
      have h0 := hl e List.mem_cons_self
      have := ih (e.1 + 1) h2 (fun d hd => ⟨h1 d hd, (hl d (List.mem_cons_of_mem _ hd)).2⟩) h0.2
      simp only [List.length_cons]
      omega
  exact key m 0 h (fun e he => ⟨Nat.zero_le _, hb e he⟩) (Nat.zero_le _)

/-! ### The image memory (R41) -/

/-- A row below h starts and ends inside h rows. -/
theorem row_le {w r h : Nat} (hr : r < h) : r * w + w ≤ h * w := by
  rw [← Nat.succ_mul]
  exact Nat.mul_le_mul_right _ hr

/-- Two pixels of a w-pixel-wide image have one cell only if they are one pixel. -/
theorem pixelCell_inj {w r c r' c' : Nat} (hc : c < w) (hc' : c' < w) :
    pixelCell w r c = pixelCell w r' c' ↔ r = r' ∧ c = c' := by
  unfold pixelCell
  constructor
  · intro h
    rcases Nat.lt_trichotomy r r' with hr | rfl | hr
    · have := row_le (w := w) hr; omega
    · exact ⟨rfl, by omega⟩
    · have := row_le (w := w) hr; omega
  · rintro ⟨rfl, rfl⟩; rfl

/-- A pixel inside a w × h image has one of its first w · h cells. -/
theorem pixelCell_lt {w h r c : Nat} (hr : r < h) (hc : c < w) : pixelCell w r c < w * h := by
  have := row_le (w := w) hr
  rw [Nat.mul_comm h w] at this
  unfold pixelCell
  omega

/-- Every one of them is some pixel of the image. -/
theorem exists_pixelCell {w h i : Nat} (hi : i < w * h) : ∃ r c, r < h ∧ c < w ∧ i = pixelCell w r c := by
  have hw : 0 < w := Nat.pos_of_ne_zero fun e => by simp [e] at hi
  refine ⟨i / w, i % w, Nat.div_lt_of_lt_mul hi, Nat.mod_lt _ hw, ?_⟩
  have := Nat.div_add_mod i w
  rw [Nat.mul_comm] at this
  exact this.symm

/-- A cell after a write to the image memory: the pixel written, or what it was. -/
theorem State.imgCell_set (s : State) (k : Nat) (px : Pixel) (i : Nat) :
    ({ s with imgPix := Memory.set s.imgPix k px } : State).imgCell i = if i = k then px else s.imgCell i := by
  unfold State.imgCell
  by_cases h : i = k
  · subst h; simp
  · simp only [if_neg h, Memory.get?_set_ne _ _ h]

/-- Every memory of the machine after reset is canonical: nothing is listed (R126). -/
theorem State.reset_memories_wf :
    Memory.wf State.reset.inMem = true ∧ Memory.wf State.reset.imgPix = true ∧
      Memory.wf State.reset.host.temps = true :=
  ⟨rfl, rfl, rfl⟩

end Sys2Proof.Machine
end

