-- ==== Sys2Proof/Laws/Ops.lean ====
section
/-! SUPPORT. What the shared operations can do, said once: the sink's writes, and how a command ends. -/

namespace Sys2Proof.Machine

/-! ### The sink (R40) -/

@[simp] theorem State.answerAt_putOut (s : State) (b : Byte) (j : Nat) : (s.putOut b).answerAt j = s.answerAt j := rfl

/-- Taking an answer moves on to the next. -/
theorem State.answerAt_answered (s : State) (j : Nat) : s.answered.answerAt j = s.answerAt (j + 1) := by
  unfold State.answerAt State.answered
  cases h : s.acks with
  | nil => simp only [List.getElem?_nil, List.length_nil, Nat.sub_zero]; congr 2; omega
  | cons a t => simp [Nat.add_sub_add_right]

@[simp] theorem State.answerAt_sinkTook (s : State) (bs : List Byte) (j : Nat) :
    (s.sinkTook bs).answerAt j = s.answerAt (bs.length + j) := by
  simp only [State.answerAt, State.sinkTook, List.getElem?_drop, List.length_drop]
  cases h : s.acks[bs.length + j]? with
  | some a => rfl
  | none =>
    have := List.getElem?_eq_none_iff.1 h
    simp only; congr 2; omega

@[simp] theorem State.sinkTook_nil (s : State) : s.sinkTook [] = s := by
  simp [State.sinkTook]

theorem State.sinkTook_append (s : State) (a b : List Byte) : (s.sinkTook a).sinkTook b = s.sinkTook (a ++ b) := by
  simp only [State.sinkTook, List.append_assoc, List.length_append, List.drop_drop, List.length_drop,
    BitVec.ofNat_add]
  congr 1
  · rw [BitVec.add_assoc]
  · omega

theorem State.putOut_answered (s : State) (b : Byte) : s.answered.putOut b = s.sinkTook [b] := by
  unfold State.answered State.putOut State.sinkTook
  cases h : s.acks with
  | nil => simp
  | cons a t => simp

theorem memWrite_cons (b : Byte) (bs : List Byte) (s : State) :
    memWrite (b :: bs) s =
      match s.answerAt 0 with
      | .accept => memWrite bs (s.sinkTook [b])
      | .fail => { ending := .fail .write, st := s.answered }
      | .never => { ending := .stuck, st := s } := by
  rw [memWrite, State.putOut_answered]
  all_goals (cases s.answerAt 0 <;> rfl)

/-- OUT of a fresh sink is what has been accepted since (R40). -/
theorem State.outBytes_fresh {s : State} (h : s.outHeld = false) : s.outBytes = s.out := by
  simp [State.outBytes, h]

/-- Every byte accepted: the sink has taken them all. -/
theorem memWrite_accepted {v : List Byte} {s : State} (h : ∀ j, j < v.length → s.answerAt j = .accept) :
    memWrite v s = { ending := .ok, st := s.sinkTook v } := by
  induction v generalizing s with
  | nil => rw [State.sinkTook_nil]; rfl
  | cons b t ih =>
    rw [memWrite_cons, h 0 (by simp)]
    simp only
    rw [ih, State.sinkTook_append]; rfl
    intro j hj
    rw [State.answerAt_sinkTook]
    exact h _ (by simp; omega)

/-- Byte n refused after n accepted ones: the sink has taken those, and the refusal has been answered. -/
theorem memWrite_refused {v : List Byte} {s : State} {n : Nat} (hn : n < v.length)
    (h : ∀ j, j < n → s.answerAt j = .accept) (hf : s.answerAt n = .fail) :
    memWrite v s = { ending := .fail .write, st := (s.sinkTook (v.take n)).answered } := by
  induction v generalizing s n with
  | nil => simp at hn
  | cons b t ih =>
    rw [memWrite_cons]
    cases n with
    | zero => rw [hf]; simp
    | succ n =>
      rw [h 0 (by omega)]
      simp only
      rw [ih (n := n) (by simpa using hn), State.sinkTook_append]; rfl
      · intro j hj
        rw [State.answerAt_sinkTook, List.length_singleton]
        exact h _ (by omega)
      · rw [State.answerAt_sinkTook, List.length_singleton, Nat.add_comm]; exact hf

/-- Byte n never answered after n accepted ones. -/
theorem memWrite_silent {v : List Byte} {s : State} {n : Nat} (hn : n < v.length)
    (h : ∀ j, j < n → s.answerAt j = .accept) (hf : s.answerAt n = .never) :
    memWrite v s = { ending := .stuck, st := s.sinkTook (v.take n) } := by
  induction v generalizing s n with
  | nil => simp at hn
  | cons b t ih =>
    rw [memWrite_cons]
    cases n with
    | zero => rw [hf]; simp
    | succ n =>
      rw [h 0 (by omega)]
      simp only
      rw [ih (n := n) (by simpa using hn), State.sinkTook_append]; rfl
      · intro j hj
        rw [State.answerAt_sinkTook, List.length_singleton]
        exact h _ (by omega)
      · rw [State.answerAt_sinkTook, List.length_singleton, Nat.add_comm]; exact hf

/-- The answers up to the first that is not accept decide how a write of n bytes goes. -/
theorem State.answers_cases (s : State) (n : Nat) :
    (∀ j, j < n → s.answerAt j = .accept) ∨
      ∃ m, m < n ∧ (∀ j, j < m → s.answerAt j = .accept) ∧ (s.answerAt m = .fail ∨ s.answerAt m = .never) := by
  induction n with
  | zero => exact .inl fun j hj => absurd hj (Nat.not_lt_zero j)
  | succ n ih =>
    rcases ih with h | ⟨m, hm, h, e⟩
    · cases ha : s.answerAt n with
      | accept =>
        refine .inl fun j hj => ?_
        rcases Nat.lt_succ_iff_lt_or_eq.1 hj with hj | rfl
        · exact h j hj
        · exact ha
      | fail => exact .inr ⟨n, by omega, h, .inl ha⟩
      | never => exact .inr ⟨n, by omega, h, .inr ha⟩
    · exact .inr ⟨m, by omega, h, e⟩

/-- Everything a write to the sink can do. -/
theorem memWrite_cases (v : List Byte) (s : State) :
    ((∀ j, j < v.length → s.answerAt j = .accept) ∧ memWrite v s = { ending := .ok, st := s.sinkTook v }) ∨
    (∃ n, n < v.length ∧ (∀ j, j < n → s.answerAt j = .accept) ∧ s.answerAt n = .fail ∧
      memWrite v s = { ending := .fail .write, st := (s.sinkTook (v.take n)).answered }) ∨
    (∃ n, n < v.length ∧ (∀ j, j < n → s.answerAt j = .accept) ∧ s.answerAt n = .never ∧
      memWrite v s = { ending := .stuck, st := s.sinkTook (v.take n) }) := by
  rcases s.answers_cases v.length with h | ⟨n, hn, h, hf | hf⟩
  · exact .inl ⟨h, memWrite_accepted h⟩
  · exact .inr (.inl ⟨n, hn, h, hf, memWrite_refused hn h hf⟩)
  · exact .inr (.inr ⟨n, hn, h, hf, memWrite_silent hn h hf⟩)

/-- Two writes one after the other are one write of the bytes of both. -/
theorem memWrite_append (a b : List Byte) (s : State) :
    memWrite (a ++ b) s =
      match memWrite a s with
      | { ending := .ok, st := t } => memWrite b t
      | e => e := by
  induction a generalizing s with
  | nil => rfl
  | cons x t ih =>
    rw [List.cons_append, memWrite_cons, memWrite_cons]
    cases s.answerAt 0 with
    | accept => exact ih _
    | fail => rfl
    | never => rfl

/-! ### The fields a sink write leaves alone -/

theorem State.answered_eq (s : State) :
    s.answered = { s with acks := s.acks.drop 1, draws := s.draws + (1 - s.acks.length) } := by
  unfold State.answered
  cases h : s.acks with
  | nil => simp
  | cons a t => simp

/-! ### How a command ends -/

/-- A command that answers a next state has completed: STATUS is success or the failure's code, and no command runs. -/
theorem CmdEnd.finish_next {r : CmdEnd} {t : State} (h : r.finish = .next t) :
    (r.ending = .ok ∧ t = r.st.finishOk) ∨ (∃ e, r.ending = .fail e ∧ t = r.st.raiseFail e) := by
  obtain ⟨e, u⟩ := r
  cases e with
  | ok => exact .inl ⟨rfl, by simpa [CmdEnd.finish] using h.symm⟩
  | fail e => exact .inr ⟨e, rfl, by simpa [CmdEnd.finish] using h.symm⟩
  | stuck => simp [CmdEnd.finish] at h

theorem CmdEnd.finish_ok (u : State) : ({ ending := .ok, st := u } : CmdEnd).finish = .next u.finishOk := rfl
theorem CmdEnd.finish_fail (e : ErrCode) (u : State) :
    ({ ending := .fail e, st := u } : CmdEnd).finish = .next (u.raiseFail e) := rfl
theorem CmdEnd.finish_stuck (u : State) :
    ({ ending := .stuck, st := u } : CmdEnd).finish = .fault .sinkNeverAnswers := rfl

end Sys2Proof.Machine
end

