-- ==== Sys2Proof/Laws/Decoder.lean ====
section
/-! SUPPORT. What DECODE's row stores leave in the image memory, pixel by pixel, and how its checks end it. -/

namespace Sys2Proof.Machine

/-- A row store writes exactly the cells of its row. -/
theorem get?_storeRow (w r : Nat) (row : List Byte) (m : List (Nat × Pixel)) (k : Nat) :
    Memory.get? (storeRow w r row m) k =
      if r * w ≤ k ∧ k < r * w + w then some (pixelOf row (k - r * w)) else Memory.get? m k := by
  have key : ∀ n, Memory.get? ((List.range n).foldl (fun m c => Memory.set m (pixelCell w r c) (pixelOf row c)) m) k =
      if r * w ≤ k ∧ k < r * w + n then some (pixelOf row (k - r * w)) else Memory.get? m k := by
    intro n
    induction n with
    | zero => rw [if_neg (by omega)]; rfl
    | succ n ih =>
      rw [List.range_succ, List.foldl_append, List.foldl_cons, List.foldl_nil]
      by_cases hk : k = r * w + n
      · subst hk
        rw [if_pos (by omega), Nat.add_sub_cancel_left]
        exact Memory.get?_set_same _ _ _
      · rw [Memory.get?_set_ne _ _ (show k ≠ pixelCell w r n from hk), ih]
        exact if_congr (by omega) rfl rfl
  exact key w

/-- Nothing but cells of its row enters the image memory. -/
theorem mem_storeRow {w r : Nat} {row : List Byte} {m : List (Nat × Pixel)} {e : Nat × Pixel}
    (h : e ∈ storeRow w r row m) : e ∈ m ∨ e.1 < r * w + w := by
  have key : ∀ n, n ≤ w →
      e ∈ (List.range n).foldl (fun m c => Memory.set m (pixelCell w r c) (pixelOf row c)) m →
      e ∈ m ∨ e.1 < r * w + w := by
    intro n
    induction n with
    | zero => exact fun _ h => .inl h
    | succ n ih =>
      intro hn h
      rw [List.range_succ, List.foldl_append, List.foldl_cons, List.foldl_nil] at h
      rcases Memory.mem_set h with rfl | h
      · right; simp only [pixelCell]; omega
      · exact ih (by omega) h
  exact key w (Nat.le_refl _) h

theorem wf_storeRow (w r : Nat) (row : List Byte) {m : List (Nat × Pixel)} (h : Memory.wf m = true) :
    Memory.wf (storeRow w r row m) = true := by
  unfold storeRow
  induction List.range w generalizing m with
  | nil => exact h
  | cons c l ih => exact ih (Memory.wf_set h _ _)

/-- The n rows read from offset p land in rows n - 1 down to 0, columns below w (R106). -/
theorem get?_decodeRows (s : State) (w n p : Nat) (m : List (Nat × Pixel)) {r c : Nat} (hr : r < n) (hc : c < w) :
    Memory.get? (decodeRows s w n p m) (pixelCell w r c) =
      some (pixelOf (s.memRead (p + (n - 1 - r) * stride w) (3 * w)) c) := by
  suffices h : ∀ n p m, Memory.get? (decodeRows s w n p m) (pixelCell w r c) =
      if r < n then some (pixelOf (s.memRead (p + (n - 1 - r) * stride w) (3 * w)) c)
      else Memory.get? m (pixelCell w r c) by
    rw [h, if_pos hr]
  intro n
  induction n with
  | zero => intro p m; rfl
  | succ q ih =>
    intro p m
    rw [decodeRows, ih, get?_storeRow]
    rcases Nat.lt_trichotomy r q with h | rfl | h
    · have e : p + 3 * w + padding w + (q - 1 - r) * stride w = p + (q + 1 - 1 - r) * stride w := by
        rw [show q + 1 - 1 - r = (q - 1 - r) + 1 by omega, Nat.add_mul, Nat.one_mul]
        have := stride_eq w
        omega
      rw [if_pos h, if_pos (by omega), e]
    · rw [if_neg (by omega), if_pos (by unfold pixelCell; omega), if_pos (by omega)]
      simp [pixelCell]
    · have := row_le (w := w) h
      rw [if_neg (by omega), if_neg (by unfold pixelCell; omega), if_neg (by omega)]

/-- Every cell past the image is as before. -/
theorem get?_decodeRows_outside (s : State) (w n p : Nat) (m : List (Nat × Pixel)) {k : Nat} (hk : w * n ≤ k) :
    Memory.get? (decodeRows s w n p m) k = Memory.get? m k := by
  induction n generalizing p m with
  | zero => rfl
  | succ q ih =>
    have : w * (q + 1) = q * w + w := by rw [Nat.mul_comm, Nat.succ_mul]
    rw [decodeRows, ih _ _ (by rw [Nat.mul_comm]; omega), get?_storeRow, if_neg (by omega)]

/-- Nothing but cells of the image enters the image memory. -/
theorem mem_decodeRows {s : State} {w n p : Nat} {m : List (Nat × Pixel)} {e : Nat × Pixel}
    (h : e ∈ decodeRows s w n p m) : e ∈ m ∨ e.1 < w * n := by
  induction n generalizing p m with
  | zero => exact .inl h
  | succ q ih =>
    have : w * (q + 1) = q * w + w := by rw [Nat.mul_comm, Nat.succ_mul]
    rcases ih h with h | h
    · rcases mem_storeRow h with h | h
      · exact .inl h
      · exact .inr (by omega)
    · rw [Nat.mul_comm] at h
      exact .inr (by omega)

theorem wf_decodeRows (s : State) (w n p : Nat) {m : List (Nat × Pixel)} (h : Memory.wf m = true) :
    Memory.wf (decodeRows s w n p m) = true := by
  induction n generalizing p m with
  | zero => exact h
  | succ q ih => exact ih _ (wf_storeRow _ _ _ h)

/-- HB after the header read is IN[0..53] (R96). -/
theorem toList_hb_loadHeaders (s : State) : s.loadHeaders.hb.toList = s.memRead 0 54 :=
  toList_hbWrite_all _ _ (by simp [State.memRead])

/-- The ways DECODE's first part ends. -/
theorem decodePrepare_cases (s : State) :
    (s.inReady = 0 ∧ decodePrepare s = decodeFail .ioIn s) ∨
    (s.inReady ≠ 0 ∧ s.inLen < 54 ∧ decodePrepare s = decodeFail .short s) ∨
    (s.inReady ≠ 0 ∧ 54 ≤ s.inLen ∧
      ∃ e, decodeCheck s.loadHeaders.fh s.loadHeaders.ih s.inLen s.params.imgMaxPixels = some e ∧
        decodePrepare s = decodeFail e s.loadHeaders) ∨
    (s.inReady ≠ 0 ∧ 54 ≤ s.inLen ∧
      decodeCheck s.loadHeaders.fh s.loadHeaders.ih s.inLen s.params.imgMaxPixels = none ∧
        decodePrepare s = { ending := .ok
                            st := { s.loadHeaders with imgW := s.loadHeaders.ih.width
                                                       imgH := s.loadHeaders.ih.height } }) := by
  unfold decodePrepare
  by_cases h0 : s.inReady = 0
  · exact .inl ⟨h0, if_pos h0⟩
  · rw [if_neg h0]
    by_cases h1 : s.inLen < 54
    · exact .inr (.inl ⟨h0, h1, if_pos h1⟩)
    · rw [if_neg h1]
      simp only
      cases h2 : decodeCheck s.loadHeaders.fh s.loadHeaders.ih s.inLen s.params.imgMaxPixels with
      | some e => exact .inr (.inr (.inl ⟨h0, by omega, e, rfl, rfl⟩))
      | none => exact .inr (.inr (.inr ⟨h0, by omega, rfl, rfl⟩))

/-! ### Reads of IN -/

theorem memRead_getElem? (s : State) (a n j : Nat) (h : j < n) : (s.memRead a n)[j]? = some (s.inByte (a + j)) := by
  simp [State.memRead, h]

theorem memRead_getD (s : State) (a n j : Nat) (h : j < n) : (s.memRead a n).getD j 0 = s.inByte (a + j) := by
  rw [List.getD_eq_getElem?_getD, memRead_getElem? _ _ _ _ h]; rfl

theorem memRead_take (s : State) (a n m : Nat) (h : m ≤ n) : (s.memRead a n).take m = s.memRead a m := by
  simp [State.memRead, ← List.map_take, List.take_range, h]

theorem memRead_drop (s : State) (a n m : Nat) (h : m ≤ n) : (s.memRead a n).drop m = s.memRead (a + m) (n - m) := by
  apply List.ext_getElem?
  intro j
  rw [List.getElem?_drop]
  by_cases hj : j < n - m
  · rw [memRead_getElem? _ _ _ _ (by omega), memRead_getElem? _ _ _ _ hj, Nat.add_assoc]
  · rw [List.getElem?_eq_none (by simp [State.memRead]; omega),
      List.getElem?_eq_none (by simp [State.memRead]; omega)]

/-- A read depends on the bytes read alone. -/
theorem memRead_congr {t s : State} {a n : Nat}
    (h : ∀ j, j < n → t.inByte (a + j) = s.inByte (a + j)) : t.memRead a n = s.memRead a n := by
  apply List.ext_getElem?
  intro j
  by_cases hj : j < n
  · rw [memRead_getElem? _ _ _ _ hj, memRead_getElem? _ _ _ _ hj, h j hj]
  · rw [List.getElem?_eq_none (by simp [State.memRead]; omega),
      List.getElem?_eq_none (by simp [State.memRead]; omega)]

/-- The rows stored depend on the 3·w bytes of each row alone (R109). -/
theorem decodeRows_congr (t s : State) (w n p : Nat) (m : List (Nat × Pixel))
    (h : ∀ k, k < n → ∀ j, j < 3 * w → t.inByte (p + k * stride w + j) = s.inByte (p + k * stride w + j)) :
    decodeRows t w n p m = decodeRows s w n p m := by
  induction n generalizing p m with
  | zero => rfl
  | succ n ih =>
    have h0 : t.memRead p (3 * w) = s.memRead p (3 * w) := by
      apply List.ext_getElem?
      intro j
      by_cases hj : j < 3 * w
      · rw [memRead_getElem? _ _ _ _ hj, memRead_getElem? _ _ _ _ hj]
        have := h 0 (by omega) j hj
        simpa using this
      · rw [List.getElem?_eq_none (by simp [State.memRead]; omega),
          List.getElem?_eq_none (by simp [State.memRead]; omega)]
    rw [decodeRows, decodeRows, h0, ih]
    intro k hk j hj
    have := h (k + 1) (by omega) j hj
    have e : p + 3 * w + padding w + k * stride w = p + (k + 1) * stride w := by
      have := stride_eq w; rw [Nat.add_mul]; omega
    rw [e]; exact this

theorem loadHeaders_fh (s : State) : s.loadHeaders.fh = unpackFH (s.memRead 0 14) := by
  show unpackFH ((s.memRead 0 54).take 14) = _
  rw [memRead_take _ _ _ _ (by omega)]

theorem loadHeaders_ih (s : State) : s.loadHeaders.ih = unpackIH (s.memRead 14 40) := by
  show unpackIH ((s.memRead 0 54).drop 14) = _
  rw [memRead_drop _ _ _ _ (by omega)]

end Sys2Proof.Machine
end

