-- ==== Sys2Proof/Laws/Encoder.lean ====
section
/-! SUPPORT. ENCODE as one sink write: after its checks it offers the bytes of the whole file, in order. -/

namespace Sys2Proof.Machine

/-- The rows of the first n in-memory rows, the last first (R90). -/
def rowsBytes (s : State) (w : Nat) : Nat → List Byte
  | 0 => []
  | r + 1 => rowBytes s w r ++ rowsBytes s w r

@[simp] theorem rowBytes_sinkTook (s : State) (bs : List Byte) (w r : Nat) :
    rowBytes (s.sinkTook bs) w r = rowBytes s w r := rfl

@[simp] theorem rowsBytes_sinkTook (s : State) (bs : List Byte) (w n : Nat) :
    rowsBytes (s.sinkTook bs) w n = rowsBytes s w n := by
  induction n with
  | zero => rfl
  | succ r ih => simp [rowsBytes, ih]

theorem rowsBytes_eq (s : State) (w n : Nat) :
    rowsBytes s w n = (List.range n).flatMap fun k => rowBytes s w (n - 1 - k) := by
  induction n with
  | zero => rfl
  | succ r ih =>
    have h0 : r + 1 - 1 - 0 = r := by omega
    have hk : ∀ k, r + 1 - 1 - (k + 1) = r - 1 - k := by omega
    rw [rowsBytes, ih, List.range_succ_eq_map, List.flatMap_cons, List.flatMap_map, h0]
    simp only [Nat.succ_eq_add_one, hk]

@[simp] theorem length_rowBytes (s : State) (w r : Nat) : (rowBytes s w r).length = stride w := by
  have h : ∀ n, ((List.range n).flatMap fun c => pixelBytes (s.imgRead r c)).length = 3 * n := by
    intro n
    induction n with
    | zero => rfl
    | succ n ih => rw [List.range_succ, List.flatMap_append, List.length_append, ih]; simp [pixelBytes]; omega
  rw [rowBytes, List.length_append, h, List.length_replicate, stride_eq]
  omega

@[simp] theorem length_rowsBytes (s : State) (w n : Nat) : (rowsBytes s w n).length = n * stride w := by
  induction n with
  | zero => simp [rowsBytes]
  | succ r ih => rw [rowsBytes, List.length_append, ih, length_rowBytes, Nat.succ_mul, Nat.add_comm]

/-- Writing the rows one by one is one write of all their bytes. -/
theorem encodeRows_eq (w n : Nat) (s : State) : encodeRows w n s = memWrite (rowsBytes s w n) s := by
  induction n generalizing s with
  | zero => rfl
  | succ r ih =>
    rw [encodeRows, rowsBytes, memWrite_append]
    rcases memWrite_cases (rowBytes s w r) s with ⟨_, h⟩ | ⟨n, _, _, _, h⟩ | ⟨n, _, _, _, h⟩
    · rw [h]; simp only; rw [ih, rowsBytes_sinkTook]
    · rw [h]
    · rw [h]

/-- The bytes ENCODE offers from a state that passes its checks (R65). -/
def offeredFile (s : State) : List Byte :=
  packFH (builtFileHeader (encodedSize s.imgW.toNat s.imgH.toNat))
    ++ packIH (builtInfoHeader s.params s.imgW.toNat s.imgH.toNat)
    ++ rowsBytes s s.imgW.toNat s.imgH.toNat

theorem length_offeredFile (s : State) : (offeredFile s).length = encodedSize s.imgW.toNat s.imgH.toNat := by
  simp only [offeredFile, List.length_append, length_packFH, length_packIH, length_rowsBytes, encodedSize]
  omega

theorem toList_hb_buildHeaders (s : State) :
    s.buildHeaders.hb.toList = packFH (builtFileHeader (encodedSize s.imgW.toNat s.imgH.toNat))
      ++ packIH (builtInfoHeader s.params s.imgW.toNat s.imgH.toNat) :=
  toList_hbWrite_headers _ _ _

theorem rowsBytes_built (s : State) (w n : Nat) : rowsBytes s.startSink.buildHeaders w n = rowsBytes s w n := by
  induction n with
  | zero => rfl
  | succ r ih => rw [rowsBytes, rowsBytes, ih]; rfl

/-- Building the headers and having bytes accepted changes the sink, the headers and the answers used up, nothing else
(the frame of ENCODE). The byte list is a variable, so that checking this unfolds no file. -/
theorem written_frame (s : State) (l : List Byte) :
    let t := s.startSink.buildHeaders.sinkTook l
    t = { s with outHeld := false, out := t.out, outLen := t.outLen, fh := t.fh, ih := t.ih, hb := t.hb, acks := t.acks,
                 draws := t.draws } := by
  intro t
  apply State.ext <;> rfl

/-- A failed check: nothing is offered (R84, R85). -/
theorem encodeBody_check {s : State} {e : ErrCode} (h : encodeCheck s = some e) :
    encodeBody s = { ending := .fail e, st := s.startSink } := by
  unfold encodeBody encodePrepare
  rw [h]

/-- All checks passed: the whole file is offered as one write (R83). -/
theorem encodeBody_write {s : State} (h : encodeCheck s = none) :
    encodeBody s = memWrite (offeredFile s) s.startSink.buildHeaders := by
  have hr := rowsBytes_built s s.imgW.toNat s.imgH.toNat
  unfold encodeBody encodePrepare
  rw [h]
  simp only
  rw [offeredFile, ← hr, memWrite_append]
  rw [show packFH (builtFileHeader (encodedSize s.imgW.toNat s.imgH.toNat))
      ++ packIH (builtInfoHeader s.params s.imgW.toNat s.imgH.toNat) = s.startSink.buildHeaders.hb.toList
    from (toList_hb_buildHeaders s.startSink).symm]
  rcases memWrite_cases s.startSink.buildHeaders.hb.toList s.startSink.buildHeaders with
    ⟨_, h⟩ | ⟨n, _, _, _, h⟩ | ⟨n, _, _, _, h⟩
  · rw [h]
    simp only
    rw [encodeRows_eq, rowsBytes_sinkTook]
    simp only [State.sinkTook_imgW, State.sinkTook_imgH, State.buildHeaders_imgW, State.buildHeaders_imgH,
      State.startSink_imgW, State.startSink_imgH]
  · rw [h]
  · rw [h]

/-- The ways ENCODE's operation ends. -/
theorem encodeBody_cases (s : State) :
    (∃ e, encodeCheck s = some e ∧ encodeBody s = { ending := .fail e, st := s.startSink }) ∨
    (encodeCheck s = none ∧
      encodeBody s = { ending := .ok, st := s.startSink.buildHeaders.sinkTook (offeredFile s) }) ∨
    (∃ n, encodeCheck s = none ∧ n < (offeredFile s).length ∧
      encodeBody s = { ending := .fail .write
                       st := (s.startSink.buildHeaders.sinkTook ((offeredFile s).take n)).answered }) ∨
    (∃ n, encodeCheck s = none ∧ n < (offeredFile s).length ∧ s.answerAt n = .never ∧
      encodeBody s = { ending := .stuck, st := s.startSink.buildHeaders.sinkTook ((offeredFile s).take n) }) := by
  cases h : encodeCheck s with
  | some e => exact .inl ⟨e, rfl, encodeBody_check h⟩
  | none =>
    rw [encodeBody_write h]
    rcases memWrite_cases (offeredFile s) s.startSink.buildHeaders with ⟨_, h⟩ | ⟨n, hn, _, _, h⟩ | ⟨n, hn, _, hv, h⟩
    · exact .inr (.inl ⟨rfl, h⟩)
    · exact .inr (.inr (.inl ⟨n, rfl, hn, h⟩))
    · exact .inr (.inr (.inr ⟨n, rfl, hn, hv, h⟩))

end Sys2Proof.Machine
end

