-- ==== Sys2Proof/Laws/PerInstr.lean ====
section
/-! SUPPORT. One law per command: what its encoding is (R55, R56). -/

namespace Sys2Proof.Laws.Encoding

/-- A command's word has a zero ZERO field, a legal OP, and no bit above the table's row. -/
def Statement (i : Instr) : Prop :=
  i.wellFormed = true ∧ (cmdFields (encode i)).wellFormed = true ∧ (cmdFields (encode i)).op = i.opcode ∧
    (encode i).toNat = i.opcode.toNat

theorem fhUnpack : Statement .fhUnpack := by unfold Statement; decide
theorem fhPack : Statement .fhPack := by unfold Statement; decide
theorem ihUnpack : Statement .ihUnpack := by unfold Statement; decide
theorem ihPack : Statement .ihPack := by unfold Statement; decide
theorem stride : Statement .stride := by unfold Statement; decide
theorem encode : Statement .encode := by unfold Statement; decide
theorem decode : Statement .decode := by unfold Statement; decide

end Sys2Proof.Laws.Encoding
end

