-- ==== Sys2Proof/Laws/Sequencer.lean ====
section
/-! SUPPORT. The laws of the sequencer's moves, of a write under way, and of the pixels a reset leaves landed. -/

namespace Sys2Proof.Machine

theorem ticks_one (s : State) : ticks 1 s = tick s := by
  rw [ticks]; cases tick s <;> rfl

/-- Moves follow one another. -/
theorem ticks_add (m n : Nat) (s u : State) (h : ticks m s = .next u) : ticks (m + n) s = ticks n u := by
  induction m generalizing s with
  | zero => cases h; simp
  | succ m ih =>
    rw [show m + 1 + n = (m + n) + 1 by omega, ticks]
    rw [ticks] at h
    cases ht : tick s with
    | next v => rw [ht] at h; exact ih v h
    | fault e => rw [ht] at h; cases h
    | refused e => rw [ht] at h; cases h

/-- The sink's write does not look at the sequencer. -/
theorem memWrite_seq (l : List Byte) (u : State) (x : Option Seq) :
    memWrite l { u with seq := x } = { memWrite l u with st := { (memWrite l u).st with seq := x } } := by
  induction l generalizing u with
  | nil => rfl
  | cons c l ih =>
    rw [memWrite, memWrite]
    have e1 : ({ u with seq := x } : State).answerAt 0 = u.answerAt 0 := rfl
    have e2 : ({ u with seq := x } : State).answered = { u.answered with seq := x } := by
      rw [State.answered_eq, State.answered_eq]
    rw [e1, e2]
    split
    · exact ih (u.answered.putOut c)
    · rfl
    · rfl

/-- Nor does the write of the rows. -/
theorem encodeRows_seq (w n : Nat) (u : State) (x : Option Seq) :
    encodeRows w n { u with seq := x } =
      { encodeRows w n u with st := { (encodeRows w n u).st with seq := x } } := by
  have hr : rowsBytes ({ u with seq := x } : State) w n = rowsBytes u w n := by
    induction n with
    | zero => rfl
    | succ r ih => rw [rowsBytes, rowsBytes, ih]; rfl
  rw [encodeRows_eq, encodeRows_eq, memWrite_seq, hr]

/-- A command's end does not depend on the sequencer. -/
theorem CmdEnd.finish_seq (r : CmdEnd) (x : Option Seq) :
    ({ r with st := { r.st with seq := x } } : CmdEnd).finish = r.finish := by
  obtain ⟨e, u⟩ := r
  cases e <;> rfl

theorem get?_landPixel (d i : Nat) (new m : List (Nat × Pixel)) (k : Nat) :
    Memory.get? (landPixel d i new m) k = Memory.get? m k ∨
      (∃ px, Memory.get? new k = some px ∧ Memory.get? (landPixel d i new m) k = some px) := by
  unfold landPixel
  split
  · rename_i px hn
    split
    · by_cases hk : k = i
      · subst hk; exact .inr ⟨px, hn, Memory.get?_set_same _ _ _⟩
      · exact .inl (Memory.get?_set_ne _ _ hk)
    · exact .inl rfl
  · exact .inl rfl

/-- A pixel after a stopped DECODE is as it was, or as DECODE would have written it (R125). -/
theorem get?_landedPixels (d n : Nat) (new old : List (Nat × Pixel)) (k : Nat) :
    Memory.get? (landedPixels d n new old) k = Memory.get? old k ∨
      (∃ px, Memory.get? new k = some px ∧ Memory.get? (landedPixels d n new old) k = some px) := by
  unfold landedPixels
  induction n with
  | zero => exact .inl rfl
  | succ n ih =>
    rw [List.range_succ, List.foldl_append, List.foldl_cons, List.foldl_nil]
    rcases get?_landPixel d n new ((List.range n).foldl (fun m i => landPixel d i new m) old) k with h | h
    · rw [h]; exact ih
    · exact .inr h

/-- Landing pixels keeps the canonical form. -/
theorem wf_landedPixels (d n : Nat) (new : List (Nat × Pixel)) {old : List (Nat × Pixel)}
    (ho : Memory.wf old = true) : Memory.wf (landedPixels d n new old) = true := by
  unfold landedPixels
  induction n with
  | zero => exact ho
  | succ n ih =>
    rw [List.range_succ, List.foldl_append, List.foldl_cons, List.foldl_nil]
    unfold landPixel
    split
    · split
      · exact Memory.wf_set ih _ _
      · exact ih
    · exact ih

/-- Nothing but the first n cells lands. -/
theorem mem_landedPixels {d n : Nat} {new old : List (Nat × Pixel)} {e : Nat × Pixel}
    (h : e ∈ landedPixels d n new old) : e ∈ old ∨ e.1 < n := by
  unfold landedPixels at h
  induction n with
  | zero => exact .inl h
  | succ n ih =>
    rw [List.range_succ, List.foldl_append, List.foldl_cons, List.foldl_nil] at h
    have ih' : ∀ h, e ∈ old ∨ e.1 < n + 1 := fun h => (ih h).imp id (by omega)
    unfold landPixel at h
    split at h
    · split at h
      · rcases Memory.mem_set h with rfl | h
        · exact .inr (Nat.lt_succ_self n)
        · exact ih' h
      · exact ih' h
    · exact ih' h

end Sys2Proof.Machine
end

