-- ==== Sys2Proof/Tests/Slice0.lean ====
section
/-! SUPPORT. Tests of the model against spec/95_test_vectors.md, and a witness for every statement with hypotheses. -/

namespace Sys2Proof.Tests.Slice0

open Sys2Proof Sys2Proof.Machine

/-! ### Helpers: the vectors' streams and start states -/

/-- The state of a next outcome. -/
def stOf : Host.Outcome State Fault Refusal → State
  | .next t => t
  | .fault _ => State.reset
  | .refused _ => State.reset

/-- Whether an outcome is a next state. -/
def isNext : Host.Outcome State Fault Refusal → Bool
  | .next _ => true
  | .fault _ => false
  | .refused _ => false

theorem next_of_isNext {o : Host.Outcome State Fault Refusal} (h : isNext o = true) : o = .next (stOf o) := by
  cases o with
  | next t => rfl
  | fault e => cases h
  | refused e => cases h

/-- The STATUS word of a next outcome. -/
def statusOf (o : Host.Outcome State Fault Refusal) : Word :=
  (stOf o).status.word

/-- E1's info header (vector E1, IH1). -/
def infoE1 : List Byte :=
  [0x28, 0, 0, 0, 2, 0, 0, 0, 1, 0, 0, 0, 1, 0, 0x18, 0, 0, 0, 0, 0]
    ++ [8, 0, 0, 0, 0x23, 0x2E, 0, 0, 0x23, 0x2E, 0, 0, 0, 0, 0, 0, 0, 0, 0, 1]

/-- The 62-byte stream E1 (vector S2). -/
def streamE1 : List Byte :=
  [0x42, 0x4D, 0x3E, 0, 0, 0, 0, 0, 0, 0, 0x36, 0, 0, 0] ++ infoE1 ++ [0, 0, 0xFF, 0, 0xFF, 0, 0, 0]

/-- The 64-byte stream of DE14: two gap bytes after the headers. -/
def streamDE14 : List Byte :=
  [0x42, 0x4D, 0x40, 0, 0, 0, 0, 0, 0, 0, 0x38, 0, 0, 0] ++ infoE1 ++ [0xAA, 0xBB, 0, 0, 0xFF, 0, 0xFF, 0, 0, 0]

/-- The image of E1: (255,0,0), (0,255,0). -/
def imageE1 : List (Nat × Pixel) :=
  [(pixelCell 2 0 0, { red := 255, green := 0, blue := 0 }), (pixelCell 2 0 1, { red := 0, green := 255, blue := 0 })]

/-- E1's start state, with the answers the sink will give. -/
def encodeE1 (acks : List SinkAnswer) : State :=
  { State.reset with outReady := 1, imgW := 2, imgH := 1, imgPix := imageE1, acks := acks }

/-- DECODE's start state on a stream. -/
def decodeOf (bs : List Byte) : State :=
  { State.reset with inReady := 1, inLenLo := BitVec.ofNat 32 bs.length, inMem := Memory.ofBytes 0 bs }

/-- E1 with the bytes at an offset replaced (E1[a..] := x). -/
def e1With (a : Nat) (x : List Byte) : State :=
  decodeOf (streamE1.take a ++ x ++ streamE1.drop (a + x.length))

/-- An ENCODE start state of given dimensions and capacity. -/
def encodeDims (w h : Word) (cap : Nat) : State :=
  { State.reset with
    outReady := 1, imgW := w, imgH := h, params := { imgMaxPixels := cap, clrImportant := 0x01000000 } }

/-- A state with a header buffer. -/
def hbOf (bs : List Byte) : State :=
  { State.reset with hb := hbWrite State.reset.hb 0 bs }

/-- A state in which a command has been accepted. -/
def accepted (v : Word) (s : State) : State :=
  { s with
    status := { busy := true, done := false, ok := false, err := 0 }
    seq := some (Seq.start v)
    host := { s.host with polled := false } }

/-! ### Decoding: every row's word, bit by bit (R55, R56), and the illegal words of CM1 to CM5 -/

theorem test_decode_fhUnpack : decodeCmd 0b00000000000000000000000000000001 = .command .fhUnpack := by decide
theorem test_decode_fhPack : decodeCmd 0b00000000000000000000000000000010 = .command .fhPack := by decide
theorem test_decode_ihUnpack : decodeCmd 0b00000000000000000000000000000011 = .command .ihUnpack := by decide
theorem test_decode_ihPack : decodeCmd 0b00000000000000000000000000000100 = .command .ihPack := by decide
theorem test_decode_stride : decodeCmd 0b00000000000000000000000000000101 = .command .stride := by decide
theorem test_decode_encode : decodeCmd 0b00000000000000000000000000000110 = .command .encode := by decide
theorem test_decode_decode : decodeCmd 0b00000000000000000000000000000111 = .command .decode := by decide
theorem test_decode_illegal :
    decodeCmd 0x00000000 = .reservedOp ∧ decodeCmd 0x00000008 = .reservedOp ∧ decodeCmd 0x0000000F = .reservedOp ∧
      decodeCmd 0x00000010 = .zeroFieldSet ∧ decodeCmd 0x80000005 = .zeroFieldSet := by decide
theorem test_encode_words :
    encode .fhUnpack = 1 ∧ encode .fhPack = 2 ∧ encode .ihUnpack = 3 ∧ encode .ihPack = 4 ∧ encode .stride = 5 ∧
      encode .encode = 6 ∧ encode .decode = 7 := by decide

/-! ### WellFormed: one ill-formed term for each check, refused -/

theorem test_wf_zeroField : (CmdFields.mk 5 1).wellFormed = false := by decide
theorem test_wf_opZero : (CmdFields.mk 0 0).wellFormed = false := by decide
theorem test_wf_opEight : (CmdFields.mk 8 0).wellFormed = false := by decide
theorem test_wf_legal : (CmdFields.mk 7 0).wellFormed = true := by decide
theorem test_wf_busWidth : busAccessOk 8 2 = false := by decide
theorem test_wf_busAlignment : busAccessOk 9 4 = false := by decide
theorem test_wf_busRange : busAccessOk 256 4 = false ∧ busAccessOk 252 4 = true := by decide
theorem test_wf_inAddress :
    (HostAction.putIn (2 ^ 64) 0).wellFormed = false ∧ (HostAction.putIn (2 ^ 64 - 1) 0).wellFormed = true := by decide
theorem test_wf_pixelWidth : (HostAction.putPixel (2 ^ 32) 0 0 ⟨0, 0, 0⟩).wellFormed = false := by decide
theorem test_wf_pixelRow : (HostAction.putPixel 2 (2 ^ 32) 0 ⟨0, 0, 0⟩).wellFormed = false := by decide
theorem test_wf_pixelInRow :
    (HostAction.putPixel 2 0 2 ⟨0, 0, 0⟩).wellFormed = false ∧ (HostAction.putPixel 2 0 1 ⟨0, 0, 0⟩).wellFormed = true := by
  decide
theorem test_wf_pixelColumn : (HostAction.readPixel 0 (2 ^ 32)).wellFormed = false := by decide
theorem test_wf_labelTwice : hostProgramWellFormed [.label 1, .label 1] = false := by decide
theorem test_wf_labelMissing : hostProgramWellFormed [.label 1, .bnz 0 2] = false := by decide

/-! ### The commands, from the vectors -/

/-- FH1. -/
theorem test_fhUnpack_FH1 :
    (stOf (exec .fhUnpack (hbOf [0x42, 0x4D, 0x3E, 0, 0, 0, 0, 0, 0, 0, 0x36, 0, 0, 0]))).fh =
      { type := 0x4D42, size := 62, reserved := 0, offBits := 54 } := by decide

/-- FH2. -/
theorem test_fhUnpack_FH2 :
    (stOf (exec .fhUnpack (hbOf [0x4D, 0x42, 0xFF, 0xFF, 0xFF, 0xFF, 0x78, 0x56, 0x34, 0x12, 0, 0, 0, 0]))).fh =
      { type := 0x424D, size := 0xFFFFFFFF, reserved := 0x12345678, offBits := 0 } := by decide

/-- FH3, with HB[14..53] kept. -/
theorem test_fhPack_FH3 :
    (stOf (exec .fhPack { State.reset with
      hb := Vector.replicate 54 0x55
      fh := { type := 0x424D, size := 0xFFFFFFFF, reserved := 0x12345678, offBits := 0 } })).hb.toList =
      [0x4D, 0x42, 0xFF, 0xFF, 0xFF, 0xFF, 0x78, 0x56, 0x34, 0x12, 0, 0, 0, 0] ++ List.replicate 40 0x55 := by decide

/-- IH2. -/
theorem test_ihUnpack_IH2 :
    (stOf (exec .ihUnpack (hbOf (List.replicate 14 0 ++
      [0x0C, 0, 0, 0, 0xFF, 0xFF, 0xFF, 0xFF, 0, 0, 0, 0x80, 7, 0, 0x20, 0, 1, 0, 0, 0] ++
      [0, 0, 0, 0, 0xFF, 0xFF, 0xFF, 0xFF, 0, 0, 0, 0, 0, 1, 0, 0, 0, 0, 0, 0])))).ih =
      { size := 12, width := 0xFFFFFFFF, height := 0x80000000, planes := 7, bitCount := 32, compression := 1,
        sizeImage := 0, xPelsPerMeter := 0xFFFFFFFF, yPelsPerMeter := 0, clrUsed := 256, clrImportant := 0 } := by
  decide

/-- IH1's fields packed give E1's info header; HB[0..13] kept. -/
theorem test_ihPack_IH1 :
    (stOf (exec .ihPack { State.reset with
      hb := Vector.replicate 54 0x55
      ih := { size := 40, width := 2, height := 1, planes := 1, bitCount := 24, compression := 0, sizeImage := 8,
              xPelsPerMeter := 11811, yPelsPerMeter := 11811, clrUsed := 0, clrImportant := 0x01000000 } })).hb.toList =
      List.replicate 14 0x55 ++ infoE1 := by decide +kernel

/-- ST11. -/
theorem test_stride_ST11 :
    let t := stOf (exec .stride { State.reset with argW := 0xFFFFFFFF })
    t.strideHi = 3 ∧ t.strideLo = 0 ∧ t.padOut = 3 := by decide

/-- ST10. -/
theorem test_stride_ST10 :
    let t := stOf (exec .stride { State.reset with argW := 0x7FFFFFFF })
    t.strideHi = 1 ∧ t.strideLo = 0x80000000 ∧ t.padOut = 3 := by decide

/-- E1: the whole stream. -/
theorem test_encode_E1 : (stOf (exec .encode (encodeE1 (List.replicate 62 .accept)))).outBytes = streamE1 := by
  decide +kernel

/-- E13: the sink refuses byte 10. -/
theorem test_encode_E13 :
    let t := stOf (exec .encode (encodeE1 (List.replicate 10 .accept ++ [.fail])))
    t.status.word = 0x00000D02 ∧ t.outBytes = streamE1.take 10 ∧ t.outLen = 10 ∧ t.hb.toList = streamE1.take 54 := by
  decide +kernel

/-- DE14: pixels are read from bfOffBits. -/
theorem test_decode_DE14 :
    let t := stOf (exec .decode (decodeOf streamDE14))
    t.status.word = 6 ∧ t.imgW = 2 ∧ t.imgH = 1 ∧ t.imgPix = imageE1 := by decide +kernel

/-- DE18: height -1. -/
theorem test_decode_DE18 :
    let t := stOf (exec .decode (e1With 22 [0xFF, 0xFF, 0xFF, 0xFF]))
    t.status.word = 0x00000802 ∧ t.imgW = 0 ∧ t.imgH = 0 ∧ t.ih.height = 0xFFFFFFFF := by decide +kernel

/-! ### Acceptance, registers and steps -/

/-- CM5: not a STRIDE. -/
theorem test_step_CM5 :
    statusOf (step (State.reset.withFetchWord 32 0x80000005)) = 0x00000102 := by decide

/-- CM6. -/
theorem test_step_CM6 :
    let t := stOf (step (State.withFetchWord { State.reset with argW := 3 } 32 5))
    t.status.word = 6 ∧ t.strideLo = 12 ∧ t.padOut = 3 := by decide

/-- CM9: a reserved offset ignores a write and reads 0. -/
theorem test_bus_CM9 :
    (stOf (hostMove (.read 0x02C 4) (stOf (hostMove (.write 0x02C 4 0xFFFFFFFF) State.reset)))).host.seen =
      some (.word 0) := by decide

/-- IH5: a 16-bit register keeps bits 15:0. -/
theorem test_bus_IH5 :
    regRead .ihBitCount (stOf (hostMove (.write 0x060 4 0x00010018) State.reset)) = 0x18 := by decide

/-- P2's first window word, at 0x080. -/
theorem test_bus_window :
    (stOf (hostMove (.write 0x080 4 0x004E4D42) State.reset)).hb.toList.take 4 = [0x42, 0x4D, 0x4E, 0] := by decide

/-- R41: an image memory of one pixel takes the pixel of a 1 × 1 image, and no second one. -/
theorem test_host_capacity :
    let s : State := { State.reset with params := { imgMaxPixels := 1, clrImportant := 0 } }
    isNext (hostMove (.putPixel 1 0 0 ⟨1, 2, 3⟩) s) = true ∧
      hostMove (.putPixel 2 0 1 ⟨1, 2, 3⟩) s = .refused .noSuchPlace := ⟨rfl, rfl⟩

/-- R14, R51: the host does not read the image while ENCODE runs. -/
theorem test_host_readPixel_busy :
    hostMove (.readPixel 0 0) (accepted 6 (encodeE1 [])) = .refused .unitOwns := rfl

/-- R127: a pixel placed before IMG_W and IMG_H are written is the pixel ENCODE reads. -/
theorem test_host_placeFirst :
    let s := stOf (hostMove (.putPixel 2 1 0 ⟨1, 2, 3⟩) State.reset)
    ({ s with imgW := 2, imgH := 2 } : State).imgRead 1 0 = ⟨1, 2, 3⟩ := by decide

/-- R69: `poll` branches back while BUSY = 1. -/
theorem test_line_poll :
    (stOf (hostMove .line { accepted 5 State.reset with
      host := { prog := pollLines 9, pc := 3, temps := [(1, 1)], polled := false, seen := none } })).host.pc = 0 := by
  decide

/-! ### Witnesses: for every statement with hypotheses, a state and operands that meet them -/

theorem illegal_words :
    ∀ v ∈ [(0 : Word), 0x8, 0xF, 0x10, 0x80000005],
      v.extractLsb' 4 28 ≠ 0 ∨ v.extractLsb' 0 4 = 0 ∨ 8 ≤ (v.extractLsb' 0 4).toNat := by
  intro v h
  simp only [List.mem_cons, List.not_mem_nil, or_false] at h
  rcases h with rfl | rfl | rfl | rfl | rfl
  · exact .inr (.inl (by decide))
  · exact .inr (.inr (by decide))
  · exact .inr (.inr (by decide))
  · exact .inl (by decide)
  · exact .inl (by decide)

theorem witness_IllegalWordCompletes :
    ∀ v ∈ [(0 : Word), 0x8, 0xF, 0x10, 0x80000005],
      (accepted v State.reset).sched = [] ∧ (accepted v State.reset).seq = some (Seq.start v) ∧
        (v.extractLsb' 4 28 ≠ 0 ∨ v.extractLsb' 0 4 = 0 ∨ 8 ≤ (v.extractLsb' 0 4).toNat) :=
  fun v h => ⟨rfl, rfl, illegal_words v h⟩

theorem witness_StepRunsDecodedCommand :
    decodeCmd 5 = .command .stride ∧ (accepted 5 State.reset).seq = some (Seq.start 5) ∧
      (accepted 5 State.reset).sched = [] ∧
      (State.reset.sched = [] ∧ State.reset.seq = none) ∧
      ({ State.reset with sched := [.tick] } : State).sched = .tick :: [] ∧
      ({ State.reset with sched := [.host .reset, .unit] } : State).sched = .host .reset :: [.unit] ∧
      ({ accepted 5 State.reset with sched := [.unit, .tick] } : State).sched = .unit :: [.tick] := by decide

theorem witness_FetchedWordRunsNext : decodeTableWord 32 7 = some .decode := by decide

theorem witness_CmdWriteIssuesCommand :
    State.reset.status.busy = false ∧ (accepted 5 State.reset).status.busy = true := by decide

theorem witness_IdleUnitWaits :
    State.reset.sched = [] ∧ State.reset.seq = none ∧ State.reset.host.prog.length ≤ State.reset.host.pc := by decide

/-- The two open cases and the defined one, at a result register; and before the poll, at another. -/
theorem witness_RegisterReadsDefinedAfterPoll :
    ((stOf (exec .stride (accepted 5 State.reset))).status.busy = false ∧ Reg.inLenLo ≠ .status ∧
      regIsResult .inLenLo = false) ∧
    Reg.padOut ≠ .status ∧ (accepted 5 State.reset).status.busy = true ∧
      (regIsResult .padOut = true ∧ (stOf (exec .stride (accepted 5 State.reset))).host.polled = false) ∧
      (State.reset.status.busy = false ∧ State.reset.host.polled = true) := by decide

theorem witness_RegisterWritesKeepWidth :
    State.reset.status.busy = false ∧ Reg.ihPlanes ∈ [Reg.fhType, .ihPlanes, .ihBitCount] ∧
      Reg.outCtrl ∈ [Reg.inCtrl, .outCtrl] := by decide

theorem witness_RegisterWriteFrame :
    State.reset.status.busy = false ∧ Reg.hbw 13 ≠ .cmd ∧ Reg.hbw 12 ≠ .hbw 13 ∧
      (Reg.imgCtrl = .imgCtrl → Reg.argW ≠ .imgW ∧ Reg.argW ≠ .imgH) := by decide

theorem witness_ImgCtrlIsComputed :
    State.reset.status.busy = false ∧ (decodeOf streamE1).imgH = 0 ∧ (encodeE1 []).status.busy = false ∧
      1 ≤ (encodeE1 []).imgH.toNat := by decide

theorem witness_ReservedAndReadOnlyIgnoreWrites :
    ∀ off ∈ [0x02C, 0x03C, 0x07C, 0x0B8, 0x0FC],
      off ∈ [0x02C, 0x03C, 0x07C] ∨ (0x0B8 ≤ off ∧ off < 0x100 ∧ off % 4 = 0) := by decide

theorem witness_BusyWritesLost :
    (accepted 7 State.reset).status.busy = true ∧ ∀ off ∈ [0, 0x008, 0x0FC], off % 4 = 0 ∧ off < 256 := by decide

theorem witness_OddAccessRefused :
    ∀ p ∈ [(8, 2), (10, 4), (256, 4)], p.2 ≠ 4 ∨ p.1 % 4 ≠ 0 ∨ 256 ≤ p.1 := by decide

/-- Words 0 and 13: of the last word HB has two bytes only. -/
theorem witness_HeaderWindowWords :
    State.reset.status.busy = false ∧ (State.reset.hb.toList[4 * 13 + 1]?).isSome = true ∧
      (State.reset.hb.toList[4 * 13 + 2]?).isSome = false := by decide

theorem witness_HostPlacesBytesAndPixels :
    State.reset.status.busy = false ∧ State.reset.host.polled = true ∧ 2 ^ 64 - 1 < 2 ^ 64 ∧
      (46337 < 2 ^ 32 ∧ 30896 < 2 ^ 32 ∧ 27794 < 46337 ∧ 30896 * 46337 + 27794 < State.reset.params.imgMaxPixels) ∧
      (46337 : Word).toNat = 46337 := by
  decide

/-- The first column, cell, width and row that do not exist. -/
theorem witness_ImageMemoryCapacity :
    State.reset.status.busy = false ∧ State.reset.host.polled = true ∧ 2 ≤ 2 ∧
      State.reset.params.imgMaxPixels ≤ 0 * 2147483648 + 1431655747 ∧ 1431655747 < 2147483648 ∧ 2 ^ 32 ≤ 2 ^ 32 := by
  decide

/-- A state whose OUT holds two bytes. -/
def outTwo : State :=
  { State.reset with outHeld := false, out := [0x42, 0x4D] }

/-- Inside the image, at its two edges, an image that does not fit, and both ends of OUT. -/
theorem witness_HostReadsPixelsAndOut :
    ((encodeE1 []).status.busy = false ∧ (encodeE1 []).host.polled = true) ∧
    (0 < (encodeE1 []).imgH.toNat ∧ 1 < (encodeE1 []).imgW.toNat ∧
      (encodeE1 []).imgW.toNat * (encodeE1 []).imgH.toNat ≤ (encodeE1 []).params.imgMaxPixels) ∧
    ((encodeE1 []).imgH.toNat ≤ 1 ∧ (encodeE1 []).imgW.toNat ≤ 2) ∧
    (encodeDims 3 2 5).params.imgMaxPixels < (encodeDims 3 2 5).imgW.toNat * (encodeDims 3 2 5).imgH.toNat ∧
    (outTwo.outBytes[1]? = some 0x4D ∧ outTwo.outBytes.length ≤ 2) := by decide

theorem witness_OwnedMemoriesRefused :
    (accepted 6 State.reset).status.busy = true ∧
      (stOf (exec .stride (accepted 5 State.reset))).status.busy = false ∧
      (stOf (exec .stride (accepted 5 State.reset))).host.polled = false := by decide

theorem witness_FileHeaderInverse : (streamE1.take 14).length = 14 := by decide

theorem witness_InfoHeaderInverse : infoE1.length = 40 := by decide

theorem encodable_E1 (acks : List SinkAnswer) : (encodeE1 acks).Encodable :=
  ⟨rfl, show 2 ≤ 2 ^ 31 - 1 by decide, show 1 ≤ 2 ^ 31 - 1 by decide, show 2 * 1 ≤ 1431655747 by decide,
    show 1 * stride 2 + 54 ≤ 2 ^ 32 - 1 by decide⟩

theorem accepts_E1 : (encodeE1 (List.replicate 62 .accept)).accepts 62 := by
  unfold State.accepts
  decide +kernel

theorem accepts_E1_ten (a : SinkAnswer) : (encodeE1 (List.replicate 10 .accept ++ [a])).accepts 10 := by
  unfold State.accepts
  cases a <;> decide

theorem witness_EncodeCompletes :
    (encodeE1 (List.replicate 62 .accept)).Encodable ∧ (encodeE1 (List.replicate 62 .accept)).accepts 62 ∧
      (encodeE1 (List.replicate 62 .accept)).imgH.toNat * stride (encodeE1 (List.replicate 62 .accept)).imgW.toNat + 54
        = 62 :=
  ⟨encodable_E1 _, accepts_E1, by decide⟩

/-- E9: the largest file ENCODE accepts of a one-pixel-wide image passes every check. -/
theorem witness_Encodable_E9 : (encodeDims 1 1073741810 1073741810).Encodable :=
  ⟨rfl, show 1 ≤ 2 ^ 31 - 1 by decide, show 1073741810 ≤ 2 ^ 31 - 1 by decide,
    show 1 * 1073741810 ≤ 1073741810 by decide, show 1073741810 * stride 1 + 54 ≤ 2 ^ 32 - 1 by decide⟩

/-- Row 0 of E1: its last pixel, and both ends of its padding. -/
theorem witness_EncodedFileLayout :
    0 < (encodeE1 []).imgH.toNat ∧ 1 < (encodeE1 []).imgW.toNat ∧
      ∀ j ∈ [6, 7], 3 * (encodeE1 []).imgW.toNat ≤ j ∧ j < stride (encodeE1 []).imgW.toNat := by decide

/-- E12, E7, E15 and E10: each check fails in turn, those before it passed. -/
theorem witness_EncodeChecksInOrder :
    ({ encodeE1 [] with outReady := 0 } : State).outReady = 0 ∧
    ((encodeDims 0x80000000 1 1).outReady = 1 ∧ 2 ^ 31 - 1 < (encodeDims 0x80000000 1 1).imgW.toNat) ∧
    ((encodeDims 1 0x80000000 1).outReady = 1 ∧ 2 ^ 31 - 1 < (encodeDims 1 0x80000000 1).imgH.toNat) ∧
    ((encodeDims 3 2 5).outReady = 1 ∧ (encodeDims 3 2 5).imgW.toNat ≤ 2 ^ 31 - 1 ∧
      (encodeDims 3 2 5).imgH.toNat ≤ 2 ^ 31 - 1 ∧
      (encodeDims 3 2 5).params.imgMaxPixels < (encodeDims 3 2 5).imgW.toNat * (encodeDims 3 2 5).imgH.toNat) ∧
    ((encodeDims 1 1073741811 1073741811).outReady = 1 ∧
      (encodeDims 1 1073741811 1073741811).imgW.toNat * (encodeDims 1 1073741811 1073741811).imgH.toNat
        ≤ (encodeDims 1 1073741811 1073741811).params.imgMaxPixels ∧
      2 ^ 32 - 1 < (encodeDims 1 1073741811 1073741811).imgH.toNat
        * stride (encodeDims 1 1073741811 1073741811).imgW.toNat + 54) := by decide

/-- E13's state. -/
theorem witness_EncodeRefusedByte :
    let s := encodeE1 (List.replicate 10 .accept ++ [.fail])
    s.Encodable ∧ 10 < s.imgH.toNat * stride s.imgW.toNat + 54 ∧ s.accepts 10 ∧ s.answerAt 10 = .fail :=
  ⟨encodable_E1 _, by decide, accepts_E1_ten _, by decide⟩

theorem witness_SilentSinkIsStuck :
    let s := encodeE1 (List.replicate 10 .accept ++ [.never])
    s.Encodable ∧ 10 < s.imgH.toNat * stride s.imgW.toNat + 54 ∧ s.accepts 10 ∧ s.answerAt 10 = .never :=
  ⟨encodable_E1 _, by decide, accepts_E1_ten _, by decide⟩

theorem witness_EncodeAlwaysCompletes : ∀ a ∈ (encodeE1 [.accept, .fail]).acks, a ≠ .never := by decide

/-- E5 and E6's dimensions, the sink accepting 54 bytes. -/
theorem witness_EncodeEmptyImage :
    let s : State := { encodeDims 5 0 1 with acks := List.replicate 54 .accept }
    s.outReady = 1 ∧ s.imgW.toNat ≤ 2 ^ 31 - 1 ∧ s.imgH.toNat ≤ 2 ^ 31 - 1 ∧ (s.imgW = 0 ∨ s.imgH = 0) ∧
      ∀ j, j < 54 → s.answerAt j = .accept := by decide +kernel

/-- E12: an ENCODE that answers a next state. -/
theorem witness_OutLenCountsOut :
    exec .encode { encodeE1 [] with outReady := 0 } =
      .next (stOf (exec .encode { encodeE1 [] with outReady := 0 })) := rfl

/-- DE3, DE4 and a stream of exactly 54 bytes. -/
theorem witness_DecodeChecks_early :
    ({ decodeOf streamE1 with inReady := 0 } : State).inReady = 0 ∧
    ((decodeOf (streamE1.take 53)).inReady = 1 ∧ (decodeOf (streamE1.take 53)).inLen < 54) ∧
    ((decodeOf (streamE1.take 54)).inReady = 1 ∧ 54 ≤ (decodeOf (streamE1.take 54)).inLen) := by decide +kernel

/-- What the checks from step 3 on look at, in their order. -/
def headerFacts (s : State) : List Bool :=
  [s.inByte 0 == 0x42 && s.inByte 1 == 0x4D, (s.inField32 2).toNat == s.inLen,
    decide (54 ≤ s.fileOff) && decide (s.fileOff ≤ (s.inField32 2).toNat), s.inField16 28 == 24,
    decide (0 < s32 (s.inField32 18)) && decide (0 < s32 (s.inField32 22)),
    decide (s.fileOff + s.fileH * stride s.fileW ≤ s.inLen), decide (s.fileW * s.fileH ≤ s.params.imgMaxPixels)]

/-- DE7, DE8, DE11, DE12, DE15, DE17, DE18, DE13 and DE23: each check fails in turn, those before it passed. -/
theorem witness_DecodeChecksInOrder :
    (headerFacts (e1With 0 [0x4D, 0x42])).take 1 = [false] ∧
    (headerFacts (e1With 2 [0x3F])).take 2 = [true, false] ∧
    (headerFacts (e1With 10 [0x35])).take 3 = [true, true, false] ∧
    (headerFacts (e1With 10 [0x3F])).take 3 = [true, true, false] ∧
    (headerFacts (e1With 28 [0x20, 0])).take 4 = [true, true, true, false] ∧
    (headerFacts (e1With 18 [0])).take 5 = [true, true, true, true, false] ∧
    (headerFacts (e1With 22 [0xFF, 0xFF, 0xFF, 0xFF])).take 5 = [true, true, true, true, false] ∧
    (headerFacts (e1With 10 [0x3E])).take 6 = [true, true, true, true, true, false] ∧
    headerFacts { decodeOf streamE1 with params := { imgMaxPixels := 1, clrImportant := 0 } } =
      [true, true, true, true, true, true, false] := by decide +kernel

theorem decodable_E1 : (decodeOf streamE1).Decodable := by
  constructor <;> decide +kernel

theorem witness_DecodeLoadsImage : (decodeOf streamE1).Decodable ∧ (decodeOf streamDE14).Decodable :=
  ⟨decodable_E1, by constructor <;> decide +kernel⟩

/-- DE20: E1 and E1 with other padding bytes agree on the bytes DECODE reads. -/
theorem witness_DecodeIgnoresUnreadBytes :
    let s := decodeOf streamE1
    let s' : State := { s with inMem := (e1With 60 [0xAA, 0xBB]).inMem }
    s.Decodable ∧ (∀ a, a < 54 → s'.inByte a = s.inByte a) ∧
      (∀ k, k < s.fileH → ∀ j, j < 3 * s.fileW →
        s'.inByte (s.fileOff + k * stride s.fileW + j) = s.inByte (s.fileOff + k * stride s.fileW + j)) ∧
      s'.inByte 60 ≠ s.inByte 60 := by
  refine ⟨decodable_E1, ?_, ?_, ?_⟩ <;> decide +kernel

theorem witness_EncodeDecodeRoundTrip :
    let s := encodeE1 (List.replicate 62 .accept)
    s.Encodable ∧ 1 ≤ s.imgW.toNat ∧ 1 ≤ s.imgH.toNat ∧ s.accepts 62 :=
  ⟨encodable_E1 _, by decide, by decide, accepts_E1⟩

theorem witness_SequencerRefinesCommand :
    (accepted 7 (decodeOf streamE1)).seq = some (Seq.start 7) ∧ (accepted 0 State.reset).seq = some (Seq.start 0) := by
  decide

/-- A command of each kind of arm answers a next state. -/
theorem witness_CommandsCompleteWithStatus :
    exec .stride State.reset = .next (stOf (exec .stride State.reset)) ∧
      exec .decode (decodeOf streamE1) = .next (stOf (exec .decode (decodeOf streamE1))) ∧
      Instr.stride ≠ .encode ∧ Instr.stride ≠ .decode :=
  ⟨rfl, next_of_isNext (by decide +kernel), by decide, by decide⟩

theorem witness_CommandsWriteOnlyTheirResults :
    exec .fhPack State.reset = .next (stOf (exec .fhPack State.reset)) ∧
      Instr.fhPack ∉ [Instr.fhUnpack, .encode, .decode] ∧ Instr.stride ∉ [Instr.fhPack, .ihPack, .encode, .decode] :=
  ⟨rfl, by decide, by decide⟩

/-- E1 and E1 with another ARG_W and IN_LEN; and E1 with its first byte refused. -/
theorem witness_EncodeReadsOnlyItsOperands :
    let s := encodeE1 (List.replicate 10 .accept ++ [.fail])
    let s' : State := { s with argW := 7, inLenLo := 9 }
    s'.outReady = s.outReady ∧ s'.imgW = s.imgW ∧ s'.imgH = s.imgH ∧ s'.imgPix = s.imgPix ∧ s'.params = s.params ∧
      (∀ j, s'.answerAt j = s.answerAt j) ∧ exec .encode s = .next (stOf (exec .encode s)) ∧
      (stOf (exec .encode s)).outBytes ≠ [] ∧
      (stOf (exec .encode (encodeE1 [.fail]))).status.err = 13 ∧ (stOf (exec .encode (encodeE1 [.fail]))).outBytes = [] :=
  ⟨rfl, rfl, rfl, rfl, rfl, fun _ => rfl, next_of_isNext (by decide +kernel), by decide +kernel, by decide +kernel,
    by decide +kernel⟩

theorem witness_DecodeReadsOnlyItsOperands :
    let s := decodeOf streamE1
    let s' : State := { s with argW := 7, outReady := 1, imgW := 9 }
    s'.inReady = s.inReady ∧ s'.inLenLo = s.inLenLo ∧ s'.inLenHi = s.inLenHi ∧ (∀ a, s'.inByte a = s.inByte a) ∧
      s'.params = s.params :=
  ⟨rfl, rfl, rfl, fun _ => rfl, rfl⟩

theorem witness_ResetClearsRegisters : State.reset.seq = none := rfl

/-- E1 and a sink that falls silent at byte 10; E12, which fails its first check. -/
theorem witness_ResetDuringEncode :
    let s := accepted 6 (encodeE1 (List.replicate 10 .accept ++ [.never]))
    let u := accepted 6 { encodeE1 [] with outReady := 0 }
    s.seq = some (Seq.start 6) ∧ s.Encodable ∧ s.answerAt 10 ≠ .accept ∧
      u.seq = some (Seq.start 6) ∧ ¬ u.Encodable :=
  ⟨rfl, ⟨rfl, (encodable_E1 []).width, (encodable_E1 []).height, (encodable_E1 []).capacity, (encodable_E1 []).size⟩,
    by decide, rfl, fun h => absurd h.ready (by decide)⟩

theorem witness_ResetDuringDecode :
    let s := accepted 7 (decodeOf streamE1)
    s.seq = some (Seq.start 7) ∧ exec .decode s = .next (stOf (exec .decode s)) :=
  ⟨rfl, next_of_isNext (by decide +kernel)⟩

/-- A DECODE under way, about to read its first row: a state that meets the invariant. -/
def decodingE1 : State :=
  { accepted 7 (decodeOf streamE1) with
    imgW := 2, imgH := 1, fh := { type := 0x4D42, size := 62, reserved := 0, offBits := 54 }
    seq := some { word := 7, pos := .fetch, k := 0, c := 0, p := 54, row := [] } }

theorem inv_decodingE1 : decodingE1.Inv where
  statusLegal := by decide
  busyIffSeq := by decide
  busyUnpolled := by decide
  inWf := by decide +kernel
  inBound := by decide +kernel
  imgWf := by decide
  imgBound := by decide
  tempsWf := by decide
  capacity := by decide
  seqOk := by
    intro q h
    cases h
    unfold State.seqInBounds
    decide +kernel

/-- A command past its start, nothing scheduled and the unit's move scheduled. -/
theorem witness_StepRunsDecodedCommand_underWay :
    decodingE1.sched = [] ∧ ({ decodingE1 with sched := [.unit] } : State).sched = .unit :: [] ∧
      ∃ q, decodingE1.seq = some q ∧ q.pos ≠ .start :=
  ⟨rfl, rfl, _, rfl, by decide⟩

/-- A command of each kind: one the sequencer has begun, and a STRIDE at its start. -/
theorem witness_ResetMidCommand :
    (∃ q, decodingE1.seq = some q ∧ q.pos ≠ .start) ∧
      ((accepted 5 State.reset).seq = some (Seq.start 5) ∧ (Seq.start 5).word ≠ 6 ∧ (Seq.start 5).word ≠ 7) :=
  ⟨⟨_, rfl, by decide⟩, rfl, by decide, by decide⟩

/-- The same DECODE about to store its second pixel. -/
def storingE1 : State :=
  { decodingE1 with
    seq := some { word := 7, pos := .store, k := 0, c := 1, p := 54, row := [0, 0, 255, 0, 255, 0] } }

theorem inv_storingE1 : storingE1.Inv where
  statusLegal := by decide
  busyIffSeq := by decide
  busyUnpolled := by decide
  inWf := by decide +kernel
  inBound := by decide +kernel
  imgWf := by decide
  imgBound := by decide
  tempsWf := by decide
  capacity := by decide
  seqOk := by
    intro q h
    cases h
    unfold State.seqInBounds
    decide +kernel

theorem witness_StepKeepsInvariant :
    decodingE1.Inv ∧ storingE1.Inv ∧ step decodingE1 = .next (stOf (step decodingE1)) :=
  ⟨inv_decodingE1, inv_storingE1, next_of_isNext (by decide +kernel)⟩

/-- E1's DECODE about to read its row, beside a state that differs
in a byte at IN_LEN and in a cell past the image; and the same DECODE about to store. -/
theorem witness_SequencerStaysInside :
    (decodingE1.Inv ∧
      let s' : State := { decodingE1 with inMem := Memory.ofBytes 0 (streamE1 ++ [7]), imgPix := [(2, ⟨1, 2, 3⟩)] }
      (∀ a, a < decodingE1.inLen → s'.inByte a = decodingE1.inByte a) ∧
      (∀ r c, r < decodingE1.imgH.toNat → c < decodingE1.imgW.toNat → s'.imgRead r c = decodingE1.imgRead r c)) ∧
    storingE1.Inv ∧ tick storingE1 = .next (stOf (tick storingE1)) ∧
    tick decodingE1 = .next (stOf (tick decodingE1)) := by
  refine ⟨⟨inv_decodingE1, fun a h => ?_, fun r c hr hc => ?_⟩, inv_storingE1, next_of_isNext (by decide),
    next_of_isNext (by decide)⟩
  · have : decodingE1.inLen = 62 := by decide
    rw [this] at h
    revert a
    decide +kernel
  · have h1 : r = 0 := by
      have : decodingE1.imgH.toNat = 1 := by decide
      omega
    have h2 : c = 0 ∨ c = 1 := by
      have : decodingE1.imgW.toNat = 2 := by decide
      omega
    subst h1
    rcases h2 with rfl | rfl <;> rfl

/-- ST5's STRIDE changes the results, and so does a scheduled reset after it. -/
theorem witness_OnlyStrideWritesItsResults :
    let s := accepted 5 { State.reset with argW := 5 }
    let r : State := { State.reset with strideLo := 16, sched := [.host .reset] }
    step s = .next (stOf (step s)) ∧ (stOf (step s)).strideLo ≠ s.strideLo ∧
      step r = .next (stOf (step r)) ∧ (stOf (step r)).strideLo ≠ r.strideLo :=
  ⟨next_of_isNext (by decide), by decide, next_of_isNext (by decide), by decide⟩

theorem witness_ParametersAreFixed : step State.reset = .next (stOf (step State.reset)) := rfl

/-- R68: a branch goes to the label's line; no line marks label 4. -/
theorem test_labelIndex : labelIndex [.wr .argW 5, .label 3] 3 = some 1 ∧ labelIndex [.label 3] 4 = none := by decide

/-- One line of each kind, and the end of a program. -/
theorem witness_HostProgramLines :
    let p : List HostLine := [.wr .argW 5, .rd .status 0, .andi 1 0 1, .bnz 1 3, .label 3]
    let h : HostAgent := { prog := p, pc := 3, temps := [(0, 0), (1, 1)], polled := true, seen := none }
    h.temp 0 = 0 ∧ h.temp 1 ≠ 0 ∧ labelIndex p 4 = none ∧
      p[0]? = some (.wr .argW 5) ∧ p[1]? = some (.rd .status 0) ∧ p[2]? = some (.andi 1 0 1) ∧ p[3]? = some (.bnz 1 3) ∧
      labelIndex p 3 = some 4 ∧ p[4]? = some (.label 3) ∧ p[5]? = none := by decide

end Sys2Proof.Tests.Slice0
end

/-! PROOF. The statements about the scope of the model: which move a step makes, that no step touches a parameter, what
the host may not reach while the unit owns it, and what ENCODE and DECODE depend on. -/

namespace Sys2Proof.Machine

/-! ### Which move a step makes (R14; logs 1 and 2) -/

theorem step_scheduled {s : State} {m : Move} {ms : List Move} (h : s.sched = m :: ms) :
    step s = runMove m { s with sched := ms } := by
  unfold step; rw [h]

theorem step_unscheduled {s : State} (h : s.sched = []) : step s = runMove (defaultMove s) s := by
  unfold step; rw [h]

theorem defaultMove_underWay {s : State} {q : Seq} (h : s.seq = some q) : defaultMove s = .unit := by
  unfold defaultMove; rw [h]

theorem defaultMove_idle {s : State} (h : s.seq = none) : defaultMove s = .host .line := by
  unfold defaultMove; rw [h]

/-- The unit runs the command of a legal word that stands at its start whole (R34, R57). -/
theorem unitMove_start {s : State} {v : Word} {i : Instr} (hq : s.seq = some (Seq.start v))
    (hv : decodeCmd v = .command i) : unitMove s = exec i s := by
  simp only [unitMove, hq, Seq.start, runWord, hv]

/-- Past its start a command goes on by one access of the sequencer (R34, R51). -/
theorem unitMove_pastStart {s : State} {q : Seq} (hq : s.seq = some q) (hp : q.pos ≠ .start) :
    unitMove s = tick s := by
  simp only [unitMove, hq]
  cases h : q.pos with
  | start => exact absurd h hp
  | offer => rfl
  | gather => rfl
  | fetch => rfl
  | store => rfl

/-- Settles O5: a step is the scheduled or the default move, and the unit's move is read off where the sequencer
stands. -/
theorem stepRunsDecodedCommand : Obligations.StepRunsDecodedCommand := by
  refine ⟨fun s v i hv hq => ⟨fun hs => ?_, fun ms hs => ?_⟩, fun s q hq hp => ⟨fun hs => ?_, fun ms hs => ?_⟩,
    fun s ms hs => step_scheduled hs, fun s a ms hs => step_scheduled hs, fun s hs hq => ?_⟩
  · rw [step_unscheduled hs, defaultMove_underWay hq]
    exact unitMove_start hq hv
  · rw [step_scheduled hs]
    exact unitMove_start (s := { s with sched := ms }) hq hv
  · rw [step_unscheduled hs, defaultMove_underWay hq]
    exact unitMove_pastStart hq hp
  · rw [step_scheduled hs]
    exact unitMove_pastStart (s := { s with sched := ms }) hq hp
  · rw [step_unscheduled hs, defaultMove_idle hq]
    rfl

/-! ### Ownership of IN and IMG_PIX (R128; log 10) -/

theorem State.unitOwns_iff (s : State) :
    s.unitOwns = true ↔ s.status.busy = true ∨ s.host.polled = false := by
  simp [State.unitOwns]

/-- Settles O20: the three moves look at the unit's ownership first. -/
theorem ownedMemoriesRefused : Obligations.OwnedMemoriesRefused := by
  intro s h
  have owned : s.unitOwns = true := s.unitOwns_iff.2 h
  exact ⟨fun a b => if_pos owned, fun w r c px => if_pos owned, fun r c => if_pos owned⟩

/-! ### No step touches a parameter (R7) -/

/-- A next state this outcome answers has the parameters p; a fault or a refusal answers none. -/
def KeepsParams (p : Params) (o : Host.Outcome State Fault Refusal) : Prop :=
  ∀ t, o = .next t → t.params = p

theorem keepsParams_next {p : Params} {t : State} (h : t.params = p) : KeepsParams p (.next t) := by
  intro u hu; cases hu; exact h

theorem keepsParams_fault (p : Params) (e : Fault) : KeepsParams p (.fault e) := by
  intro u hu; cases hu

theorem keepsParams_refused (p : Params) (e : Refusal) : KeepsParams p (.refused e) := by
  intro u hu; cases hu

theorem keepsParams_ite {p : Params} {c : Prop} [Decidable c] {o o' : Host.Outcome State Fault Refusal}
    (h : KeepsParams p o) (h' : KeepsParams p o') : KeepsParams p (if c then o else o') := by
  split
  · exact h
  · exact h'

/-- Completion writes STATUS and the sequencer only (R18). -/
theorem CmdEnd.keepsParams_finish {p : Params} {r : CmdEnd} (h : r.st.params = p) : KeepsParams p r.finish := by
  intro t ht
  obtain ⟨_, rfl⟩ | ⟨e, _, rfl⟩ := CmdEnd.finish_next ht
  · exact h
  · exact h

theorem encodePrepare_params (s : State) : (encodePrepare s).st.params = s.params := by
  unfold encodePrepare
  split <;> rfl

theorem encodeBody_params (s : State) : (encodeBody s).st.params = s.params := by
  obtain ⟨e, _, h⟩ | ⟨_, h⟩ | ⟨n, _, _, h⟩ | ⟨n, _, _, _, h⟩ := encodeBody_cases s <;> simp [h]

theorem decodePrepare_params (s : State) : (decodePrepare s).st.params = s.params := by
  obtain ⟨_, h⟩ | ⟨_, _, h⟩ | ⟨_, _, e, _, h⟩ | ⟨_, _, _, h⟩ := decodePrepare_cases s <;> simp [h, decodeFail]

theorem decodeBody_params (s : State) : (decodeBody s).st.params = s.params := by
  have h := decodePrepare_params s
  unfold decodeBody
  split
  · rename_i ht; rw [ht] at h; exact h
  · exact h

theorem keepsParams_exec (i : Instr) (s : State) : KeepsParams s.params (exec i s) := by
  cases i with
  | encode => exact CmdEnd.keepsParams_finish (encodeBody_params s)
  | decode => exact CmdEnd.keepsParams_finish (r := (decodeBody s).spendInDraw) (decodeBody_params s)
  | fhUnpack => exact keepsParams_next rfl
  | fhPack => exact keepsParams_next rfl
  | ihUnpack => exact keepsParams_next rfl
  | ihPack => exact keepsParams_next rfl
  | stride => exact keepsParams_next rfl

theorem keepsParams_tickStart (q : Seq) (s : State) : KeepsParams s.params (tickStart q s) := by
  have he := encodePrepare_params s
  have hd := decodePrepare_params s
  unfold tickStart
  split
  · split
    · rename_i ht; rw [ht] at he; exact keepsParams_next he
    · exact CmdEnd.keepsParams_finish he
  · split
    · rename_i ht; rw [ht] at hd; exact keepsParams_next hd
    · exact CmdEnd.keepsParams_finish hd
  · exact keepsParams_exec _ s
  · exact keepsParams_next rfl
  · exact keepsParams_next rfl

theorem keepsParams_tickOffer (q : Seq) (s : State) : KeepsParams s.params (tickOffer q s) := by
  unfold tickOffer
  split
  · split
    · exact keepsParams_next (by simp)
    · exact keepsParams_next (by simp)
    · exact keepsParams_fault _ _
  · exact keepsParams_ite (keepsParams_next rfl) (keepsParams_next rfl)

theorem keepsParams_tickGather (q : Seq) (s : State) : KeepsParams s.params (tickGather q s) :=
  keepsParams_ite (keepsParams_next rfl) (keepsParams_next rfl)

theorem keepsParams_tickFetch (q : Seq) (s : State) : KeepsParams s.params (tickFetch q s) :=
  keepsParams_ite (keepsParams_next rfl) (CmdEnd.keepsParams_finish rfl)

theorem keepsParams_tickStore (q : Seq) (s : State) : KeepsParams s.params (tickStore q s) :=
  keepsParams_ite (keepsParams_next rfl) (keepsParams_next rfl)

theorem keepsParams_tick (s : State) : KeepsParams s.params (tick s) := by
  unfold tick
  split
  · exact keepsParams_next rfl
  · split
    · exact keepsParams_tickStart _ s
    · exact keepsParams_tickOffer _ s
    · exact keepsParams_tickGather _ s
    · exact keepsParams_tickFetch _ s
    · exact keepsParams_tickStore _ s

theorem keepsParams_runWord (v : Word) (s : State) : KeepsParams s.params (runWord v s) := by
  unfold runWord
  split
  · exact keepsParams_exec _ s
  · exact keepsParams_next rfl
  · exact keepsParams_next rfl

theorem keepsParams_unitMove (s : State) : KeepsParams s.params (unitMove s) := by
  unfold unitMove
  split
  · exact keepsParams_next rfl
  · split
    · exact keepsParams_runWord _ s
    all_goals exact keepsParams_tick s

theorem busReadState_params (off : Nat) (s : State) : (busReadState off s).params = s.params := by
  obtain h | h | ⟨_, h⟩ := busReadState_cases off s <;> rw [h]

theorem keepsParams_busRead (off bytes : Nat) (s : State) : KeepsParams s.params (busRead off bytes s) :=
  keepsParams_ite (keepsParams_next (busReadState_params off s)) (keepsParams_refused _ _)

theorem keepsParams_busWrite (off bytes : Nat) (v : Word) (s : State) :
    KeepsParams s.params (busWrite off bytes v s) := by
  refine keepsParams_ite (keepsParams_ite (keepsParams_next rfl) ?_) (keepsParams_refused _ _)
  split
  · exact keepsParams_next rfl
  · exact keepsParams_next (regWrite_params _ v s)

theorem keepsParams_hostLine (s : State) : KeepsParams s.params (hostLine s) := by
  unfold hostLine
  split
  · exact keepsParams_next rfl
  · exact keepsParams_busWrite _ _ _ (s.atLine (s.host.pc + 1))
  · split
    · rename_i u hu
      exact keepsParams_next (keepsParams_busRead _ _ (s.atLine (s.host.pc + 1)) u hu)
    · exact keepsParams_fault _ _
    · exact keepsParams_refused _ _
  · exact keepsParams_next rfl
  · split
    · exact keepsParams_next rfl
    · split
      · exact keepsParams_next rfl
      · exact keepsParams_refused _ _
  · exact keepsParams_next rfl

theorem abortEffects_params (v : Word) (s : State) : (s.abortEffects v).params = s.params := by
  unfold State.abortEffects
  split
  · rfl
  · split
    · rfl
    · rfl
  · rfl

theorem applyReset_params (s : State) : s.applyReset.params = s.params := by
  unfold State.applyReset
  split
  · rfl
  · split
    · exact abortEffects_params _ s
    all_goals rfl

theorem keepsParams_hostMove (a : HostAction) (s : State) : KeepsParams s.params (hostMove a s) := by
  cases a with
  | write off bytes v => exact keepsParams_busWrite off bytes v s
  | read off bytes => exact keepsParams_busRead off bytes s
  | line => exact keepsParams_hostLine s
  | answer a => exact keepsParams_next rfl
  | reset => exact keepsParams_next (applyReset_params s)
  | readOut p =>
    simp only [hostMove]
    split
    · exact keepsParams_next rfl
    · exact keepsParams_refused _ _
  | putIn | putPixel | readPixel =>
    exact keepsParams_ite (keepsParams_refused _ _)
      (keepsParams_ite (keepsParams_next rfl) (keepsParams_refused _ _))

theorem keepsParams_runMove (m : Move) (s : State) : KeepsParams s.params (runMove m s) := by
  cases m with
  | unit => exact keepsParams_unitMove s
  | tick => exact keepsParams_tick s
  | host a => exact keepsParams_hostMove a s

/-- Settles O55: every move of either agent keeps the parameters, so every step does. -/
theorem parametersAreFixed : Obligations.ParametersAreFixed := by
  intro s t ht
  cases hs : s.sched with
  | nil => exact keepsParams_runMove _ s t (step_unscheduled hs ▸ ht)
  | cons m ms => exact keepsParams_runMove m { s with sched := ms } t (step_scheduled hs ▸ ht)

/-! ### How an operation's end becomes an outcome -/

theorem CmdEnd.finish_of_ok {r : CmdEnd} (h : r.ending = .ok) : r.finish = .next r.st.finishOk := by
  unfold CmdEnd.finish; rw [h]

theorem CmdEnd.finish_of_fail {r : CmdEnd} {e : ErrCode} (h : r.ending = .fail e) :
    r.finish = .next (r.st.raiseFail e) := by
  unfold CmdEnd.finish; rw [h]

/-! ### ENCODE ends when the host answers (R134, R135) -/

/-- A host that has prepared no silence never falls silent: beyond the prepared answers a draw accepts or fails
(log 4). -/
theorem State.answerAt_ne_never {s : State} (h : ∀ a ∈ s.acks, a ≠ .never) (j : Nat) : s.answerAt j ≠ .never := by
  unfold State.answerAt
  split
  · rename_i hj; exact h _ (List.mem_of_getElem? hj)
  · unfold drawnAnswer; split <;> decide

theorem encodeBody_ne_stuck {s : State} (h : ∀ j, s.answerAt j ≠ .never) : (encodeBody s).ending ≠ .stuck := by
  obtain ⟨e, _, hb⟩ | ⟨_, hb⟩ | ⟨n, _, _, hb⟩ | ⟨n, _, _, hn, _⟩ := encodeBody_cases s
  · simp [hb]
  · simp [hb]
  · simp [hb]
  · exact absurd hn (h n)

/-- An operation that ends has completed: no command is under way, BUSY = 0 and DONE = 1 (R18). -/
theorem CmdEnd.finish_completes {r : CmdEnd} (h : r.ending ≠ .stuck) :
    ∃ t, r.finish = .next t ∧ t.seq = none ∧ t.status.busy = false ∧ t.status.done = true := by
  cases he : r.ending with
  | ok => exact ⟨_, CmdEnd.finish_of_ok he, rfl, rfl, rfl⟩
  | fail e => exact ⟨_, CmdEnd.finish_of_fail he, rfl, rfl, rfl⟩
  | stuck => exact absurd he h

/-- Settles O34: an answer is appended in any state, and only a silent answer could leave ENCODE without an end. -/
theorem encodeAlwaysCompletes : Obligations.EncodeAlwaysCompletes :=
  ⟨fun _ _ => rfl, fun _ h => CmdEnd.finish_completes (encodeBody_ne_stuck (State.answerAt_ne_never h))⟩

/-! ### What ENCODE depends on (R14, R60) -/

/-- Two states that a write to the sink cannot tell apart, with the same headers: the same answers to come, the same
OUT and OUT_LEN, FH_*, IH_* and HB. -/
structure State.SameOffer (s' s : State) : Prop where
  answers : ∀ j, s'.answerAt j = s.answerAt j
  outBytes : s'.outBytes = s.outBytes
  outLen : s'.outLen = s.outLen
  fh : s'.fh = s.fh
  ih : s'.ih = s.ih
  hb : s'.hb = s.hb

theorem State.outBytes_sinkTook (s : State) (bs : List Byte) : (s.sinkTook bs).outBytes = s.outBytes ++ bs :=
  (List.append_assoc _ _ _).symm

theorem State.outBytes_answered (s : State) : s.answered.outBytes = s.outBytes := by
  simp [State.outBytes]

theorem State.SameOffer.sinkTook {s' s : State} (h : s'.SameOffer s) (bs : List Byte) :
    (s'.sinkTook bs).SameOffer (s.sinkTook bs) where
  answers j := by simp [h.answers]
  outBytes := by simp [State.outBytes_sinkTook, h.outBytes]
  outLen := by simp [h.outLen]
  fh := h.fh
  ih := h.ih
  hb := h.hb

theorem State.SameOffer.answered {s' s : State} (h : s'.SameOffer s) : s'.answered.SameOffer s.answered where
  answers j := by simp [State.answerAt_answered, h.answers]
  outBytes := by simp [State.outBytes_answered, h.outBytes]
  outLen := by simp [h.outLen]
  fh := by simp [h.fh]
  ih := by simp [h.ih]
  hb := by simp [h.hb]

/-- The same bytes offered to the same answers come to the same end. -/
theorem State.SameOffer.memWrite (v : List Byte) {s' s : State} (h : s'.SameOffer s) :
    (memWrite v s').ending = (memWrite v s).ending ∧ (memWrite v s').st.SameOffer (memWrite v s).st := by
  induction v generalizing s' s with
  | nil => exact ⟨rfl, h⟩
  | cons b bs ih =>
    rw [memWrite_cons, memWrite_cons, h.answers 0]
    cases s.answerAt 0 with
    | accept => exact ih (h.sinkTook [b])
    | fail => exact ⟨rfl, h.answered⟩
    | never => exact ⟨rfl, h⟩

/-- Completion writes nothing of the offer's (R18, R34). -/
theorem State.SameOffer.complete {s' s : State} (h : s'.SameOffer s) (ok : Bool) (code : BitVec 4) :
    (s'.complete ok code).SameOffer (s.complete ok code) where
  answers := h.answers
  outBytes := h.outBytes
  outLen := h.outLen
  fh := h.fh
  ih := h.ih
  hb := h.hb

/-- Two operations that end alike complete with the same STATUS. -/
theorem CmdEnd.finish_sameOffer {r' r : CmdEnd} {t : State} (hend : r'.ending = r.ending)
    (hst : r'.st.SameOffer r.st) (ht : r.finish = .next t) :
    ∃ t', r'.finish = .next t' ∧ t'.status = t.status ∧ t'.SameOffer t := by
  obtain ⟨hok, rfl⟩ | ⟨e, hfail, rfl⟩ := CmdEnd.finish_next ht
  · exact ⟨_, CmdEnd.finish_of_ok (hend.trans hok), rfl, hst.complete _ _⟩
  · exact ⟨_, CmdEnd.finish_of_fail (hend.trans hfail), rfl, hst.complete _ _⟩

/-- A refused byte is no check: ENCODE's checks never give ERR_WRITE (R84, R85). -/
theorem encodeCheck_ne_write (s : State) : encodeCheck s ≠ some .write := by
  unfold encodeCheck
  split_ifs <;> decide

theorem ErrCode.eq_write_of_code {e : ErrCode} (h : e.code = 13) : e = .write := by
  revert h; cases e <;> decide

/-- Two states alike in the operands of ENCODE's row of R60 and in the sink's answers. -/
structure State.SameEncodeOperands (s' s : State) : Prop where
  outReady : s'.outReady = s.outReady
  imgW : s'.imgW = s.imgW
  imgH : s'.imgH = s.imgH
  imgPix : s'.imgPix = s.imgPix
  params : s'.params = s.params
  answers : ∀ j, s'.answerAt j = s.answerAt j

section
variable {s' s : State} (h : s'.SameEncodeOperands s)
include h

theorem State.SameEncodeOperands.encodeCheck : encodeCheck s' = encodeCheck s := by
  simp only [Machine.encodeCheck, h.outReady, h.imgW, h.imgH, h.params]

theorem State.SameEncodeOperands.rowBytes (w r : Nat) : rowBytes s' w r = rowBytes s w r := by
  simp only [Machine.rowBytes, State.imgRead, State.imgCell, h.imgW, h.imgPix]

theorem State.SameEncodeOperands.offeredFile : offeredFile s' = offeredFile s := by
  simp only [Machine.offeredFile, rowsBytes_eq, h.rowBytes, h.imgW, h.imgH, h.params]

/-- The headers built are functions of the operands: HB is replaced whole (R92). -/
theorem State.SameEncodeOperands.built : s'.startSink.buildHeaders.SameOffer s.startSink.buildHeaders where
  answers := h.answers
  outBytes := rfl
  outLen := rfl
  fh := by
    show builtFileHeader _ = builtFileHeader _
    simp [h.imgW, h.imgH]
  ih := by
    show builtInfoHeader _ _ _ = builtInfoHeader _ _ _
    simp [h.imgW, h.imgH, h.params]
  hb := by
    apply Vector.toList_inj.1
    rw [toList_hb_buildHeaders, toList_hb_buildHeaders]
    simp [h.imgW, h.imgH, h.params]

end

/-- Settles O46: the checks agree, and after them one file is offered to one sequence of answers. -/
theorem encodeReadsOnlyItsOperands : Obligations.EncodeReadsOnlyItsOperands := by
  intro s s' hr hw hh hpix hpar hans t ht
  have same : s'.SameEncodeOperands s := ⟨hr, hw, hh, hpix, hpar, hans⟩
  change (encodeBody s).finish = .next t at ht
  show ∃ t', (encodeBody s').finish = .next t' ∧ _
  cases hc : encodeCheck s with
  | some e =>
    rw [encodeBody_check hc, CmdEnd.finish_fail] at ht
    cases ht
    rw [encodeBody_check (same.encodeCheck.trans hc), CmdEnd.finish_fail]
    refine ⟨_, rfl, rfl, rfl, rfl, fun hoff => ?_⟩
    obtain hout | herr := hoff
    · exact absurd rfl hout
    · exact absurd (hc.trans (congrArg some (ErrCode.eq_write_of_code herr))) (encodeCheck_ne_write s)
  | none =>
    rw [encodeBody_write hc] at ht
    rw [encodeBody_write (same.encodeCheck.trans hc), same.offeredFile]
    obtain ⟨hend, hst⟩ := same.built.memWrite (offeredFile s)
    obtain ⟨t', ht', hstatus, hoffer⟩ := CmdEnd.finish_sameOffer hend hst ht
    exact ⟨t', ht', hstatus, hoffer.outBytes, hoffer.outLen, fun _ => ⟨hoffer.fh, hoffer.ih, hoffer.hb⟩⟩

/-! ### What DECODE depends on (R14, R60) -/

/-- DECODE's state at its first pixel: the headers are read, and IMG_W and IMG_H are the file's (R94 step 9). -/
def State.decodeReady (s : State) : State :=
  { s.loadHeaders with imgW := s.loadHeaders.ih.width, imgH := s.loadHeaders.ih.height }

/-- The same state with the file's pixels in the image memory (R94 step 10). -/
def State.decodeDone (s : State) : State :=
  { s.decodeReady with
    imgPix := decodeRows s.decodeReady s.loadHeaders.ih.width.toNat s.loadHeaders.ih.height.toNat
      s.loadHeaders.fh.offBits.toNat s.imgPix }

/-- The verdict of steps 3 to 8b on the headers in IN (R97 to R104). -/
def State.headerVerdict (s : State) : Option ErrCode :=
  decodeCheck s.loadHeaders.fh s.loadHeaders.ih s.inLen s.params.imgMaxPixels

theorem decodeBody_notReady {s : State} (h : s.inReady = 0) : decodeBody s = decodeFail .ioIn s := by
  simp only [decodeBody, decodePrepare, if_pos h, decodeFail]

theorem decodeBody_short {s : State} (hr : s.inReady ≠ 0) (hl : s.inLen < 54) :
    decodeBody s = decodeFail .short s := by
  simp only [decodeBody, decodePrepare, if_neg hr, if_pos hl, decodeFail]

theorem decodeBody_rejected {s : State} {e : ErrCode} (hr : s.inReady ≠ 0) (hl : ¬ s.inLen < 54)
    (hc : s.headerVerdict = some e) : decodeBody s = decodeFail e s.loadHeaders := by
  unfold State.headerVerdict at hc
  simp only [decodeBody, decodePrepare, if_neg hr, if_neg hl, State.loadHeaders_params, hc, decodeFail]

theorem decodeBody_loaded {s : State} (hr : s.inReady ≠ 0) (hl : ¬ s.inLen < 54) (hc : s.headerVerdict = none) :
    decodeBody s = { ending := .ok, st := s.decodeDone } := by
  unfold State.headerVerdict at hc
  simp only [decodeBody, decodePrepare, if_neg hr, if_neg hl, State.loadHeaders_params, hc]
  rfl

/-- DECODE's pixel at row r, column c is read from its row of the file (R106). -/
theorem State.imgRead_decodeDone (s : State) {r c : Nat} (hr : r < s.loadHeaders.ih.height.toNat)
    (hc : c < s.loadHeaders.ih.width.toNat) :
    s.decodeDone.imgRead r c =
      pixelOf (s.memRead (s.loadHeaders.fh.offBits.toNat
          + (s.loadHeaders.ih.height.toNat - 1 - r) * stride s.loadHeaders.ih.width.toNat)
        (3 * s.loadHeaders.ih.width.toNat)) c :=
  congrArg (Option.getD · _) (get?_decodeRows s.decodeReady _ _ _ s.imgPix hr hc)

/-- Two states alike in the operands of DECODE's row of R60. -/
structure State.SameDecodeOperands (s' s : State) : Prop where
  inReady : s'.inReady = s.inReady
  inLenLo : s'.inLenLo = s.inLenLo
  inLenHi : s'.inLenHi = s.inLenHi
  inByte : ∀ a, s'.inByte a = s.inByte a
  params : s'.params = s.params

section
variable {s' s : State} (h : s'.SameDecodeOperands s)
include h

theorem State.SameDecodeOperands.inLen : s'.inLen = s.inLen := by
  unfold State.inLen; rw [h.inLenLo, h.inLenHi]

theorem State.SameDecodeOperands.memRead (a n : Nat) : s'.memRead a n = s.memRead a n :=
  memRead_congr fun _ _ => h.inByte _

theorem State.SameDecodeOperands.fh : s'.loadHeaders.fh = s.loadHeaders.fh := by
  rw [loadHeaders_fh, loadHeaders_fh, h.memRead]

theorem State.SameDecodeOperands.ih : s'.loadHeaders.ih = s.loadHeaders.ih := by
  rw [loadHeaders_ih, loadHeaders_ih, h.memRead]

theorem State.SameDecodeOperands.hb : s'.loadHeaders.hb = s.loadHeaders.hb := by
  apply Vector.toList_inj.1
  rw [toList_hb_loadHeaders, toList_hb_loadHeaders, h.memRead]

theorem State.SameDecodeOperands.headerVerdict : s'.headerVerdict = s.headerVerdict := by
  unfold State.headerVerdict; rw [h.fh, h.ih, h.inLen, h.params]

theorem State.SameDecodeOperands.imgRead_decodeDone {r c : Nat} (hr : r < s.loadHeaders.ih.height.toNat)
    (hc : c < s.loadHeaders.ih.width.toNat) : s'.decodeDone.imgRead r c = s.decodeDone.imgRead r c := by
  refine (s'.imgRead_decodeDone (by rwa [h.ih]) (by rwa [h.ih])).trans (Eq.trans ?_ (s.imgRead_decodeDone hr hc).symm)
  rw [h.fh, h.ih, h.memRead]

end

/-- Settles O47: both states end at the same check, or both load the same file. A failed DECODE leaves an image of no
pixels (R110). -/
theorem decodeReadsOnlyItsOperands : Obligations.DecodeReadsOnlyItsOperands := by
  intro s s' hready hlo hhi hin hpar
  have same : s'.SameDecodeOperands s := ⟨hready, hlo, hhi, hin, hpar⟩
  show ∃ t t', (decodeBody s).spendInDraw.finish = .next t ∧ (decodeBody s').spendInDraw.finish = .next t' ∧ _
  by_cases hr : s.inReady = 0
  · rw [decodeBody_notReady hr, decodeBody_notReady (same.inReady.trans hr)]
    exact ⟨_, _, rfl, rfl, rfl, rfl, rfl, fun _ _ h => absurd h (Nat.not_lt_zero _),
      fun h => absurd (hr.symm.trans h) (by decide)⟩
  have hr' : s'.inReady ≠ 0 := same.inReady ▸ hr
  by_cases hl : s.inLen < 54
  · rw [decodeBody_short hr hl, decodeBody_short hr' (same.inLen.trans_lt hl)]
    exact ⟨_, _, rfl, rfl, rfl, rfl, rfl, fun _ _ h => absurd h (Nat.not_lt_zero _), fun _ h => absurd hl (by omega)⟩
  have hl' : ¬ s'.inLen < 54 := by rw [same.inLen]; exact hl
  cases hc : s.headerVerdict with
  | some e =>
    rw [decodeBody_rejected hr hl hc, decodeBody_rejected hr' hl' (same.headerVerdict.trans hc)]
    exact ⟨_, _, rfl, rfl, rfl, rfl, rfl, fun _ _ h => absurd h (Nat.not_lt_zero _),
      fun _ _ => ⟨same.fh, same.ih, same.hb⟩⟩
  | none =>
    rw [decodeBody_loaded hr hl hc, decodeBody_loaded hr' hl' (same.headerVerdict.trans hc)]
    exact ⟨_, _, rfl, rfl, rfl, congrArg InfoHeader.width same.ih, congrArg InfoHeader.height same.ih,
      fun _ _ hrow hcol => same.imgRead_decodeDone hrow hcol, fun _ _ => ⟨same.fh, same.ih, same.hb⟩⟩

end Sys2Proof.Machine

/-! PROOF. The statements about the state and its registers: the sequencer against the whole command, the invariant of
the machine, the register space, and what a command leaves in STATUS, OUT_LEN and STRIDE's results. -/

namespace Sys2Proof.Machine

/-! ### One move of the sequencer, case by case (R34, R40, R90, R106) -/

/-- The state with the sequencer standing at q. -/
def State.atSeq (s : State) (q : Seq) : State :=
  { s with seq := some q }

theorem State.atSeq_self {s : State} {q : Seq} (h : s.seq = some q) : s.atSeq q = s := by
  unfold State.atSeq; rw [← h]

theorem tick_start {s : State} {q : Seq} (hq : s.seq = some q) (hp : q.pos = .start) : tick s = tickStart q s := by
  simp only [tick, hq, hp]

section
variable {q : Seq} (u : State)

theorem tick_offer (hp : q.pos = .offer) : tick (u.atSeq q) = tickOffer q (u.atSeq q) := by
  simp only [tick, State.atSeq, hp]

theorem tick_gather (hp : q.pos = .gather) : tick (u.atSeq q) = tickGather q (u.atSeq q) := by
  simp only [tick, State.atSeq, hp]

theorem tick_fetch (hp : q.pos = .fetch) : tick (u.atSeq q) = tickFetch q (u.atSeq q) := by
  simp only [tick, State.atSeq, hp]

theorem tick_store (hp : q.pos = .store) : tick (u.atSeq q) = tickStore q (u.atSeq q) := by
  simp only [tick, State.atSeq, hp]

theorem tick_offer_accepted {b : Byte} {bs : List Byte} (hp : q.pos = .offer) (hr : q.row = b :: bs)
    (ha : u.answerAt 0 = .accept) : tick (u.atSeq q) = .next ((u.sinkTook [b]).atSeq { q with row := bs }) := by
  rw [tick_offer u hp, tickOffer, hr, ← State.putOut_answered, State.answered_eq, State.answered_eq]
  simp only [show (u.atSeq q).answerAt 0 = .accept from ha]
  rfl

theorem tick_offer_refused {b : Byte} {bs : List Byte} (hp : q.pos = .offer) (hr : q.row = b :: bs)
    (ha : u.answerAt 0 = .fail) : tick (u.atSeq q) = .next (u.answered.raiseFail .write) := by
  rw [tick_offer u hp, tickOffer, hr, State.answered_eq, State.answered_eq]
  simp only [show (u.atSeq q).answerAt 0 = .fail from ha]
  rfl

theorem tick_offer_silent {b : Byte} {bs : List Byte} (hp : q.pos = .offer) (hr : q.row = b :: bs)
    (ha : u.answerAt 0 = .never) : tick (u.atSeq q) = .fault .sinkNeverAnswers := by
  rw [tick_offer u hp, tickOffer, hr]
  simp only [show (u.atSeq q).answerAt 0 = .never from ha]

theorem tick_offer_nextRow (hp : q.pos = .offer) (hr : q.row = []) (hk : q.k < u.imgH.toNat) :
    tick (u.atSeq q) = .next (u.atSeq { q with pos := .gather, c := 0 }) := by
  rw [tick_offer u hp, tickOffer, hr]
  exact if_pos hk

theorem tick_offer_done (hp : q.pos = .offer) (hr : q.row = []) (hk : ¬ q.k < u.imgH.toNat) :
    tick (u.atSeq q) = .next u.finishOk := by
  rw [tick_offer u hp, tickOffer, hr]
  exact if_neg hk

theorem tick_gather_pixel (hp : q.pos = .gather) (hc : q.c < u.imgW.toNat) :
    tick (u.atSeq q) = .next (u.atSeq { q with
      c := q.c + 1, row := q.row ++ pixelBytes (u.imgRead (u.imgH.toNat - 1 - q.k) q.c) }) :=
  (tick_gather u hp).trans (if_pos hc)

theorem tick_gather_padding (hp : q.pos = .gather) (hc : ¬ q.c < u.imgW.toNat) :
    tick (u.atSeq q) = .next (u.atSeq { q with
      pos := .offer, k := q.k + 1
      row := q.row ++ List.replicate (stride u.imgW.toNat - 3 * u.imgW.toNat) 0 }) :=
  (tick_gather u hp).trans (if_neg hc)

theorem tick_fetch_row (hp : q.pos = .fetch) (hk : q.k < u.imgH.toNat) :
    tick (u.atSeq q) = .next (u.atSeq { q with
      pos := .store, c := 0, row := u.memRead q.p (3 * u.imgW.toNat) }) :=
  (tick_fetch u hp).trans (if_pos hk)

theorem tick_fetch_done (hp : q.pos = .fetch) (hk : ¬ q.k < u.imgH.toNat) :
    tick (u.atSeq q) = ({ ending := .ok, st := u } : CmdEnd).spendInDraw.finish :=
  (tick_fetch u hp).trans (if_neg hk)

theorem tick_store_pixel (hp : q.pos = .store) (hc : q.c < u.imgW.toNat) :
    tick (u.atSeq q) = .next ((u.imgWrite (u.imgH.toNat - 1 - q.k) q.c (pixelOf q.row q.c)).atSeq
      { q with c := q.c + 1 }) :=
  (tick_store u hp).trans (if_pos hc)

theorem tick_store_padding (hp : q.pos = .store) (hc : ¬ q.c < u.imgW.toNat) :
    tick (u.atSeq q) = .next (u.atSeq { q with
      pos := .fetch, k := q.k + 1, p := q.p + 3 * u.imgW.toNat + padding u.imgW.toNat, row := [] }) :=
  (tick_store u hp).trans (if_neg hc)

end

/-! ### Where the sequencer's moves lead (R34, R51) -/

/-- Some number of the sequencer's moves from s has the outcome o. -/
def State.ComesTo (s : State) (o : Host.Outcome State Fault Refusal) : Prop :=
  ∃ n, ticks n s = o

theorem State.ComesTo.ofTick {s : State} {o : Host.Outcome State Fault Refusal} (h : tick s = o) : s.ComesTo o :=
  ⟨1, (ticks_one s).trans h⟩

theorem State.ComesTo.afterTick {s t : State} {o : Host.Outcome State Fault Refusal} (h : tick s = .next t)
    (ht : t.ComesTo o) : s.ComesTo o := by
  obtain ⟨n, hn⟩ := ht
  exact ⟨n + 1, by rw [ticks, h]; exact hn⟩

/-- The bytes bs of the buffer are offered one by one (R40); `rest` is what ENCODE offers after them. -/
theorem comesTo_offer {q : Seq} (hp : q.pos = .offer) (rest bs : List Byte) (u : State)
    (hrest : ∀ l, ((u.sinkTook l).atSeq { q with row := [] }).ComesTo (memWrite rest (u.sinkTook l)).finish) :
    (u.atSeq { q with row := bs }).ComesTo (memWrite (bs ++ rest) u).finish := by
  induction bs generalizing u with
  | nil => simpa using hrest []
  | cons b bs ih =>
    rw [List.cons_append, memWrite_cons]
    cases ha : u.answerAt 0 with
    | accept =>
      refine .afterTick (tick_offer_accepted u hp rfl ha) (ih (u.sinkTook [b]) fun l => ?_)
      rw [State.sinkTook_append]
      exact hrest _
    | fail => exact .ofTick (tick_offer_refused u hp rfl ha)
    | never => exact .ofTick (tick_offer_silent u hp rfl ha)

/-- The d columns left of in-memory row r are gathered pixel by pixel, and then its padding (R90). -/
theorem comesTo_gather {u : State} {o : Host.Outcome State Fault Refusal} {r : Nat} {row : List Byte} (d : Nat)
    {q : Seq} (hp : q.pos = .gather) (hc : q.c + d = u.imgW.toNat) (hr : u.imgH.toNat - 1 - q.k = r)
    (hrow : q.row ++ ((List.range' q.c d).flatMap fun c => pixelBytes (u.imgRead r c))
      ++ List.replicate (stride u.imgW.toNat - 3 * u.imgW.toNat) 0 = row)
    (hnext : (u.atSeq { q with pos := .offer, k := q.k + 1, c := u.imgW.toNat, row := row }).ComesTo o) :
    (u.atSeq q).ComesTo o := by
  induction d generalizing q with
  | zero =>
    refine .afterTick (tick_gather_padding u hp (by omega)) ?_
    rw [List.range'_zero, List.flatMap_nil, List.append_nil] at hrow
    rw [hrow, show q.c = u.imgW.toNat from hc]
    exact hnext
  | succ d ih =>
    refine .afterTick (tick_gather_pixel u hp (by omega)) (ih hp (by simp only; omega) hr ?_ hnext)
    rw [← hrow, List.range'_succ, List.flatMap_cons, ← hr]
    simp only [List.append_assoc]

/-- The n rows left are gathered and offered one after another, the bottom row first (R90, R92). -/
theorem comesTo_encodeRows (n : Nat) {u : State} {q : Seq} (hp : q.pos = .offer) (hrow : q.row = [])
    (hk : q.k + n = u.imgH.toNat) :
    (u.atSeq q).ComesTo (memWrite (rowsBytes u u.imgW.toNat n) u).finish := by
  induction n generalizing u q with
  | zero => exact .ofTick (tick_offer_done u hp hrow (by omega))
  | succ r ih =>
    refine .afterTick (tick_offer_nextRow u hp hrow (by omega))
      (comesTo_gather (r := r) (row := rowBytes u u.imgW.toNat r) u.imgW.toNat rfl (Nat.zero_add _)
        (by simp only; omega) (by rw [hrow, ← List.range_eq_range']; rfl) ?_)
    refine comesTo_offer (q := { q with pos := .offer, k := q.k + 1, c := u.imgW.toNat }) rfl _ _ u fun l => ?_
    simpa using ih (u := u.sinkTook l)
      (q := { q with pos := .offer, k := q.k + 1, c := u.imgW.toNat, row := [] }) rfl rfl (by simp; omega)

/-- The state with the image memory m. -/
def State.withImg (s : State) (m : List (Nat × Pixel)) : State :=
  { s with imgPix := m }

/-- The d columns left of in-memory row r are stored pixel by pixel, and then the padding is skipped (R106). -/
theorem comesTo_store {u : State} {o : Host.Outcome State Fault Refusal} {r : Nat} {m' : List (Nat × Pixel)} (d : Nat)
    {m : List (Nat × Pixel)} {q : Seq} (hp : q.pos = .store) (hc : q.c + d = u.imgW.toNat)
    (hr : u.imgH.toNat - 1 - q.k = r)
    (hm : (List.range' q.c d).foldl (fun m c => Memory.set m (pixelCell u.imgW.toNat r c) (pixelOf q.row c)) m = m')
    (hnext : ((u.withImg m').atSeq { q with
      pos := .fetch, k := q.k + 1, c := u.imgW.toNat, p := q.p + 3 * u.imgW.toNat + padding u.imgW.toNat
      row := [] }).ComesTo o) :
    ((u.withImg m).atSeq q).ComesTo o := by
  induction d generalizing m q with
  | zero =>
    refine .afterTick (tick_store_padding (u.withImg m) hp (Nat.not_lt.2 hc.ge)) ?_
    subst hm
    rw [show q.c = u.imgW.toNat from hc]
    exact hnext
  | succ d ih =>
    have hlt : q.c < (u.withImg m).imgW.toNat := show q.c < u.imgW.toNat by omega
    refine .afterTick (tick_store_pixel (u.withImg m) hp hlt) (ih hp (by simp only; omega) hr ?_ hnext)
    rw [← hm, List.range'_succ, List.foldl_cons, ← hr]
    rfl

/-- The n rows left are read and stored one after another (R106, R107). -/
theorem comesTo_decodeRows (u : State) (n : Nat) {m : List (Nat × Pixel)} {q : Seq} (hp : q.pos = .fetch)
    (hk : q.k + n = u.imgH.toNat) :
    ((u.withImg m).atSeq q).ComesTo
      ({ ending := .ok, st := u.withImg (decodeRows u u.imgW.toNat n q.p m) } : CmdEnd).spendInDraw.finish := by
  induction n generalizing m q with
  | zero => exact .ofTick (tick_fetch_done (u.withImg m) hp (Nat.not_lt.2 hk.ge))
  | succ r ih =>
    have hlt : q.k < (u.withImg m).imgH.toNat := show q.k < u.imgH.toNat by omega
    refine .afterTick (tick_fetch_row (u.withImg m) hp hlt)
      (comesTo_store (r := r) (m' := storeRow u.imgW.toNat r (u.memRead q.p (3 * u.imgW.toNat)) m) u.imgW.toNat
        rfl (Nat.zero_add _) (by simp only; omega) (by rw [← List.range_eq_range']; rfl) ?_)
    exact ih rfl (by simp only; omega)

/-! ### From acceptance (R57, R83, R94) -/

theorem comesTo_encode {s : State} {v : Word} (hq : s.seq = some (Seq.start v))
    (hv : decodeCmd v = .command .encode) : s.ComesTo (execEncode s) := by
  have htick : tick s = tickStart (Seq.start v) s := tick_start hq rfl
  simp only [tickStart, hv, encodePrepare, Seq.start] at htick
  unfold execEncode
  cases hc : encodeCheck s with
  | some e =>
    rw [hc] at htick
    rw [encodeBody_check hc]
    exact .ofTick htick
  | none =>
    rw [hc] at htick
    have hfile : offeredFile s = s.startSink.buildHeaders.hb.toList
        ++ rowsBytes s.startSink.buildHeaders s.imgW.toNat s.imgH.toNat := by
      rw [toList_hb_buildHeaders, rowsBytes_built]; rfl
    rw [encodeBody_write hc, hfile]
    refine .afterTick htick
      (comesTo_offer (q := { Seq.start v with pos := .offer }) rfl _ _ s.startSink.buildHeaders fun l => ?_)
    have hrows := comesTo_encodeRows s.imgH.toNat (u := s.startSink.buildHeaders.sinkTook l)
      (q := { Seq.start v with pos := .offer, row := [] }) rfl rfl (Nat.zero_add _)
    rw [rowsBytes_sinkTook] at hrows
    exact hrows

/-- DECODE fails a check before or after the header read, or stands before its first row (R94). -/
theorem decode_cases (s : State) :
    (∃ e t, (t = s ∨ t = s.loadHeaders) ∧ decodePrepare s = decodeFail e t ∧ decodeBody s = decodeFail e t) ∨
    (s.headerVerdict = none ∧ decodePrepare s = { ending := .ok, st := s.decodeReady } ∧
      decodeBody s = { ending := .ok, st := s.decodeDone }) := by
  obtain ⟨_, h⟩ | ⟨_, _, h⟩ | ⟨_, _, e, _, h⟩ | ⟨_, _, hc, h⟩ := decodePrepare_cases s
  · exact .inl ⟨_, s, .inl rfl, h, by rw [decodeBody, h]; rfl⟩
  · exact .inl ⟨_, s, .inl rfl, h, by rw [decodeBody, h]; rfl⟩
  · exact .inl ⟨e, s.loadHeaders, .inr rfl, h, by rw [decodeBody, h]; rfl⟩
  · exact .inr ⟨hc, h, by rw [decodeBody, h]; rfl⟩

theorem comesTo_decode {s : State} {v : Word} (hq : s.seq = some (Seq.start v))
    (hv : decodeCmd v = .command .decode) : s.ComesTo (execDecode s) := by
  have htick : tick s = tickStart (Seq.start v) s := tick_start hq rfl
  simp only [tickStart, Seq.start, hv] at htick
  unfold execDecode
  obtain ⟨e, t, _, hprep, hbody⟩ | ⟨_, hprep, hbody⟩ := decode_cases s
  · rw [hprep] at htick
    rw [hbody]
    exact .ofTick htick
  · rw [hprep] at htick
    rw [hbody]
    exact .afterTick htick (comesTo_decodeRows s.decodeReady _ (m := s.imgPix)
      (q := { Seq.start v with pos := .fetch, p := s.loadHeaders.fh.offBits.toNat }) rfl (Nat.zero_add _))

/-- Settles O43: ENCODE and DECODE by induction over the rows left and, within a row, over the bytes or columns left;
every other word by its one move. -/
theorem sequencerRefinesCommand : Obligations.SequencerRefinesCommand := by
  intro s v hq
  have htick : tick s = tickStart (Seq.start v) s := tick_start hq rfl
  show s.ComesTo (runWord v s)
  unfold runWord
  simp only [tickStart, Seq.start] at htick
  cases hv : decodeCmd v with
  | zeroFieldSet => exact .ofTick (by rw [htick, hv])
  | reservedOp => exact .ofTick (by rw [htick, hv])
  | command i =>
    cases i with
    | encode => exact comesTo_encode hq hv
    | decode => exact comesTo_decode hq hv
    | fhUnpack | fhPack | ihUnpack | ihPack | stride => exact .ofTick (by rw [htick, hv])

/-! ### Everything a unit's move can do -/

/-- What a unit's move makes of the state s whose sequencer stands at q, when it answers a next state. -/
inductive UnitEffect (q : Seq) (s : State) : State → Prop
  /-- An illegal word completes (R58). -/
  | illegal : q.pos = .start → UnitEffect q s (s.raiseFail .illegal)
  /-- The command has run whole (R34): all of it, or a check of its first access has failed. -/
  | command {t : State} (i : Instr) : q.pos = .start → decodeCmd q.word = .command i → exec i s = .next t →
      UnitEffect q s t
  /-- ENCODE has passed its checks and stands before its first offered byte (R83). -/
  | encodeBegun : decodeCmd q.word = .command .encode → encodeCheck s = none →
      UnitEffect q s (s.startSink.buildHeaders.atSeq
        { q with pos := .offer, k := 0, c := 0, row := s.startSink.buildHeaders.hb.toList })
  /-- DECODE has passed its checks and stands before its first row (R94). -/
  | decodeBegun : decodeCmd q.word = .command .decode → s.headerVerdict = none →
      UnitEffect q s (s.decodeReady.atSeq
        { q with pos := .fetch, k := 0, c := 0, p := s.loadHeaders.fh.offBits.toNat, row := [] })
  | accepted {b : Byte} {bs : List Byte} : q.pos = .offer → q.row = b :: bs →
      UnitEffect q s ((s.sinkTook [b]).atSeq { q with row := bs })
  | refused : q.pos = .offer → UnitEffect q s (s.answered.raiseFail .write)
  | rowBegun : q.pos = .offer → q.row = [] → q.k < s.imgH.toNat →
      UnitEffect q s (s.atSeq { q with pos := .gather, c := 0 })
  | encodeEnded : q.pos = .offer → UnitEffect q s s.finishOk
  | gathered : q.pos = .gather → q.c < s.imgW.toNat →
      UnitEffect q s (s.atSeq { q with
        c := q.c + 1, row := q.row ++ pixelBytes (s.imgRead (s.imgH.toNat - 1 - q.k) q.c) })
  | padded : q.pos = .gather → ¬ q.c < s.imgW.toNat →
      UnitEffect q s (s.atSeq { q with
        pos := .offer, k := q.k + 1, row := q.row ++ List.replicate (stride s.imgW.toNat - 3 * s.imgW.toNat) 0 })
  | fetched : q.pos = .fetch → q.k < s.imgH.toNat →
      UnitEffect q s (s.atSeq { q with pos := .store, c := 0, row := s.memRead q.p (3 * s.imgW.toNat) })
  | decodeEnded : q.pos = .fetch → UnitEffect q s ({ s with inEpoch := s.inEpoch + 1 } : State).finishOk
  | stored : q.pos = .store → q.c < s.imgW.toNat →
      UnitEffect q s ((s.imgWrite (s.imgH.toNat - 1 - q.k) q.c (pixelOf q.row q.c)).atSeq { q with c := q.c + 1 })
  | skipped : q.pos = .store → ¬ q.c < s.imgW.toNat →
      UnitEffect q s (s.atSeq { q with
        pos := .fetch, k := q.k + 1, p := q.p + 3 * s.imgW.toNat + padding s.imgW.toNat, row := [] })

theorem unitEffect_of_tickStart {s t : State} {q : Seq} (hp : q.pos = .start) (h : tickStart q s = .next t) :
    UnitEffect q s t := by
  unfold tickStart at h
  cases hv : decodeCmd q.word with
  | zeroFieldSet => rw [hv] at h; cases h; exact .illegal hp
  | reservedOp => rw [hv] at h; cases h; exact .illegal hp
  | command i =>
    rw [hv] at h
    cases i with
    | encode =>
      simp only [encodePrepare] at h
      cases hc : encodeCheck s with
      | none => rw [hc] at h; cases h; exact .encodeBegun hv hc
      | some e =>
        rw [hc] at h
        exact .command .encode hp hv (by rw [← h, exec, execEncode, encodeBody_check hc])
    | decode =>
      simp only at h
      obtain ⟨e, u, _, hprep, hbody⟩ | ⟨hc, hprep, _⟩ := decode_cases s
      · rw [hprep] at h
        exact .command .decode hp hv (by rw [exec, execDecode, hbody]; exact h)
      · rw [hprep] at h; cases h; exact .decodeBegun hv hc
    | fhUnpack | fhPack | ihUnpack | ihPack | stride => exact .command _ hp hv h

theorem unitEffect_of_tick {s t : State} {q : Seq} (hq : s.seq = some q) (h : tick s = .next t) :
    UnitEffect q s t := by
  have hs : tick (s.atSeq q) = .next t := by rw [State.atSeq_self hq, h]
  cases hp : q.pos with
  | start => exact unitEffect_of_tickStart hp (tick_start hq hp ▸ h)
  | offer =>
    cases hr : q.row with
    | nil =>
      by_cases hk : q.k < s.imgH.toNat
      · rw [tick_offer_nextRow s hp hr hk] at hs; cases hs; exact .rowBegun hp hr hk
      · rw [tick_offer_done s hp hr hk] at hs; cases hs; exact .encodeEnded hp
    | cons b bs =>
      cases ha : s.answerAt 0 with
      | accept => rw [tick_offer_accepted s hp hr ha] at hs; cases hs; exact .accepted hp hr
      | fail => rw [tick_offer_refused s hp hr ha] at hs; cases hs; exact .refused hp
      | never => rw [tick_offer_silent s hp hr ha] at hs; cases hs
  | gather =>
    by_cases hc : q.c < s.imgW.toNat
    · rw [tick_gather_pixel s hp hc] at hs; cases hs; exact .gathered hp hc
    · rw [tick_gather_padding s hp hc] at hs; cases hs; exact .padded hp hc
  | fetch =>
    by_cases hk : q.k < s.imgH.toNat
    · rw [tick_fetch_row s hp hk] at hs; cases hs; exact .fetched hp hk
    · rw [tick_fetch_done s hp hk] at hs; cases hs; exact .decodeEnded hp
  | store =>
    by_cases hc : q.c < s.imgW.toNat
    · rw [tick_store_pixel s hp hc] at hs; cases hs; exact .stored hp hc
    · rw [tick_store_padding s hp hc] at hs; cases hs; exact .skipped hp hc

theorem unitEffect_of_unitMove {s t : State} {q : Seq} (hq : s.seq = some q) (h : unitMove s = .next t) :
    UnitEffect q s t := by
  by_cases hp : q.pos = .start
  · simp only [unitMove, hq, hp, runWord] at h
    cases hv : decodeCmd q.word with
    | zeroFieldSet => rw [hv] at h; cases h; exact .illegal hp
    | reservedOp => rw [hv] at h; cases h; exact .illegal hp
    | command i => rw [hv] at h; exact .command i hp hv h
  · exact unitEffect_of_tick hq (unitMove_pastStart hq hp ▸ h)

/-! ### What the unit leaves alone, and where a move of it leaves STATUS -/

/-- What no command but STRIDE writes: the host's side, IN, the parameters and STRIDE's results; `d` is the command
under way. -/
structure State.KeptBy (d : Verdict) (s t : State) : Prop where
  host : t.host = s.host
  inMem : t.inMem = s.inMem
  params : t.params = s.params
  strides : d ≠ .command .stride → t.strideLo = s.strideLo ∧ t.strideHi = s.strideHi ∧ t.padOut = s.padOut

/-- Completion writes STATUS and the sequencer only (R18, R34). -/
theorem State.KeptBy.finish {d : Verdict} {s t : State} {r : CmdEnd} (hr : s.KeptBy d r.st) (h : r.finish = .next t) :
    s.KeptBy d t := by
  obtain ⟨_, rfl⟩ | ⟨e, _, rfl⟩ := CmdEnd.finish_next h
  · exact ⟨hr.host, hr.inMem, hr.params, hr.strides⟩
  · exact ⟨hr.host, hr.inMem, hr.params, hr.strides⟩

theorem keptBy_encodeBody (d : Verdict) (s : State) : s.KeptBy d (encodeBody s).st := by
  obtain ⟨e, _, h⟩ | ⟨_, h⟩ | ⟨n, _, _, h⟩ | ⟨n, _, _, _, h⟩ := encodeBody_cases s <;> constructor <;> simp [h]

theorem keptBy_decodeBody (d : Verdict) (s : State) : s.KeptBy d (decodeBody s).st := by
  obtain ⟨e, t, rfl | rfl, _, h⟩ | ⟨_, _, h⟩ := decode_cases s <;> rw [h] <;>
    exact ⟨rfl, rfl, rfl, fun _ => ⟨rfl, rfl, rfl⟩⟩

theorem keptBy_exec {i : Instr} {s t : State} (h : exec i s = .next t) : s.KeptBy (.command i) t := by
  cases i with
  | encode => exact (keptBy_encodeBody _ s).finish h
  | decode =>
    have hr := keptBy_decodeBody (.command .decode) s
    exact State.KeptBy.finish (r := (decodeBody s).spendInDraw) ⟨hr.host, hr.inMem, hr.params, hr.strides⟩ h
  | stride => cases h; exact ⟨rfl, rfl, rfl, fun hne => absurd rfl hne⟩
  | fhUnpack | fhPack | ihUnpack | ihPack => cases h; exact ⟨rfl, rfl, rfl, fun _ => ⟨rfl, rfl, rfl⟩⟩

theorem UnitEffect.kept {q : Seq} {s t : State} (h : UnitEffect q s t) : s.KeptBy (decodeCmd q.word) t := by
  cases h with
  | command i _ hv he => exact hv ▸ keptBy_exec he
  | refused =>  constructor <;> simp
  | _ => exact ⟨rfl, rfl, rfl, fun _ => ⟨rfl, rfl, rfl⟩⟩

/-- The command under way has completed: the hidden state is discarded (R34), and STATUS is success or a failure (R113,
R116). -/
def State.Completed (t : State) : Prop :=
  t.seq = none ∧ (t.status = Status.success ∨ ∃ e, t.status = Status.failed e)

theorem State.completed_finishOk (s : State) : s.finishOk.Completed :=
  ⟨rfl, .inl rfl⟩

theorem State.completed_raiseFail (s : State) (e : ErrCode) : (s.raiseFail e).Completed :=
  ⟨rfl, .inr ⟨e, rfl⟩⟩

theorem CmdEnd.completed_finish {r : CmdEnd} {t : State} (h : r.finish = .next t) : t.Completed := by
  obtain ⟨_, rfl⟩ | ⟨e, _, rfl⟩ := CmdEnd.finish_next h
  · exact r.st.completed_finishOk
  · exact r.st.completed_raiseFail e

theorem completed_exec {i : Instr} {s t : State} (h : exec i s = .next t) : t.Completed := by
  cases i with
  | encode | decode => exact CmdEnd.completed_finish h
  | fhUnpack | fhPack | ihUnpack | ihPack | stride => cases h; exact State.completed_finishOk _

/-- Settles O44: the header commands and STRIDE end with `finish OK` (R113), ENCODE and DECODE as their operation
did. -/
theorem commandsCompleteWithStatus : Obligations.CommandsCompleteWithStatus := by
  intro i s t h
  obtain ⟨hseq, hstatus⟩ := completed_exec h
  refine ⟨hseq, hstatus, fun hne hnd => ?_⟩
  cases i with
  | encode => exact absurd rfl hne
  | decode => exact absurd rfl hnd
  | fhUnpack | fhPack | ihUnpack | ihPack | stride => cases h; rfl

/-! ### What the checks give -/

/-- ENCODE's checks passed: the image fits the memory, and the file a 32-bit size (R85, R103). -/
theorem encodeCheck_none {s : State} (h : encodeCheck s = none) :
    s.imgW.toNat * s.imgH.toNat ≤ s.params.imgMaxPixels ∧ encodedSize s.imgW.toNat s.imgH.toNat < 2 ^ 32 := by
  unfold encodeCheck at h
  split_ifs at h with _ _ hcap hsize
  exact ⟨Nat.not_lt.1 hcap, Nat.lt_of_not_le hsize⟩

/-- DECODE's header checks passed: every row lies below IN_LEN, and the image fits the memory (R103, R104). -/
theorem decodeCheck_none {f : FileHeader} {i : InfoHeader} {L maxPixels : Nat}
    (h : decodeCheck f i L maxPixels = none) :
    f.offBits.toNat + i.height.toNat * stride i.width.toNat ≤ L ∧ i.width.toNat * i.height.toNat ≤ maxPixels := by
  unfold decodeCheck at h
  split_ifs at h with _ _ _ _ _ htrunc hcap
  rw [stride_eq]
  exact ⟨Nat.not_lt.1 htrunc, Nat.not_lt.1 hcap⟩

/-- OUT_LEN has not wrapped when the sink has taken no more than a file that passed the checks (R24, R85). -/
theorem outLen_counts {s : State} {l : List Byte} (hc : encodeCheck s = none) (hl : l.length ≤ (offeredFile s).length) :
    (s.startSink.buildHeaders.sinkTook l).outLen.toNat = (s.startSink.buildHeaders.sinkTook l).outBytes.length := by
  have hlen : l.length < 2 ^ 32 := hl.trans_lt (length_offeredFile s ▸ (encodeCheck_none hc).2)
  rw [State.outBytes_sinkTook]
  simpa [State.outBytes] using hlen

theorem outLen_encodeBody (s : State) : (encodeBody s).st.outLen.toNat = (encodeBody s).st.outBytes.length := by
  obtain ⟨e, _, hb⟩ | ⟨hc, hb⟩ | ⟨n, hc, _, hb⟩ | ⟨n, hc, _, _, hb⟩ := encodeBody_cases s
  · rw [hb]; rfl
  · rw [hb]; exact outLen_counts hc le_rfl
  · rw [hb, State.outBytes_answered, State.answered_outLen]; exact outLen_counts hc (List.length_take_le' _ _)
  · rw [hb]; exact outLen_counts hc (List.length_take_le' _ _)

/-- Settles O36: OUT_LEN and OUT start empty together, every accepted byte counts in both, and completion writes
neither. -/
theorem outLenCountsOut : Obligations.OutLenCountsOut := by
  intro s t h
  obtain ⟨_, rfl⟩ | ⟨e, _, rfl⟩ := CmdEnd.finish_next h
  · exact outLen_encodeBody s
  · exact outLen_encodeBody s

/-! ### The memories stay canonical and within their bounds (R37, R39, R41) -/

/-- The memory m is in canonical form and lists no key at or past n. -/
def Memory.Within {α : Type} (n : Nat) (m : List (Nat × α)) : Prop :=
  Memory.wf m = true ∧ ∀ e ∈ m, e.1 < n

theorem Memory.Within.set {α : Type} {n k : Nat} {m : List (Nat × α)} (h : Memory.Within n m) (hk : k < n) (v : α) :
    Memory.Within n (Memory.set m k v) := by
  refine ⟨Memory.wf_set h.1 k v, fun e he => ?_⟩
  obtain rfl | he := Memory.mem_set he
  · exact hk
  · exact h.2 e he

theorem Memory.Within.decodeRows {n w r p : Nat} {s : State} {m : List (Nat × Pixel)} (h : Memory.Within n m)
    (hfit : w * r ≤ n) : Memory.Within n (decodeRows s w r p m) :=
  ⟨wf_decodeRows s w r p h.1, fun e he => (mem_decodeRows he).elim (h.2 e) fun hlt => hlt.trans_le hfit⟩

theorem Memory.Within.landedPixels {n d k : Nat} {new m : List (Nat × Pixel)} (h : Memory.Within n m) (hfit : k ≤ n) :
    Memory.Within n (landedPixels d k new m) :=
  ⟨wf_landedPixels d k new h.1, fun e he => (mem_landedPixels he).elim (h.2 e) fun hlt => hlt.trans_le hfit⟩

theorem decodeReady_fits {s : State} (h : s.headerVerdict = none) :
    s.decodeReady.imgW.toNat * s.decodeReady.imgH.toNat ≤ s.params.imgMaxPixels :=
  (decodeCheck_none h).2

theorem imgPix_within_decodeBody {s : State} (h : Memory.Within s.params.imgMaxPixels s.imgPix) :
    Memory.Within s.params.imgMaxPixels (decodeBody s).st.imgPix := by
  obtain ⟨e, t, rfl | rfl, _, hb⟩ | ⟨hc, _, hb⟩ := decode_cases s
  · rw [hb]; exact h
  · rw [hb]; exact h
  · rw [hb]; exact h.decodeRows (decodeReady_fits hc)

theorem imgPix_encodeBody (s : State) : (encodeBody s).st.imgPix = s.imgPix := by
  obtain ⟨e, _, h⟩ | ⟨_, h⟩ | ⟨n, _, _, h⟩ | ⟨n, _, _, _, h⟩ := encodeBody_cases s <;> simp [h]

theorem CmdEnd.imgPix_finish {r : CmdEnd} {t : State} (h : r.finish = .next t) : t.imgPix = r.st.imgPix := by
  obtain ⟨_, rfl⟩ | ⟨e, _, rfl⟩ := CmdEnd.finish_next h <;> rfl

theorem imgPix_within_exec {i : Instr} {s t : State} (hs : Memory.Within s.params.imgMaxPixels s.imgPix)
    (h : exec i s = .next t) : Memory.Within s.params.imgMaxPixels t.imgPix := by
  cases i with
  | encode => rw [CmdEnd.imgPix_finish h, imgPix_encodeBody]; exact hs
  | decode => rw [CmdEnd.imgPix_finish h]; exact imgPix_within_decodeBody hs
  | fhUnpack | fhPack | ihUnpack | ihPack | stride => cases h; exact hs

/-! ### The sequencer's bounds, step by step (R34) -/

section
variable {s : State} {q : Seq}

theorem seqInBounds_offer (hp : q.pos = .offer) :
    s.seqInBounds q ↔ decodeCmd q.word = .command .encode ∧ s.imgW.toNat * s.imgH.toNat ≤ s.params.imgMaxPixels ∧
      q.k ≤ s.imgH.toNat ∧ q.row.length ≤ max 54 (stride s.imgW.toNat) := by
  simp only [State.seqInBounds, hp]

theorem seqInBounds_gather (hp : q.pos = .gather) :
    s.seqInBounds q ↔ decodeCmd q.word = .command .encode ∧ s.imgW.toNat * s.imgH.toNat ≤ s.params.imgMaxPixels ∧
      q.k < s.imgH.toNat ∧ q.c ≤ s.imgW.toNat ∧ q.row.length = 3 * q.c := by
  simp only [State.seqInBounds, hp]

theorem seqInBounds_fetch (hp : q.pos = .fetch) :
    s.seqInBounds q ↔ decodeCmd q.word = .command .decode ∧ s.imgW.toNat * s.imgH.toNat ≤ s.params.imgMaxPixels ∧
      q.k ≤ s.imgH.toNat ∧ q.row = [] ∧ q.p = s.fh.offBits.toNat + q.k * stride s.imgW.toNat ∧
      s.fh.offBits.toNat + s.imgH.toNat * stride s.imgW.toNat ≤ s.inLen := by
  simp only [State.seqInBounds, hp]

theorem seqInBounds_store (hp : q.pos = .store) :
    s.seqInBounds q ↔ decodeCmd q.word = .command .decode ∧ s.imgW.toNat * s.imgH.toNat ≤ s.params.imgMaxPixels ∧
      q.k < s.imgH.toNat ∧ q.c ≤ s.imgW.toNat ∧ q.row.length = 3 * s.imgW.toNat ∧
      q.p = s.fh.offBits.toNat + q.k * stride s.imgW.toNat ∧
      s.fh.offBits.toNat + s.imgH.toNat * stride s.imgW.toNat ≤ s.inLen := by
  simp only [State.seqInBounds, hp]

end

/-- A command that has not completed goes on: STATUS is as before, and the sequencer stands in its bounds. -/
def State.GoesOn (s t : State) : Prop :=
  t.status = s.status ∧ ∃ q, t.seq = some q ∧ t.seqInBounds q

theorem State.goesOn_atSeq {s u : State} {q : Seq} (hstatus : u.status = s.status) (hb : u.seqInBounds q) :
    s.GoesOn (u.atSeq q) :=
  ⟨hstatus, q, rfl, hb⟩

/-- A move of the unit completes the command or leaves the sequencer in its bounds. -/
theorem UnitEffect.completes_or_goesOn {q : Seq} {s t : State} (hb : s.seqInBounds q) (h : UnitEffect q s t) :
    t.Completed ∨ s.GoesOn t := by
  cases h with
  | illegal => exact .inl (s.completed_raiseFail _)
  | command i _ _ he => exact .inl (completed_exec he)
  | refused => exact .inl (s.answered.completed_raiseFail _)
  | encodeEnded => exact .inl s.completed_finishOk
  | decodeEnded => exact .inl (State.completed_finishOk _)
  | encodeBegun hv hc =>
    refine .inr (State.goesOn_atSeq rfl ((seqInBounds_offer rfl).2 ⟨hv, ?_, Nat.zero_le _, ?_⟩))
    · exact (encodeCheck_none hc).1
    · rw [length_hb]; exact le_max_left _ _
  | decodeBegun hv hc =>
    refine .inr (State.goesOn_atSeq rfl ((seqInBounds_fetch rfl).2
      ⟨hv, decodeReady_fits hc, Nat.zero_le _, rfl, ?_, (decodeCheck_none hc).1⟩))
    simp [State.decodeReady]
  | accepted hp hr =>
    obtain ⟨hv, hfit, hk, hlen⟩ := (seqInBounds_offer hp).1 hb
    rw [hr, List.length_cons] at hlen
    exact .inr (State.goesOn_atSeq rfl ((seqInBounds_offer (by exact hp)).2 ⟨hv, hfit, hk, Nat.le_of_succ_le hlen⟩))
  | rowBegun hp hr hk =>
    obtain ⟨hv, hfit, _, _⟩ := (seqInBounds_offer hp).1 hb
    exact .inr (State.goesOn_atSeq rfl ((seqInBounds_gather rfl).2 ⟨hv, hfit, hk, Nat.zero_le _, by rw [hr]; rfl⟩))
  | gathered hp hc =>
    obtain ⟨hv, hfit, hk, _, hlen⟩ := (seqInBounds_gather hp).1 hb
    refine .inr (State.goesOn_atSeq rfl ((seqInBounds_gather (by exact hp)).2 ⟨hv, hfit, hk, hc, ?_⟩))
    rw [List.length_append, hlen, Nat.mul_add]; rfl
  | padded hp hc =>
    obtain ⟨hv, hfit, hk, hcw, hlen⟩ := (seqInBounds_gather hp).1 hb
    refine .inr (State.goesOn_atSeq rfl ((seqInBounds_offer rfl).2 ⟨hv, hfit, hk, ?_⟩))
    rw [List.length_append, hlen, List.length_replicate, stride_eq]
    omega
  | fetched hp hk =>
    obtain ⟨hv, hfit, _, _, hpos, hin⟩ := (seqInBounds_fetch hp).1 hb
    refine .inr (State.goesOn_atSeq rfl ((seqInBounds_store rfl).2 ⟨hv, hfit, hk, Nat.zero_le _, ?_, hpos, hin⟩))
    simp [State.memRead]
  | stored hp hc =>
    obtain ⟨hv, hfit, hk, _, hlen, hpos, hin⟩ := (seqInBounds_store hp).1 hb
    exact .inr (State.goesOn_atSeq rfl ((seqInBounds_store (by exact hp)).2 ⟨hv, hfit, hk, hc, hlen, hpos, hin⟩))
  | skipped hp hc =>
    obtain ⟨hv, hfit, hk, _, _, hpos, hin⟩ := (seqInBounds_store hp).1 hb
    refine .inr (State.goesOn_atSeq rfl ((seqInBounds_fetch rfl).2 ⟨hv, hfit, hk, rfl, ?_, hin⟩))
    have hstride := stride_eq s.imgW.toNat
    simp only [Nat.add_mul, Nat.one_mul]
    omega

theorem UnitEffect.imgPix_within {q : Seq} {s t : State} (hb : s.seqInBounds q)
    (hs : Memory.Within s.params.imgMaxPixels s.imgPix) (h : UnitEffect q s t) :
    Memory.Within s.params.imgMaxPixels t.imgPix := by
  cases h with
  | command i _ _ he => exact imgPix_within_exec hs he
  | refused => simpa using hs
  | stored hp hc =>
    obtain ⟨_, hfit, hk, _⟩ := (seqInBounds_store hp).1 hb
    exact hs.set ((pixelCell_lt (by omega) hc).trans_le hfit) _
  | _ => exact hs

/-! ### The invariant in two parts: the memories, and where STATUS and the sequencer stand -/

/-- What the invariant says of the memories, the host's temporaries among them, and of the capacity. -/
structure State.MemoriesOk (s : State) : Prop where
  inMem : Memory.Within (2 ^ 64) s.inMem
  imgPix : Memory.Within s.params.imgMaxPixels s.imgPix
  temps : Memory.wf s.host.temps = true
  capacity : 1 ≤ s.params.imgMaxPixels

theorem State.Inv.memories {s : State} (hs : s.Inv) : s.MemoriesOk :=
  ⟨⟨hs.inWf, hs.inBound⟩, ⟨hs.imgWf, hs.imgBound⟩, hs.tempsWf, hs.capacity⟩

/-- With no command under way nothing is asked of the sequencer or of the poll. -/
theorem State.MemoriesOk.idle {t : State} (hm : t.MemoriesOk) (hlegal : t.status.legal = true)
    (hbusy : t.status.busy = false) (hseq : t.seq = none) : t.Inv where
  statusLegal := hlegal
  busyIffSeq := by rw [hbusy, hseq]; rfl
  busyUnpolled h := absurd h (by simp [hbusy])
  inWf := hm.inMem.1
  inBound := hm.inMem.2
  imgWf := hm.imgPix.1
  imgBound := hm.imgPix.2
  tempsWf := hm.temps
  capacity := hm.capacity
  seqOk q hq := absurd hq (by simp [hseq])

/-- With a command under way the host has not polled it, and the sequencer stands in its bounds. -/
theorem State.MemoriesOk.underWay {t : State} {q : Seq} (hm : t.MemoriesOk) (hlegal : t.status.legal = true)
    (hbusy : t.status.busy = true) (hpolled : t.host.polled = false) (hseq : t.seq = some q)
    (hq : t.seqInBounds q) : t.Inv where
  statusLegal := hlegal
  busyIffSeq := by rw [hbusy, hseq]; rfl
  busyUnpolled _ := hpolled
  inWf := hm.inMem.1
  inBound := hm.inMem.2
  imgWf := hm.imgPix.1
  imgBound := hm.imgPix.2
  tempsWf := hm.temps
  capacity := hm.capacity
  seqOk q' hq' := by
    rw [hseq] at hq'
    cases hq'
    exact hq

theorem State.Completed.status {t : State} (h : t.Completed) : t.status.legal = true ∧ t.status.busy = false := by
  obtain ⟨_, hs | ⟨e, hs⟩⟩ := h
  · rw [hs]; exact ⟨rfl, rfl⟩
  · rw [hs]; cases e <;> exact ⟨rfl, rfl⟩

/-- A move of the unit keeps the invariant. -/
theorem State.Inv.unitEffect {q : Seq} {s t : State} (hs : s.Inv) (hq : s.seq = some q) (h : UnitEffect q s t) :
    t.Inv := by
  have hb := hs.seqOk q hq
  have kept := h.kept
  have hm : t.MemoriesOk :=
    { inMem := kept.inMem ▸ hs.memories.inMem
      imgPix := kept.params ▸ h.imgPix_within hb hs.memories.imgPix
      temps := kept.host ▸ hs.tempsWf
      capacity := kept.params ▸ hs.capacity }
  obtain hdone | ⟨hstatus, q', hq', hb'⟩ := h.completes_or_goesOn hb
  · exact hm.idle hdone.status.1 hdone.status.2 hdone.1
  · have hbusy : s.status.busy = true := by rw [hs.busyIffSeq, hq]; rfl
    exact hm.underWay (hstatus ▸ hs.statusLegal) (hstatus ▸ hbusy) (kept.host ▸ hs.busyUnpolled hbusy) hq' hb'

/-! ### The register space (R15 to R31) -/

/-- A write to any register but CMD leaves STATUS, the sequencer, the memories, the host and the model's own fields as
they are. -/
theorem regWrite_frame {r : Reg} (hr : r ≠ .cmd) (v : Word) (s : State) :
    (regWrite r v s).status = s.status ∧ (regWrite r v s).seq = s.seq ∧ (regWrite r v s).inMem = s.inMem ∧
      (regWrite r v s).outHeld = s.outHeld ∧ (regWrite r v s).out = s.out ∧ (regWrite r v s).imgPix = s.imgPix ∧
      (regWrite r v s).params = s.params ∧ (regWrite r v s).acks = s.acks ∧ (regWrite r v s).host = s.host ∧
      (regWrite r v s).sched = s.sched ∧ (regWrite r v s).draws = s.draws ∧ (regWrite r v s).inEpoch = s.inEpoch := by
  cases r with
  | cmd => exact absurd rfl hr
  | hbw k => simp [regWrite]
  | _ => exact ⟨rfl, rfl, rfl, rfl, rfl, rfl, rfl, rfl, rfl, rfl, rfl, rfl⟩

/-- A write to any register but CMD leaves what every other register reads; IMG_CTRL is computed from IMG_W and IMG_H
(R25). Two window words are bytes of one buffer; any other two registers are different fields. -/
theorem regRead_regWrite_ne {r r' : Reg} (hr : r ≠ .cmd) (hne : r' ≠ r)
    (hctrl : r' = .imgCtrl → r ≠ .imgW ∧ r ≠ .imgH) (v : Word) (s : State) :
    regRead r' (regWrite r v s) = regRead r' s := by
  cases r with
  | cmd => exact absurd rfl hr
  | status | strideLo | strideHi | padOut | outLen | imgCtrl => rfl
  | hbw k =>
    cases r' with
    | hbw k' => exact le32_hbWrite_ne s.hb k k' v fun e => hne (congrArg Reg.hbw e)
    | _ => simp [regWrite, regRead]
  | imgW =>
    cases r' with
    | imgW => exact absurd rfl hne
    | imgCtrl => exact absurd rfl (hctrl rfl).1
    | _ => rfl
  | imgH =>
    cases r' with
    | imgH => exact absurd rfl hne
    | imgCtrl => exact absurd rfl (hctrl rfl).2
    | _ => rfl
  | _ => cases r' <;> trivial

/-- Settles O14: the write is `regWrite`, which touches one register. -/
theorem registerWriteFrame : Obligations.RegisterWriteFrame := by
  intro s r r' v hidle hr hne hctrl
  exact ⟨_, busWrite_regOffset r v s hidle, regRead_regWrite_ne hr hne hctrl v s, regWrite_frame hr v s⟩

theorem getElem?_bytes32 (v : Word) {i : Nat} (h : i < 4) : (bytes32 v)[i]? = some (v.extractLsb' (8 * i) 8) := by
  obtain rfl | rfl | rfl | rfl : i = 0 ∨ i = 1 ∨ i = 2 ∨ i = 3 := by omega
  all_goals rfl

/-- Byte i of a 32-bit field is the byte it was assembled from (R9). -/
theorem extractLsb'_le32 (B : List Byte) (o : Nat) {i : Nat} (h : i < 4) :
    (le32 B o).extractLsb' (8 * i) 8 = B.getD (o + i) 0 := by
  have hbytes : bytes32 (le32 B o) = [B.getD o 0, B.getD (o + 1) 0, B.getD (o + 2) 0, B.getD (o + 3) 0] :=
    bytes32_append _ _ _ _
  have hi := getElem?_bytes32 (le32 B o) h
  rw [hbytes] at hi
  obtain rfl | rfl | rfl | rfl : i = 0 ∨ i = 1 ∨ i = 2 ∨ i = 3 := by omega
  all_goals exact (Option.some.inj hi).symm

/-- Settles O18: the window's word k is HB from byte 4k on, and HB ends at byte 53 (R29). -/
theorem headerWindowWords : Obligations.HeaderWindowWords := by
  intro s k v hidle
  refine ⟨⟨_, busWrite_regOffset (.hbw k) v s hidle, fun j hj => ?_, rfl⟩, fun i hi => ?_⟩
  · refine (getElem?_hbWrite s.hb (4 * k.val) (bytes32 v) j hj).trans ?_
    rw [length_bytes32]
    split
    · exact getElem?_bytes32 v (by omega)
    · rfl
  · exact (extractLsb'_le32 _ _ hi).trans (List.getD_eq_getElem?_getD ..)

/-- Settles O9: the table of R15 by evaluation, and no register at or past 0x0B8. -/
theorem registerMapOffsets : Obligations.RegisterMapOffsets := by
  refine ⟨by decide, fun k => regAt_regOffset (.hbw k), by decide, fun off hoff => ?_⟩
  have hbelow : ∀ r ∈ namedRegs, regOffset r < 0x0B8 := by decide
  rw [regAt, dif_neg (by omega), List.find?_eq_none]
  intro r hr
  have hlt := hbelow r hr
  simp only [beq_iff_eq]
  omega

/-- Settles O10: every STATUS has its bits where R17 puts them. -/
theorem statusWordFields : Obligations.StatusWordFields := by
  rintro ⟨busy, done, ok, err⟩
  revert busy done ok err
  decide

/-! ### Host reads and writes of REG -/

theorem busReadValue_regOffset (r : Reg) (s : State) :
    busReadValue (regOffset r) s = if s.readIsOpen r then Config.freeRead s.draws else regRead r s := by
  rw [busReadValue, regAt_regOffset]

theorem busReadState_regOffset (r : Reg) (s : State) :
    busReadState (regOffset r) s =
      if s.readIsOpen r then { s with draws := s.draws + 1 }
      else if r = .status ∧ s.status.busy = false then { s with host := { s.host with polled := true } }
      else s := by
  rw [busReadState, regAt_regOffset]

theorem State.readIsOpen_status (s : State) : s.readIsOpen .status = false := by
  simp [State.readIsOpen]

/-- Settles O11: a read of STATUS is never a draw. -/
theorem statusReadIsPoll : Obligations.StatusReadIsPoll := by
  intro s
  refine (busRead_regOffset .status s).trans ?_
  simp only [busReadState_regOffset, busReadValue_regOffset, s.readIsOpen_status, Bool.false_eq_true, if_false,
    true_and]
  cases hb : s.status.busy with
  | true => simp [regRead]
  | false => simp [regRead]

/-- Settles O12: whether a read is a draw is `readIsOpen`'s to say (R31, R130). -/
theorem registerReadsDefinedAfterPoll : Obligations.RegisterReadsDefinedAfterPoll := by
  refine ⟨by decide, by decide, fun _ => rfl, fun s r hr => ⟨fun hopen => ?_, fun hidle hdef => ?_⟩⟩
  · have isOpen : s.readIsOpen r = true := by simpa [State.readIsOpen, hr] using hopen
    refine (busRead_regOffset r s).trans ?_
    rw [busReadState_regOffset, busReadValue_regOffset, if_pos isOpen, if_pos isOpen]
  · have isClosed : ¬ s.readIsOpen r = true := by
      rcases hdef with h | h <;> simp [State.readIsOpen, hidle, h]
    refine (busRead_regOffset r s).trans ?_
    rw [busReadState_regOffset, busReadValue_regOffset, if_neg isClosed, if_neg isClosed, if_neg fun h => hr h.1]

/-- Settles O13: a 16-bit or one-bit register keeps the low bits of its width, any other the whole word (R28). -/
theorem registerWritesKeepWidth : Obligations.RegisterWritesKeepWidth := by
  intro s v hidle
  have written := fun r => busWrite_regOffset r v s hidle
  refine ⟨fun r hr => ⟨_, written r, ?_⟩, fun r hr => ⟨_, written r, ?_⟩, fun r hr => ⟨_, written r, ?_⟩⟩
  · revert r; simp [regRead, regWrite]; omega
  · revert r; simp [regRead, regWrite]; omega
  · revert r; simp [regRead, regWrite]

/-- A write while BUSY = 1 is lost (R31). -/
theorem busWrite_busy (r : Reg) (v : Word) {s : State} (h : s.status.busy = true) :
    busWrite (regOffset r) 4 v s = .next s := by
  simp [busWrite, busAccessOk_regOffset, h]

theorem regAt_reserved {off : Nat} (h : off ∈ [0x02C, 0x03C, 0x07C] ∨ (0x0B8 ≤ off ∧ off < 0x100 ∧ off % 4 = 0)) :
    regAt off = none ∧ busAccessOk off 4 = true := by
  obtain ⟨_, _, hlow, hhigh⟩ := registerMapOffsets
  obtain hmem | ⟨hge, hlt, halign⟩ := h
  · refine ⟨hlow off hmem, ?_⟩
    revert off; decide
  · exact ⟨hhigh off hge, by simp [busAccessOk, hlt, halign]⟩

/-- Settles O15: no register stands at a reserved offset, and a read-only register has no write. -/
theorem reservedAndReadOnlyIgnoreWrites : Obligations.ReservedAndReadOnlyIgnoreWrites := by
  intro s v
  refine ⟨fun off hoff => ?_, fun r hr => ?_⟩
  · obtain ⟨hnone, hok⟩ := regAt_reserved hoff
    constructor
    · simp [hostMove, busWrite, hok, hnone]
    · simp [hostMove, busRead, hok, busReadState, busReadValue, hnone]
  · cases hb : s.status.busy with
    | true => exact busWrite_busy r v hb
    | false =>
      refine (busWrite_regOffset r v s hb).trans (congrArg _ ?_)
      revert r; simp [regWrite]

/-- IMG_CTRL is computed from IMG_W and IMG_H on each read (R25). -/
theorem regRead_imgCtrl (s : State) :
    regRead .imgCtrl s = if 1 ≤ s.imgW.toNat ∧ 1 ≤ s.imgH.toNat then 1 else 0 := by
  show (bit (decide _ && decide _)).setWidth 32 = _
  rw [← Bool.decide_and]
  by_cases h : 1 ≤ s.imgW.toNat ∧ 1 ≤ s.imgH.toNat
  · rw [if_pos h, decide_eq_true h]; rfl
  · rw [if_neg h, decide_eq_false h]; rfl

/-- Settles O57: a write of IMG_W or IMG_H changes one field, and IMG_CTRL is computed in every state. -/
theorem imgCtrlIsComputed : Obligations.ImgCtrlIsComputed :=
  fun s => ⟨regRead_imgCtrl s, fun hidle v =>
    ⟨⟨_, busWrite_regOffset .imgW v s hidle, rfl, regRead_imgCtrl { s with imgW := v }⟩,
      ⟨_, busWrite_regOffset .imgH v s hidle, rfl, regRead_imgCtrl { s with imgH := v }⟩⟩⟩

/-! ### Command words (R16, R55 to R58) -/

/-- A command has one word (R56). -/
theorem decodeCmd_eq_command_iff (v : Word) (i : Instr) : decodeCmd v = .command i ↔ v = encode i := by
  unfold decodeCmd encode
  constructor
  · intro h
    split at h
    · rename_i hz
      rw [← cmdWord_cmdFields v, ← (opCommand_iff _ i).1 h, ← hz]
    · cases h
  · rintro rfl
    rw [cmdFields_cmdWord, if_pos rfl]
    exact (opCommand_iff _ i).2 rfl

/-- A word of no command fails with ERR_ILLEGAL (R58). -/
theorem runWord_illegal {v : Word} (hv : ∀ i, decodeCmd v ≠ .command i) (s : State) :
    runWord v s = .next (s.raiseFail .illegal) := by
  unfold runWord
  cases h : decodeCmd v with
  | command i => exact absurd h (hv i)
  | zeroFieldSet => rfl
  | reservedOp => rfl

theorem unitMove_runWord {s : State} {v : Word} (hq : s.seq = some (Seq.start v)) : unitMove s = runWord v s := by
  simp only [unitMove, hq, Seq.start]

/-- The words of R58: bits 31:4 not all 0, or OP 0 or 8 to 15. -/
theorem decodeCmd_illegal {v : Word}
    (h : v.extractLsb' 4 28 ≠ 0 ∨ v.extractLsb' 0 4 = 0 ∨ 8 ≤ (v.extractLsb' 0 4).toNat) (i : Instr) :
    decodeCmd v ≠ .command i := by
  unfold decodeCmd
  split
  · rename_i hz
    rw [opCommand_reserved (cmdFields v).op (h.resolve_left fun hne => hne hz)]
    exact Verdict.noConfusion
  · exact Verdict.noConfusion

/-- Settles O4: with nothing scheduled the unit moves, and its move on an illegal word raises ERR_ILLEGAL. -/
theorem illegalWordCompletes : Obligations.IllegalWordCompletes := by
  intro s v hsched hq hill
  rw [step_unscheduled hsched, defaultMove_underWay hq]
  exact (unitMove_runWord hq).trans (runWord_illegal (decodeCmd_illegal hill) s)

theorem decodeCmd_of_tableWord {w : Nat} {i : Instr} (h : decodeTableWord 32 w = some i) :
    decodeCmd (BitVec.ofNat 32 (w % 2 ^ 32)) = .command i := by
  unfold decodeTableWord at h
  split at h
  · split at h
    · rename_i hd; cases h; exact hd
    · cases h
    · cases h
  · cases h

/-- Settles O6: the unit's move is next, scheduled or by default, and stands at the word's start. -/
theorem fetchedWordRunsNext : Obligations.FetchedWordRunsNext := by
  intro s w i hw
  have hseq : (s.withFetchWord 32 w).seq = some (Seq.start (BitVec.ofNat 32 (w % 2 ^ 32))) := by
    simp [State.withFetchWord]
  have hv := decodeCmd_of_tableWord hw
  cases hs : s.sched with
  | nil =>
    have hsched : (s.withFetchWord 32 w).sched = [] := by simp [State.withFetchWord, hs, unitNext]
    rw [step_unscheduled hsched, defaultMove_underWay hseq, ← hsched]
    exact unitMove_start hseq hv
  | cons m ms =>
    have hsched : (s.withFetchWord 32 w).sched = .unit :: m :: ms := by simp [State.withFetchWord, hs, unitNext]
    rw [step_scheduled hsched]
    exact unitMove_start (s := { s.withFetchWord 32 w with sched := m :: ms }) hseq hv

/-- Acceptance empties the sink for ENCODE's word alone (R40). -/
theorem acceptCmd_eq (v : Word) (s : State) : s.acceptCmd v = { s with
    status := Status.running, seq := some (Seq.start v), host := { s.host with polled := false }
    outHeld := if v = 6 then false else s.outHeld
    out := if v = 6 then [] else s.out
    outLen := if v = 6 then 0 else s.outLen } := by
  by_cases h : v = 6
  · subst h; rfl
  · have hne : decodeCmd v ≠ .command .encode := fun e => h ((decodeCmd_eq_command_iff v .encode).1 e)
    have hfresh : s.freshSinkFor (decodeCmd v) = s := by
      unfold State.freshSinkFor
      split
      · rename_i hv; exact absurd hv hne
      · rfl
    rw [State.acceptCmd, hfresh, if_neg h, if_neg h, if_neg h]
    rfl

/-- Settles O7: with BUSY = 0 the write is the acceptance of its word, with BUSY = 1 it is lost. -/
theorem cmdWriteIssuesCommand : Obligations.CmdWriteIssuesCommand :=
  fun s v => ⟨fun hidle => (busWrite_regOffset .cmd v s hidle).trans (congrArg _ (acceptCmd_eq v s)),
    fun hbusy => busWrite_busy .cmd v hbusy, rfl⟩

/-! ### Host reads of IMG_PIX and OUT (R37, R51) -/

/-- Settles O59: a pixel is shown if its place exists, a byte of OUT if its position does. -/
theorem hostReadsPixelsAndOut : Obligations.HostReadsPixelsAndOut := by
  refine fun s => ⟨fun hidle hpolled r c => ?_, fun p b hb => ?_, fun p hp => ?_⟩
  · have hfree : ¬ s.unitOwns = true := by simp [State.unitOwns, hidle, hpolled]
    refine ⟨fun hr hc hfit => (if_neg hfree).trans (if_pos ?_), fun houtside => (if_neg hfree).trans (if_neg ?_)⟩
    · simp [State.pixelExists, State.imgFits, hr, hc, hfit]
    · simp only [State.pixelExists, State.imgFits, Bool.and_eq_true, decide_eq_true_eq]
      omega
  · simp only [hostMove, hb]
  · simp only [hostMove, List.getElem?_eq_none hp]

/-! ### Everything a move of the host but reset can do -/

/-- What a host move other than reset makes of the state s, when it answers a next state. -/
inductive HostEffect (s : State) : State → Prop
  /-- A register write that was not lost (R31), by a direct move or by line n - 1 of the host program. -/
  | wrote (r : Reg) (v : Word) (n : Nat) : s.status.busy = false → HostEffect s (regWrite r v (s.atLine n))
  /-- The host's own fields change, and a read may spend a draw; only a poll that shows BUSY = 0 counts (R130). -/
  | agent (h : HostAgent) (d : Nat) : (h.polled = s.host.polled ∨ s.status.busy = false) →
      (Memory.wf s.host.temps = true → Memory.wf h.temps = true) → HostEffect s { s with host := h, draws := d }
  | placedByte (a : Nat) (b : Byte) : a < 2 ^ 64 → HostEffect s { s with inMem := Memory.set s.inMem a b }
  | placedPixel (k : Nat) (px : Pixel) : k < s.params.imgMaxPixels →
      HostEffect s { s with imgPix := Memory.set s.imgPix k px }
  | answered (a : SinkAnswer) : HostEffect s { s with acks := s.acks ++ [a] }

/-- A move that leaves the state as it is. -/
theorem HostEffect.refl (s : State) : HostEffect s s :=
  .agent s.host s.draws (.inl rfl) id

theorem HostEffect.atLine (s : State) (n : Nat) : HostEffect s (s.atLine n) :=
  .agent { s.host with pc := n } s.draws (.inl rfl) id

theorem hostEffect_of_busWrite {s t : State} {n off bytes : Nat} {v : Word}
    (h : busWrite off bytes v (s.atLine n) = .next t) : HostEffect s t := by
  unfold busWrite at h
  split at h
  · split at h
    · cases h; exact .atLine s n
    · rename_i hbusy
      split at h
      · cases h; exact .atLine s n
      · rename_i r _
        cases h; exact .wrote r v n (Bool.not_eq_true _ ▸ hbusy)
  · cases h

/-- A read leaves the host with the word it has seen, and puts it nowhere else. -/
theorem busRead_cases {s t : State} {off bytes : Nat} (h : busRead off bytes s = .next t) :
    ∃ d p, (p = s.host.polled ∨ s.status.busy = false) ∧ ∃ o,
      t = { s with host := { s.host with polled := p, seen := some o }, draws := d } := by
  unfold busRead at h
  split at h
  · cases h
    obtain he | he | ⟨hidle, he⟩ := busReadState_cases off s
    · rw [he]; exact ⟨s.draws, s.host.polled, .inl rfl, _, rfl⟩
    · rw [he]; exact ⟨s.draws + 1, s.host.polled, .inl rfl, _, rfl⟩
    · rw [he]; exact ⟨s.draws, true, .inr hidle, _, rfl⟩
  · cases h

theorem hostEffect_of_hostLine {s t : State} (h : hostLine s = .next t) : HostEffect s t := by
  unfold hostLine at h
  split at h
  · cases h; exact .refl s
  · exact hostEffect_of_busWrite h
  · rename_i r x _
    cases hread : busRead (regOffset r) 4 (s.atLine (s.host.pc + 1)) with
    | next u =>
      rw [hread] at h
      cases h
      obtain ⟨d, p, hp, o, rfl⟩ := busRead_cases hread
      exact .agent _ d hp fun hwf => Memory.wf_set hwf _ _
    | fault e => rw [hread] at h; cases h
    | refused e => rw [hread] at h; cases h
  · cases h; exact .agent _ s.draws (.inl rfl) fun hwf => Memory.wf_set hwf _ _
  · split at h
    · cases h; exact .atLine s _
    · split at h
      · cases h; exact .atLine s _
      · cases h
  · cases h; exact .atLine s _

theorem hostEffect_of_hostMove {a : HostAction} {s t : State} (ha : a ≠ .reset) (h : hostMove a s = .next t) :
    HostEffect s t := by
  cases a with
  | reset => exact absurd rfl ha
  | line => exact hostEffect_of_hostLine h
  | answer a => cases h; exact .answered a
  | write off bytes v => exact hostEffect_of_busWrite (n := s.host.pc) h
  | read off bytes =>
    obtain ⟨d, p, hp, o, rfl⟩ := busRead_cases h
    exact .agent _ d hp id
  | readOut p =>
    simp only [hostMove] at h
    split at h
    · cases h; exact .agent _ s.draws (.inl rfl) id
    · cases h
  | putIn x b =>
    simp only [hostMove] at h
    split_ifs at h with _ hx
    cases h; exact .placedByte x b hx
  | putPixel w r c px =>
    simp only [hostMove] at h
    split_ifs at h with _ hcell
    cases h; exact .placedPixel _ px (by simpa [State.cellExists] using (Bool.and_eq_true_iff.1 hcell).2)
  | readPixel r c =>
    simp only [hostMove] at h
    split_ifs at h
    cases h; exact .agent _ s.draws (.inl rfl) id

/-! ### Every move keeps the invariant -/

theorem State.Inv.seq_eq_none {s : State} (hs : s.Inv) (h : s.status.busy = false) : s.seq = none := by
  simpa [h] using hs.busyIffSeq

theorem seqInBounds_seqStart (s : State) (v : Word) : s.seqInBounds (Seq.start v) := rfl

/-- While BUSY = 0 a host write issues a command or changes a register the invariant does not speak of. -/
theorem State.Inv.regWrite {s : State} (hs : s.Inv) (hidle : s.status.busy = false) (r : Reg) (v : Word) :
    (regWrite r v s).Inv := by
  by_cases hr : r = .cmd
  · subst hr
    have hm : (s.acceptCmd v).MemoriesOk :=
      { inMem := State.acceptCmd_inMem s v ▸ hs.memories.inMem
        imgPix := by rw [State.acceptCmd_params, State.acceptCmd_imgPix]; exact hs.memories.imgPix
        temps := by rw [State.acceptCmd_host]; exact hs.tempsWf
        capacity := State.acceptCmd_params s v ▸ hs.capacity }
    exact hm.underWay (by rw [State.acceptCmd_status]; rfl) (by rw [State.acceptCmd_status]; rfl)
      (by rw [State.acceptCmd_host]) (State.acceptCmd_seq s v) (seqInBounds_seqStart _ v)
  · obtain ⟨hstatus, hseq, hin, _, _, himg, hpar, _, hhost, _⟩ := regWrite_frame hr v s
    have hm : (Machine.regWrite r v s).MemoriesOk :=
      { inMem := hin ▸ hs.memories.inMem
        imgPix := by rw [himg, hpar]; exact hs.memories.imgPix
        temps := hhost ▸ hs.tempsWf
        capacity := hpar ▸ hs.capacity }
    exact hm.idle (hstatus ▸ hs.statusLegal) (hstatus ▸ hidle) (hseq.trans (hs.seq_eq_none hidle))

/-- The invariant speaks of the host's temporaries and, while BUSY = 1, of its poll. -/
theorem State.Inv.agent {s : State} (hs : s.Inv) {h : HostAgent} (d : Nat)
    (hpolled : h.polled = s.host.polled ∨ s.status.busy = false) (htemps : Memory.wf h.temps = true) :
    ({ s with host := h, draws := d } : State).Inv :=
  { hs with
    busyUnpolled := fun hb => by
      obtain hp | hidle := hpolled
      · exact hp.trans (hs.busyUnpolled hb)
      · exact absurd (hidle.symm.trans hb) Bool.false_ne_true
    tempsWf := htemps
    seqOk := hs.seqOk }

/-- A move of the host other than reset keeps the invariant. -/
theorem State.Inv.hostEffect {s t : State} (hs : s.Inv) (h : HostEffect s t) : t.Inv := by
  cases h with
  | wrote r v n hidle =>
    have hline : (s.atLine n).Inv := hs.agent s.draws (.inl rfl) hs.tempsWf
    exact hline.regWrite hidle r v
  | agent h d hpolled htemps => exact hs.agent d hpolled (htemps hs.tempsWf)
  | placedByte a b ha =>
    have hin := hs.memories.inMem.set ha b
    exact { hs with inWf := hin.1, inBound := hin.2, seqOk := hs.seqOk }
  | placedPixel k px hk =>
    have himg := hs.memories.imgPix.set hk px
    exact { hs with imgWf := himg.1, imgBound := himg.2, seqOk := hs.seqOk }
  | answered a => exact { hs with seqOk := hs.seqOk }

/-- What a reset makes of OUT and IMG_PIX leaves the memories as the invariant has them (R125). -/
theorem State.MemoriesOk.abortEffects {s : State} (hs : s.MemoriesOk) (v : Word) : (s.abortEffects v).MemoriesOk := by
  unfold State.abortEffects
  split
  · exact { hs with }
  · obtain ⟨e, t, _, _, hb⟩ | ⟨hc, _, hb⟩ := decode_cases s
    · rw [hb]; exact { hs with }
    · have himg := hs.imgPix.landedPixels (d := s.draws) (new := s.decodeDone.imgPix) (decodeReady_fits hc)
      rw [hb]
      exact ⟨hs.inMem, himg, hs.temps, hs.capacity⟩
  · exact hs

theorem State.Inv.resetRegs {s : State} (hs : s.MemoriesOk) : s.resetRegs.Inv :=
  State.MemoriesOk.idle { hs with } rfl rfl rfl

/-- A reset keeps the invariant, whatever it stops (R124, R125). -/
theorem State.Inv.applyReset {s : State} (hs : s.Inv) : s.applyReset.Inv := by
  unfold State.applyReset
  split
  · exact .resetRegs hs.memories
  · split
    · exact .resetRegs (hs.memories.abortEffects _)
    · exact .resetRegs hs.memories
    · exact .resetRegs hs.memories
    · exact .resetRegs { hs.memories with }
    · exact .resetRegs { hs.memories with }

/-- Every move that answers a next state is a wait, a move of the unit, a reset, or another move of the host. -/
theorem runMove_cases {m : Move} {s t : State} (h : runMove m s = .next t) :
    t = s ∨ (∃ q, s.seq = some q ∧ UnitEffect q s t) ∨ (m = .host .reset ∧ t = s.applyReset) ∨ HostEffect s t := by
  cases m with
  | unit =>
    cases hq : s.seq with
    | none => simp only [runMove, unitMove, hq] at h; cases h; exact .inl rfl
    | some q => exact .inr (.inl ⟨q, rfl, unitEffect_of_unitMove hq h⟩)
  | tick =>
    cases hq : s.seq with
    | none => simp only [runMove, tick, hq] at h; cases h; exact .inl rfl
    | some q => exact .inr (.inl ⟨q, rfl, unitEffect_of_tick hq h⟩)
  | host a =>
    by_cases ha : a = .reset
    · subst ha; cases h; exact .inr (.inr (.inl ⟨rfl, rfl⟩))
    · exact .inr (.inr (.inr (hostEffect_of_hostMove ha h)))

theorem State.Inv.runMove {m : Move} {s t : State} (hs : s.Inv) (h : runMove m s = .next t) : t.Inv := by
  obtain rfl | ⟨q, hq, heff⟩ | ⟨_, rfl⟩ | heff := runMove_cases h
  · exact hs
  · exact hs.unitEffect hq heff
  · exact hs.applyReset
  · exact hs.hostEffect heff

/-- Settles O52: a step is one move, and the schedule it is taken from is no part of the invariant. -/
theorem stepKeepsInvariant : Obligations.StepKeepsInvariant := by
  intro s t hs h
  cases hsched : s.sched with
  | nil => exact hs.runMove (step_unscheduled hsched ▸ h)
  | cons m ms =>
    have hs' : ({ s with sched := ms } : State).Inv := { hs with seqOk := hs.seqOk }
    exact hs'.runMove (step_scheduled hsched ▸ h)

/-- Settles O51: at reset the memories list nothing, and the capacity is log 3's. -/
theorem resetMeetsInvariant : Obligations.ResetMeetsInvariant := by
  obtain ⟨hin, himg, htemps⟩ := State.reset_memories_wf
  have hm : State.reset.MemoriesOk := ⟨⟨hin, List.forall_mem_nil _⟩, ⟨himg, List.forall_mem_nil _⟩, htemps, by decide⟩
  exact hm.idle rfl rfl rfl

/-! ### Only STRIDE and reset write STRIDE's results (R20, R21) -/

theorem HostEffect.strides {s t : State} (h : HostEffect s t) :
    t.strideLo = s.strideLo ∧ t.strideHi = s.strideHi ∧ t.padOut = s.padOut := by
  cases h with
  | wrote r v n => exact regWrite_strides r v (s.atLine n)
  | _ => exact ⟨rfl, rfl, rfl⟩

/-- A move that is no reset and of no STRIDE leaves the three registers alone. -/
theorem runMove_strides {m : Move} {s t : State} (h : runMove m s = .next t) :
    (∃ q, s.seq = some q ∧ q.word = 5) ∨ m = .host .reset ∨
      (t.strideLo = s.strideLo ∧ t.strideHi = s.strideHi ∧ t.padOut = s.padOut) := by
  obtain rfl | ⟨q, hq, heff⟩ | ⟨hm, _⟩ | heff := runMove_cases h
  · exact .inr (.inr ⟨rfl, rfl, rfl⟩)
  · by_cases hv : decodeCmd q.word = .command .stride
    · exact .inl ⟨q, hq, (decodeCmd_eq_command_iff _ _).1 hv⟩
    · exact .inr (.inr (heff.kept.strides hv))
  · exact .inr (.inl hm)
  · exact .inr (.inr heff.strides)

theorem defaultMove_ne_reset (s : State) : defaultMove s ≠ .host .reset := by
  unfold defaultMove
  split
  · decide
  · decide

/-- Settles O54: a step is one move, and the default move is no reset. -/
theorem onlyStrideWritesItsResults : Obligations.OnlyStrideWritesItsResults := by
  intro s t h hchange
  have changed : ¬ (t.strideLo = s.strideLo ∧ t.strideHi = s.strideHi ∧ t.padOut = s.padOut) := by
    rintro ⟨hlo, hhi, hpad⟩
    obtain hne | hne | hne := hchange
    · exact hne hlo
    · exact hne hhi
    · exact hne hpad
  cases hsched : s.sched with
  | nil =>
    obtain hword | hreset | hsame := runMove_strides (step_unscheduled hsched ▸ h)
    · exact .inl hword
    · exact absurd hreset (defaultMove_ne_reset s)
    · exact absurd hsame changed
  | cons m ms =>
    obtain hword | hreset | hsame := runMove_strides (step_scheduled hsched ▸ h)
    · exact .inl hword
    · exact .inr (congrArg some hreset)
    · exact absurd hsame changed

end Sys2Proof.Machine

/-! PROOF. The statements about the memories: the accesses and placements that are refused, what the host's placements
of bytes and pixels are read back as, and that the sequencer stays inside IN and IMG_PIX. -/

namespace Sys2Proof.Machine

/-! ### Accesses to REG that are no whole aligned word of the space (R15, R38) -/

theorem busAccessOk_odd {off bytes : Nat} (h : bytes ≠ 4 ∨ off % 4 ≠ 0 ∨ 256 ≤ off) :
    ¬ busAccessOk off bytes = true := by
  simp only [busAccessOk, Bool.and_eq_true, beq_iff_eq, decide_eq_true_eq]
  omega

/-- Settles O17: a bus access looks at its width and offset before anything else. -/
theorem oddAccessRefused : Obligations.OddAccessRefused :=
  fun _ _ _ _ h => ⟨if_neg (busAccessOk_odd h), if_neg (busAccessOk_odd h)⟩

/-! ### The host's placements (R37, R41, R128) -/

/-- Once the host has polled a completed command the memories are its own (R128). -/
theorem State.not_unitOwns {s : State} (hidle : s.status.busy = false) (hpolled : s.host.polled = true) :
    ¬ s.unitOwns = true := by
  simp [State.unitOwns_iff, hidle, hpolled]

theorem State.cellExists_iff (s : State) (w r c : Nat) :
    s.cellExists w r c = true ↔ w < 2 ^ 32 ∧ r < 2 ^ 32 ∧ c < w ∧ r * w + c < s.params.imgMaxPixels := by
  simp only [State.cellExists, Bool.and_eq_true, decide_eq_true_eq, and_assoc]
  rfl

/-- Settles O58: a place outside these bounds has no cell, and a canonical memory lists no more keys than its bound. -/
theorem imageMemoryCapacity : Obligations.ImageMemoryCapacity := by
  refine ⟨fun s w r c px hidle hpolled hout => ?_, fun s hs => Memory.length_le hs.imgWf hs.imgBound⟩
  have hcell : ¬ s.cellExists w r c = true := by rw [s.cellExists_iff]; omega
  exact (if_neg (State.not_unitOwns hidle hpolled)).trans (if_neg hcell)

/-- An address of IN after a byte has been placed: the byte, or what it read as. -/
theorem State.inByte_set (s : State) (a : Nat) (b : Byte) (x : Nat) :
    ({ s with inMem := Memory.set s.inMem a b } : State).inByte x = if x = a then b else s.inByte x := by
  unfold State.inByte
  by_cases h : x = a
  · subst h; simp
  · simp only [if_neg h, Memory.get?_set_ne _ _ h]

/-- Settles O19: the written key is read back, and inside a row of the image no other pixel has its cell. -/
theorem hostPlacesBytesAndPixels : Obligations.HostPlacesBytesAndPixels := by
  refine fun s hidle hpolled => ⟨fun a b ha => ?_, fun w r c px hw hr hc hcap => ?_⟩
  · exact ⟨_, (if_neg (State.not_unitOwns hidle hpolled)).trans (if_pos ha), s.inByte_set a b, rfl⟩
  · have hcell : s.cellExists w r c = true := (s.cellExists_iff w r c).2 ⟨hw, hr, hc, hcap⟩
    refine ⟨_, (if_neg (State.not_unitOwns hidle hpolled)).trans (if_pos hcell), rfl,
      s.imgCell_set (pixelCell w r c) px, fun v x y hv hy => ?_⟩
    subst hv
    have hread := ({ s with imgW := v } : State).imgCell_set (pixelCell v.toNat r c) px (pixelCell v.toNat x y)
    exact hread.trans (if_congr (pixelCell_inj hy hc) rfl rfl)

/-! ### Two states alike below IN_LEN and inside the image (R39, R41) -/

/-- The state with IN's cells m and IMG_PIX's cells p. -/
def State.withMemories (s : State) (m : List Host.Cell) (p : List (Nat × Pixel)) : State :=
  { s with inMem := m, imgPix := p }

/-- With the memories m and p the state reads alike in every byte below IN_LEN and every pixel of the image. -/
structure State.AlikeInside (s : State) (m : List Host.Cell) (p : List (Nat × Pixel)) : Prop where
  inByte : ∀ a, a < s.inLen → (s.withMemories m p).inByte a = s.inByte a
  imgRead : ∀ r c, r < s.imgH.toNat → c < s.imgW.toNat → (s.withMemories m p).imgRead r c = s.imgRead r c

/-- The outcomes of one move from the state s and from s with the memories m and p: one fault, or next states alike in
all but the memories, which both are as they were or have the same pixel stored in one cell of the image. -/
inductive State.AlikeMoves (s : State) (m : List Host.Cell) (p : List (Nat × Pixel)) :
    Host.Outcome State Fault Refusal → Host.Outcome State Fault Refusal → Prop
  | fault (e : Fault) : s.AlikeMoves m p (.fault e) (.fault e)
  | kept {t : State} : t.inMem = s.inMem → t.imgPix = s.imgPix → s.AlikeMoves m p (.next t) (.next (t.withMemories m p))
  | stored {t : State} (k : Nat) (px : Pixel) : k < s.imgW.toNat * s.imgH.toNat → t.inMem = s.inMem →
      t.imgPix = Memory.set s.imgPix k px →
      s.AlikeMoves m p (.next t) (.next (t.withMemories m (Memory.set p k px)))

/-- The state of an operation's end with the memories m and p. -/
def CmdEnd.withMemories (r : CmdEnd) (m : List Host.Cell) (p : List (Nat × Pixel)) : CmdEnd :=
  { r with st := r.st.withMemories m p }

section
variable {s : State} {m : List Host.Cell} {p : List (Nat × Pixel)}

theorem State.answered_withMemories (s : State) (m : List Host.Cell) (p : List (Nat × Pixel)) :
    (s.withMemories m p).answered = s.answered.withMemories m p := by
  rw [State.answered_eq, State.answered_eq]; rfl

/-- The header read takes the first 54 bytes alone (R96). -/
theorem State.AlikeInside.loadHeaders (h : s.AlikeInside m p) (hlen : 54 ≤ s.inLen) :
    (s.withMemories m p).loadHeaders = s.loadHeaders.withMemories m p := by
  have hread : (s.withMemories m p).memRead 0 54 = s.memRead 0 54 :=
    memRead_congr fun j hj => h.inByte _ (by omega)
  unfold State.loadHeaders
  rw [hread]
  rfl

/-- The header checks look at the headers, IN_LEN and the capacity (R97 to R104). -/
theorem State.AlikeInside.headerVerdict (h : s.AlikeInside m p) (hlen : 54 ≤ s.inLen) :
    (s.withMemories m p).headerVerdict = s.headerVerdict := by
  unfold State.headerVerdict
  rw [h.loadHeaders hlen]
  rfl

theorem decodePrepare_rejected {s : State} {e : ErrCode} (hr : s.inReady ≠ 0) (hl : ¬ s.inLen < 54)
    (hc : s.headerVerdict = some e) : decodePrepare s = decodeFail e s.loadHeaders := by
  unfold State.headerVerdict at hc
  simp only [decodePrepare, if_neg hr, if_neg hl, hc]

theorem decodePrepare_ready {s : State} (hr : s.inReady ≠ 0) (hl : ¬ s.inLen < 54) (hc : s.headerVerdict = none) :
    decodePrepare s = { ending := .ok, st := s.decodeReady } := by
  unfold State.headerVerdict at hc
  simp only [decodePrepare, if_neg hr, if_neg hl, hc, State.decodeReady]

/-- DECODE's checks read the headers only once IN_LEN covers them (R95, R96). -/
theorem State.AlikeInside.decodePrepare (h : s.AlikeInside m p) :
    decodePrepare (s.withMemories m p) = (decodePrepare s).withMemories m p := by
  obtain ⟨hr, hd⟩ | ⟨hr, hl, hd⟩ | ⟨hr, hl, e, hc, hd⟩ | ⟨hr, hl, hc, hd⟩ := decodePrepare_cases s <;> rw [hd]
  · exact if_pos hr
  · exact (if_neg hr).trans (if_pos hl)
  · rw [decodePrepare_rejected (s := s.withMemories m p) hr hl.not_gt ((h.headerVerdict hl).trans hc),
      h.loadHeaders hl]
    rfl
  · rw [decodePrepare_ready (s := s.withMemories m p) hr hl.not_gt ((h.headerVerdict hl).trans hc),
      State.decodeReady, h.loadHeaders hl]
    rfl

/-! ### Each move of the sequencer from both states -/

/-- The first move: the checks and, of DECODE, the header read; a command of no loop runs whole (R83, R94). -/
theorem State.AlikeInside.tickStart (h : s.AlikeInside m p) (q : Seq) :
    s.AlikeMoves m p (tickStart q s) (tickStart q (s.withMemories m p)) := by
  unfold Machine.tickStart
  cases decodeCmd q.word with
  | zeroFieldSet | reservedOp => exact .kept rfl rfl
  | command i =>
    cases i with
    | encode =>
      have hcheck : encodeCheck (s.withMemories m p) = encodeCheck s := rfl
      simp only [encodePrepare, hcheck]
      cases encodeCheck s with
      | none => exact .kept rfl rfl
      | some e => exact .kept rfl rfl
    | decode =>
      simp only [h.decodePrepare]
      obtain ⟨e, t, rfl | rfl, hprep, _⟩ | ⟨_, hprep, _⟩ := decode_cases s
      all_goals rw [hprep]; exact .kept rfl rfl
    | fhUnpack | fhPack | ihUnpack | ihPack | stride => exact .kept rfl rfl

variable {q : Seq}

/-- ENCODE offers from its row buffer (R40). -/
theorem alikeMoves_offer (hp : q.pos = .offer) :
    s.AlikeMoves m p (tick (s.atSeq q)) (tick ((s.withMemories m p).atSeq q)) := by
  cases hr : q.row with
  | nil =>
    by_cases hk : q.k < s.imgH.toNat
    · rw [tick_offer_nextRow s hp hr hk, tick_offer_nextRow (s.withMemories m p) hp hr hk]
      exact .kept rfl rfl
    · rw [tick_offer_done s hp hr hk, tick_offer_done (s.withMemories m p) hp hr hk]
      exact .kept rfl rfl
  | cons b bs =>
    cases ha : s.answerAt 0 with
    | accept =>
      rw [tick_offer_accepted s hp hr ha, tick_offer_accepted (s.withMemories m p) hp hr ha]
      exact .kept rfl rfl
    | fail =>
      rw [tick_offer_refused s hp hr ha, tick_offer_refused (s.withMemories m p) hp hr ha,
        State.answered_withMemories]
      exact .kept s.answered_inMem s.answered_imgPix
    | never =>
      rw [tick_offer_silent s hp hr ha, tick_offer_silent (s.withMemories m p) hp hr ha]
      exact .fault _

/-- ENCODE reads a pixel of the image (R90). -/
theorem State.AlikeInside.gather (h : s.AlikeInside m p) (hp : q.pos = .gather) (hb : s.seqInBounds q) :
    s.AlikeMoves m p (tick (s.atSeq q)) (tick ((s.withMemories m p).atSeq q)) := by
  obtain ⟨_, _, hk, _⟩ := (seqInBounds_gather hp).1 hb
  by_cases hc : q.c < s.imgW.toNat
  · have hread := h.imgRead (s.imgH.toNat - 1 - q.k) q.c (by omega) hc
    rw [tick_gather_pixel s hp hc, ← hread, tick_gather_pixel (s.withMemories m p) hp hc]
    exact .kept rfl rfl
  · rw [tick_gather_padding s hp hc, tick_gather_padding (s.withMemories m p) hp hc]
    exact .kept rfl rfl

/-- DECODE reads the 3·w bytes of on-disk row k, which ends below IN_LEN (R103, R106). -/
theorem State.AlikeInside.fetch (h : s.AlikeInside m p) (hp : q.pos = .fetch) (hb : s.seqInBounds q) :
    s.AlikeMoves m p (tick (s.atSeq q)) (tick ((s.withMemories m p).atSeq q)) := by
  obtain ⟨_, _, _, _, hpos, hlen⟩ := (seqInBounds_fetch hp).1 hb
  by_cases hk : q.k < s.imgH.toNat
  · have hrow := row_le (w := stride s.imgW.toNat) hk
    have hstride := stride_eq s.imgW.toNat
    have hread : (s.withMemories m p).memRead q.p (3 * s.imgW.toNat) = s.memRead q.p (3 * s.imgW.toNat) :=
      memRead_congr fun j hj => h.inByte _ (by omega)
    rw [tick_fetch_row s hp hk, ← hread, tick_fetch_row (s.withMemories m p) hp hk]
    exact .kept rfl rfl
  · rw [tick_fetch_done s hp hk, tick_fetch_done (s.withMemories m p) hp hk]
    exact .kept rfl rfl

/-- DECODE stores a pixel of its row buffer in a cell of the image (R106). -/
theorem alikeMoves_store (hp : q.pos = .store) (hb : s.seqInBounds q) :
    s.AlikeMoves m p (tick (s.atSeq q)) (tick ((s.withMemories m p).atSeq q)) := by
  obtain ⟨_, _, hk, _⟩ := (seqInBounds_store hp).1 hb
  by_cases hc : q.c < s.imgW.toNat
  · have hcell : pixelCell s.imgW.toNat (s.imgH.toNat - 1 - q.k) q.c < s.imgW.toNat * s.imgH.toNat :=
      pixelCell_lt (by omega) hc
    rw [tick_store_pixel s hp hc, tick_store_pixel (s.withMemories m p) hp hc]
    exact .stored _ _ hcell rfl rfl
  · rw [tick_store_padding s hp hc, tick_store_padding (s.withMemories m p) hp hc]
    exact .kept rfl rfl

/-- Under the invariant every move of the sequencer is alike from both states. -/
theorem State.AlikeInside.tick (h : s.AlikeInside m p) (hs : s.Inv) :
    s.AlikeMoves m p (tick s) (tick (s.withMemories m p)) := by
  cases hq : s.seq with
  | none =>
    have hq' : (s.withMemories m p).seq = none := hq
    simp only [Machine.tick, hq, hq']
    exact .kept rfl rfl
  | some q =>
    have hq' : (s.withMemories m p).seq = some q := hq
    have hb := hs.seqOk q hq
    cases hp : q.pos with
    | start =>
      rw [tick_start hq hp, tick_start hq' hp]
      exact h.tickStart q
    | offer =>
      simpa only [State.atSeq_self hq, State.atSeq_self hq'] using alikeMoves_offer (s := s) (m := m) (p := p) hp
    | gather => simpa only [State.atSeq_self hq, State.atSeq_self hq'] using h.gather hp hb
    | fetch => simpa only [State.atSeq_self hq, State.atSeq_self hq'] using h.fetch hp hb
    | store => simpa only [State.atSeq_self hq, State.atSeq_self hq'] using alikeMoves_store (m := m) (p := p) hp hb

/-! ### What alike moves say of the memories -/

theorem State.AlikeMoves.of_fault {e : Fault} {o : Host.Outcome State Fault Refusal}
    (h : s.AlikeMoves m p (.fault e) o) : o = .fault e := by
  cases h; rfl

theorem State.imgCell_congr {s t : State} (h : t.imgPix = s.imgPix) (i : Nat) : t.imgCell i = s.imgCell i := by
  unfold State.imgCell; rw [h]

theorem State.AlikeMoves.of_next {t : State} {o : Host.Outcome State Fault Refusal} (h : s.AlikeMoves m p (.next t) o) :
    t.inMem = s.inMem ∧ (∀ i, s.imgW.toNat * s.imgH.toNat ≤ i → t.imgCell i = s.imgCell i) ∧
      ∃ t', o = .next t' ∧ t' = { t with inMem := m, imgPix := t'.imgPix } ∧
        ∀ i, t'.imgCell i = t.imgCell i ∨ (t'.imgCell i = (s.withMemories m p).imgCell i ∧ t.imgCell i = s.imgCell i) := by
  cases h with
  | kept hin himg =>
    have hcell := State.imgCell_congr himg
    exact ⟨hin, fun i _ => hcell i, _, rfl, rfl, fun i => .inr ⟨rfl, hcell i⟩⟩
  | stored k px hk hin himg =>
    have hcell : ∀ i, t.imgCell i = if i = k then px else s.imgCell i := fun i =>
      (State.imgCell_congr (s := { s with imgPix := Memory.set s.imgPix k px }) himg i).trans (s.imgCell_set k px i)
    have hcell' : ∀ i, (t.withMemories m (Memory.set p k px)).imgCell i =
        if i = k then px else (s.withMemories m p).imgCell i := (s.withMemories m p).imgCell_set k px
    refine ⟨hin, fun i hi => (hcell i).trans (if_neg (by omega)), _, rfl, rfl, fun i => ?_⟩
    by_cases hi : i = k
    · exact .inl (by rw [hcell, hcell', if_pos hi, if_pos hi])
    · exact .inr ⟨(hcell' i).trans (if_neg hi), (hcell i).trans (if_neg hi)⟩

end

/-- Settles O53: from two states alike inside IN_LEN and the image, the sequencer's bounds make every move alike, and the
one cell a move may write is of the image. -/
theorem sequencerStaysInside : Obligations.SequencerStaysInside := by
  intro s m p hs s' hin himg
  have moves : s.AlikeMoves m p (tick s) (tick s') := State.AlikeInside.tick ⟨hin, himg⟩ hs
  exact ⟨fun e he => (he ▸ moves).of_fault, fun t ht => (ht ▸ moves).of_next⟩

end Sys2Proof.Machine

/-! PROOF. The statements about encodings: the opcode map read as words, the bytes of the encoded file, the lines of a
host program, and R60's table of what each command writes. -/

namespace Sys2Proof.Machine

/-! ### The opcode map (R55, R56) -/

/-- Settles O1: a command has one word, and this is it. -/
theorem commandWordsDecode : Obligations.CommandWordsDecode :=
  fun v => ⟨decodeCmd_eq_command_iff v .fhUnpack, decodeCmd_eq_command_iff v .fhPack,
    decodeCmd_eq_command_iff v .ihUnpack, decodeCmd_eq_command_iff v .ihPack, decodeCmd_eq_command_iff v .stride,
    decodeCmd_eq_command_iff v .encode, decodeCmd_eq_command_iff v .decode⟩

theorem decodeCmd_encode (i : Instr) : decodeCmd (encode i) = .command i :=
  (decodeCmd_eq_command_iff _ i).2 rfl

/-- Settles O2: the encoder's word is the command's one word. -/
theorem decodeEncodeAgree : Obligations.DecodeEncodeAgree :=
  decodeCmd_encode

/-- A row of the opcode table holds its command's word (R59). -/
theorem decodeTableWord_encode (i : Instr) : decodeTableWord 32 (encode i).toNat = some i := by
  have hword : (encode i).toNat % 2 ^ 32 = (encode i).toNat := Nat.mod_eq_of_lt (encode i).isLt
  simp only [decodeTableWord, hword, if_pos (encode i).isLt, BitVec.ofNat_toNat, BitVec.setWidth_eq, decodeCmd_encode]

/-- A table word of no command is no row's. -/
theorem decodeTableWord_eq_none {w : Nat} (h : ∀ i, decodeCmd (BitVec.ofNat 32 (w % 2 ^ 32)) ≠ .command i) :
    decodeTableWord 32 w = none :=
  Option.eq_none_iff_forall_ne_some.2 fun i hi => h i (decodeCmd_of_tableWord hi)

/-- Settles O3: the five rows are words of commands, and the last word has a bit of ZERO set. -/
theorem tableWordsDecode : Obligations.TableWordsDecode :=
  ⟨decodeTableWord_encode .fhUnpack, decodeTableWord_encode .ihPack, decodeTableWord_encode .stride,
    decodeTableWord_encode .encode, decodeTableWord_encode .decode,
    decodeTableWord_eq_none (decodeCmd_illegal (.inl (by decide)))⟩

/-! ### Blocks of one length, one after another -/

section
variable {α : Type} {m : Nat} {f : Nat → List α}

theorem length_flatMap_range (hf : ∀ k, (f k).length = m) (n : Nat) :
    ((List.range n).flatMap f).length = n * m := by
  simp [List.length_flatMap, hf]

/-- Entry j of block k stands at k · m + j. -/
theorem getElem?_flatMap_range (hf : ∀ k, (f k).length = m) {n k j : Nat} (hk : k < n) (hj : j < m) :
    ((List.range n).flatMap f)[k * m + j]? = (f k)[j]? := by
  induction n with
  | zero => omega
  | succ n ih =>
    have hlen := length_flatMap_range hf n
    rw [List.range_succ, List.flatMap_append, List.flatMap_singleton]
    rcases Nat.lt_succ_iff_lt_or_eq.1 hk with hlt | rfl
    · have hrow := row_le (w := m) hlt
      rw [List.getElem?_append_left (by omega), ih hlt]
    · rw [List.getElem?_append_right (by omega), hlen, Nat.add_sub_cancel_left]

end

/-! ### The encoded file, byte by byte (R44, R45, R64, R65) -/

theorem encodedFile_eq_offeredFile (s : State) : encodedFile s = offeredFile s := by
  rw [offeredFile, rowsBytes_eq]
  rfl

theorem length_pixelBytes (px : Pixel) : (pixelBytes px).length = 3 := rfl

/-- Byte b of column c's pixel in a row's bytes. -/
theorem getElem?_rowBytes_pixel (s : State) {w c b : Nat} (r : Nat) (hc : c < w) (hb : b < 3) :
    (rowBytes s w r)[3 * c + b]? = (pixelBytes (s.imgRead r c))[b]? := by
  have hlen := fun c => length_pixelBytes (s.imgRead r c)
  rw [rowBytes, List.getElem?_append_left (by rw [length_flatMap_range hlen]; omega), Nat.mul_comm 3 c]
  exact getElem?_flatMap_range hlen hc hb

theorem getElem?_rowBytes_padding (s : State) {w j : Nat} (r : Nat) (hj : 3 * w ≤ j) (hlt : j < stride w) :
    (rowBytes s w r)[j]? = some 0 := by
  have hlen := fun c => length_pixelBytes (s.imgRead r c)
  have hpix := length_flatMap_range hlen w
  rw [rowBytes, List.getElem?_append_right (by omega), List.getElem?_replicate, if_pos (by omega)]

/-- Byte j of on-disk row k stands at 54 + k · stride(w) + j, and is one of in-memory row h - 1 - k (R65). -/
theorem getElem?_encodedFile (s : State) {k j : Nat} (hk : k < s.imgH.toNat) (hj : j < stride s.imgW.toNat) :
    (encodedFile s)[54 + k * stride s.imgW.toNat + j]? = (rowBytes s s.imgW.toNat (s.imgH.toNat - 1 - k))[j]? := by
  have hoff : 54 + k * stride s.imgW.toNat + j - 54 = k * stride s.imgW.toNat + j := by omega
  rw [encodedFile, List.getElem?_append_right (by simp; omega), List.length_append, length_packFH, length_packIH, hoff]
  exact getElem?_flatMap_range (fun k => length_rowBytes s _ (s.imgH.toNat - 1 - k)) hk hj

/-- Settles O30: the rows are blocks of stride(w) bytes after the 54 header bytes, and the pixels blocks of 3 bytes of
their row. -/
theorem encodedFileLayout : Obligations.EncodedFileLayout := by
  refine fun s => ⟨?_, List.take_left' rfl, fun k hk => ⟨fun c hc => ?_, fun j hj hlt => ?_⟩⟩
  · rw [encodedFile_eq_offeredFile, length_offeredFile, encodedSize, Nat.add_comm]
  · have hrow := stride_eq s.imgW.toNat
    have byte {b : Nat} (hb : b < 3) :
        (encodedFile s)[54 + k * stride s.imgW.toNat + 3 * c + b]? =
          (pixelBytes (s.imgRead (s.imgH.toNat - 1 - k) c))[b]? := by
      rw [Nat.add_assoc, getElem?_encodedFile s hk (by omega), getElem?_rowBytes_pixel s _ hc hb]
    exact ⟨byte (b := 0) (by omega), byte (b := 1) (by omega), byte (b := 2) (by omega)⟩
  · rw [getElem?_encodedFile s hk hlt, getElem?_rowBytes_padding s _ hj hlt]

/-! ### What each command writes (R60) -/

/-- ENCODE writes OUT, OUT_LEN, the headers and STATUS, and uses up answers. -/
theorem exec_encode_frame {s t : State} (h : exec .encode s = .next t) :
    t = { s with outHeld := t.outHeld, out := t.out, outLen := t.outLen, fh := t.fh, ih := t.ih, hb := t.hb,
                 acks := t.acks, draws := t.draws, status := t.status, seq := t.seq } := by
  have hst : (encodeBody s).st = { s with
      outHeld := false, out := (encodeBody s).st.out, outLen := (encodeBody s).st.outLen, fh := (encodeBody s).st.fh
      ih := (encodeBody s).st.ih, hb := (encodeBody s).st.hb, acks := (encodeBody s).st.acks
      draws := (encodeBody s).st.draws } := by
    obtain ⟨e, _, hend⟩ | ⟨_, hend⟩ | ⟨n, _, _, hend⟩ | ⟨n, _, _, _, hend⟩ := encodeBody_cases s
    all_goals rw [hend]; apply State.ext <;> simp
  obtain ⟨_, rfl⟩ | ⟨e, _, rfl⟩ := CmdEnd.finish_next h
  all_goals rw [hst]; rfl

/-- DECODE writes the image, the headers and STATUS, and spends a draw of IN. -/
theorem exec_decode_frame {s t : State} (h : exec .decode s = .next t) :
    t = { s with imgW := t.imgW, imgH := t.imgH, imgPix := t.imgPix, inEpoch := t.inEpoch, fh := t.fh, ih := t.ih,
                 hb := t.hb, status := t.status, seq := t.seq } := by
  unfold exec execDecode at h
  obtain ⟨e, u, rfl | rfl, _, hend⟩ | ⟨_, _, hend⟩ := decode_cases s
  all_goals rw [hend] at h; cases h; rfl

/-- Settles O45: the fields each command's state equation leaves out are the state's. -/
theorem commandsWriteOnlyTheirResults : Obligations.CommandsWriteOnlyTheirResults := by
  intro i s t h
  cases i with
  | encode => rw [exec_encode_frame h]; simp
  | decode => rw [exec_decode_frame h]; simp
  | fhUnpack | fhPack | ihUnpack | ihPack | stride => cases h; simp

/-! ### The lines of a host program (R68) -/

theorem labelIndex_eq_some_iff (p : List HostLine) (l n : Nat) :
    labelIndex p l = some n ↔ p[n]? = some (.label l) ∧ ∀ m, m < n → p[m]? ≠ some (.label l) := by
  rw [labelIndex, List.findIdx?_eq_some_iff_getElem]
  constructor
  · rintro ⟨hn, hat, hbefore⟩
    refine ⟨?_, fun m hm hp => ?_⟩
    · rw [List.getElem?_eq_getElem hn, eq_of_beq hat]
    · obtain ⟨_, hp⟩ := List.getElem?_eq_some_iff.1 hp
      exact hbefore m hm (beq_iff_eq.2 hp)
  · rintro ⟨hp, hbefore⟩
    obtain ⟨hn, hp⟩ := List.getElem?_eq_some_iff.1 hp
    exact ⟨hn, beq_iff_eq.2 hp, fun m hm hat =>
      hbefore m hm (by rw [List.getElem?_eq_getElem (Nat.lt_trans hm hn), eq_of_beq hat])⟩

theorem labelIndex_eq_none_iff (p : List HostLine) (l : Nat) :
    labelIndex p l = none ↔ ∀ n : Nat, p[n]? ≠ some (.label l) := by
  rw [labelIndex, List.findIdx?_eq_none_iff]
  constructor
  · intro h n hp
    exact absurd (h _ (List.mem_of_getElem? hp)) (by simp)
  · intro h x hx
    obtain ⟨n, hn⟩ := List.mem_iff_getElem?.1 hx
    exact beq_eq_false_iff_ne.2 fun hxl => h n (hxl ▸ hn)

/-- A temporary that has been given a value holds it; every other holds what it did. -/
theorem HostAgent.temp_setTemp (h : HostAgent) (d : Nat) (v : Word) (x : Nat) :
    (h.setTemp d v).temp x = if x = d then v else h.temp x := by
  unfold HostAgent.temp HostAgent.setTemp
  by_cases hx : x = d
  · subst hx; simp
  · simp only [if_neg hx, Memory.get?_set_ne _ _ hx]

/-- What a host read returns does not depend on the line the host stands at. -/
theorem busReadValue_atLine (r : Reg) (s : State) (n : Nat) :
    busReadValue (regOffset r) (s.atLine n) = busReadValue (regOffset r) s := by
  have hread : regRead r (s.atLine n) = regRead r s := by cases r <;> rfl
  rw [busReadValue_regOffset, busReadValue_regOffset, hread]
  rfl

/-- A host read gives no temporary a value. -/
theorem busReadState_temps (off : Nat) (s : State) : (busReadState off s).host.temps = s.host.temps := by
  obtain h | h | ⟨_, h⟩ := busReadState_cases off s <;> rw [h]

/-- What `rd r` has made of the state once the host, gone on to the next line, has seen the word, and before the word
is in its temporary. -/
def State.readAtNextLine (r : Reg) (s : State) : State :=
  let u := busReadState (regOffset r) (s.atLine (s.host.pc + 1))
  { u with host := { u.host with seen := some (.word (busReadValue (regOffset r) s)) } }

theorem busRead_atNextLine (r : Reg) (s : State) :
    busRead (regOffset r) 4 (s.atLine (s.host.pc + 1)) = .next (s.readAtNextLine r) := by
  rw [busRead_regOffset, busReadValue_atLine]
  rfl

theorem temp_readAtNextLine (r : Reg) (s : State) (x : Nat) : (s.readAtNextLine r).host.temp x = s.host.temp x := by
  have htemps : (s.readAtNextLine r).host.temps = s.host.temps := busReadState_temps _ _
  rw [HostAgent.temp, HostAgent.temp, htemps]

section
variable {s : State}

theorem hostLine_wr {r : Reg} {v : Word} (h : s.host.prog[s.host.pc]? = some (.wr r v)) :
    hostLine s = busWrite (regOffset r) 4 v (s.atLine (s.host.pc + 1)) := by
  simp only [hostLine, h]

theorem hostLine_rd {r : Reg} {d : Nat} (h : s.host.prog[s.host.pc]? = some (.rd r d)) :
    hostLine s = .next { s.readAtNextLine r with
      host := (s.readAtNextLine r).host.setTemp d (busReadValue (regOffset r) s) } := by
  simp only [hostLine, h, busRead_atNextLine]

theorem hostLine_andi {d x : Nat} {imm : Word} (h : s.host.prog[s.host.pc]? = some (.andi d x imm)) :
    hostLine s = .next { s with
      host := { s.host.setTemp d (s.host.temp x &&& imm) with pc := s.host.pc + 1 } } := by
  simp only [hostLine, h]

theorem hostLine_bnz_zero {x l : Nat} (h : s.host.prog[s.host.pc]? = some (.bnz x l)) (hx : s.host.temp x = 0) :
    hostLine s = .next (s.atLine (s.host.pc + 1)) := by
  simp only [hostLine, h, if_pos hx]

theorem hostLine_bnz_taken {x l n : Nat} (h : s.host.prog[s.host.pc]? = some (.bnz x l)) (hx : s.host.temp x ≠ 0)
    (hl : labelIndex s.host.prog l = some n) : hostLine s = .next (s.atLine n) := by
  simp only [hostLine, h, if_neg hx, hl]

theorem hostLine_bnz_noLabel {x l : Nat} (h : s.host.prog[s.host.pc]? = some (.bnz x l)) (hx : s.host.temp x ≠ 0)
    (hl : labelIndex s.host.prog l = none) : hostLine s = .refused .noSuchLabel := by
  simp only [hostLine, h, if_neg hx, hl]

theorem hostLine_label {l : Nat} (h : s.host.prog[s.host.pc]? = some (.label l)) :
    hostLine s = .next (s.atLine (s.host.pc + 1)) := by
  simp only [hostLine, h]

theorem hostLine_pastLast (h : s.host.prog[s.host.pc]? = none) : hostLine s = .next s := by
  simp only [hostLine, h]

end

/-- Settles O56: one lemma per kind of line says what the host's move makes of the state. -/
theorem hostProgramLines : Obligations.HostProgramLines := by
  refine ⟨fun p l => ⟨labelIndex_eq_some_iff p l, labelIndex_eq_none_iff p l⟩, fun s => ⟨fun _ _ h => hostLine_wr h,
    fun r d h => ⟨_, _, _, busRead_atNextLine r s, rfl, hostLine_rd h, rfl, fun x => ?_⟩,
    fun d x imm h => ⟨_, hostLine_andi h, rfl, s.host.temp_setTemp d (s.host.temp x &&& imm)⟩,
    fun _ _ h => ⟨hostLine_bnz_zero h, fun hx => ⟨fun _ => hostLine_bnz_taken h hx, hostLine_bnz_noLabel h hx⟩⟩,
    fun _ h => hostLine_label h, hostLine_pastLast⟩⟩
  exact (HostAgent.temp_setTemp _ _ _ _).trans (if_congr Iff.rfl rfl (temp_readAtNextLine r s x))

end Sys2Proof.Machine

/-! PROOF. The statements about the file header: FH_UNPACK and FH_PACK (R72, R73), and that packFH and unpackFH are
inverse (R70, R71). -/

namespace Sys2Proof.Machine

/-! ### Fields assembled from HB, and bytes stored into it (R29, R42) -/

/-- A 16-bit field of a part of HB is two neighbouring bytes of HB. -/
theorem le16_hbSlice (hb : Vector Byte 54) {o n k : Nat} (hk : k + 1 < n) (hfit : o + k + 1 < 54) :
    le16 (hbSlice hb o n) k = hb[o + k + 1] ++ hb[o + k] := by
  rw [le16, hbSlice_getD hb o n (k + 1) hk hfit, hbSlice_getD hb o n k (by omega) (by omega)]
  rfl

/-- A 32-bit field of a part of HB is four neighbouring bytes of HB. -/
theorem le32_hbSlice (hb : Vector Byte 54) {o n k : Nat} (hk : k + 3 < n) (hfit : o + k + 3 < 54) :
    le32 (hbSlice hb o n) k = hb[o + k + 3] ++ hb[o + k + 2] ++ hb[o + k + 1] ++ hb[o + k] := by
  rw [le32, hbSlice_getD hb o n (k + 3) hk hfit, hbSlice_getD hb o n (k + 2) (by omega) (by omega),
    hbSlice_getD hb o n (k + 1) (by omega) (by omega), hbSlice_getD hb o n k (by omega) (by omega)]
  rfl

/-- Bytes stored from index o stand between HB's first o bytes and the bytes past them. -/
theorem toList_hbWrite (hb : Vector Byte 54) {o : Nat} {bs : List Byte} (hfit : o + bs.length ≤ 54) :
    (hbWrite hb o bs).toList = hb.toList.take o ++ (bs ++ hb.toList.drop (o + bs.length)) := by
  have hlen := length_hb hb
  refine List.ext_getElem? fun j => ?_
  obtain hj | hj := Nat.lt_or_ge j 54
  · rw [getElem?_hbWrite hb o bs j hj, List.getElem?_append, List.getElem?_append, List.length_take]
    split
    case isTrue hin => rw [if_neg (by omega), if_pos (by omega), Nat.min_eq_left (by omega)]
    case isFalse hout =>
      obtain hlt | hge := Nat.lt_or_ge j o
      · rw [if_pos (by omega), List.getElem?_take_of_lt hlt]
      · rw [if_neg (by omega), if_neg (by omega), List.getElem?_drop]
        congr 1
        omega
  · rw [List.getElem?_eq_none (by simpa using hj), List.getElem?_eq_none (by simp; omega)]

/-! ### The file header's commands (R72, R73) -/

/-- The file header's fields as bytes of HB (R61). -/
theorem unpackFH_hbSlice (hb : Vector Byte 54) :
    unpackFH (hbSlice hb 0 14) =
      { type := hb[1] ++ hb[0], size := hb[5] ++ hb[4] ++ hb[3] ++ hb[2],
        reserved := hb[9] ++ hb[8] ++ hb[7] ++ hb[6], offBits := hb[13] ++ hb[12] ++ hb[11] ++ hb[10] } := by
  rw [unpackFH, le16_hbSlice hb (by omega) (by omega), le32_hbSlice hb (by omega) (by omega),
    le32_hbSlice hb (by omega) (by omega), le32_hbSlice hb (by omega) (by omega)]

/-- Settles O21: the four fields are bytes of HB[0..13], and the completion writes STATUS alone. -/
theorem fhUnpackResult : Obligations.FhUnpackResult := by
  intro s
  rw [← unpackFH_hbSlice]
  rfl

/-- Settles O22: the 14 bytes packed stand before HB[14..53], which the store keeps. -/
theorem fhPackResult : Obligations.FhPackResult := by
  intro s
  have hstored : (hbWrite s.hb 0 (packFH s.fh)).toList = packFH s.fh ++ s.hb.toList.drop 14 :=
    toList_hbWrite s.hb (by simp)
  refine ⟨_, rfl, ?_, ?_, rfl⟩
  · exact (congrArg (List.take 14) hstored).trans (List.take_left' (length_packFH s.fh))
  · exact (congrArg (List.drop 14) hstored).trans (List.drop_left' (length_packFH s.fh))

/-! ### The file header record and its 14 bytes (R70, R71) -/

/-- Each field is read back from its own bytes, at its offset of R61. -/
theorem unpackFH_packFH (f : FileHeader) : unpackFH (packFH f) = f := by
  have htype : le16 (packFH f) 0 = f.type := le16_bytes16 [] _ f.type
  have hsize : le32 (packFH f) 2 = f.size := le32_bytes32 (bytes16 f.type) _ f.size
  have hreserved : le32 (packFH f) 6 = f.reserved := le32_bytes32 (bytes16 f.type ++ bytes32 f.size) _ f.reserved
  have hoffBits : le32 (packFH f) 10 = f.offBits :=
    le32_bytes32 (bytes16 f.type ++ bytes32 f.size ++ bytes32 f.reserved) [] f.offBits
  rw [unpackFH, htype, hsize, hreserved, hoffBits]

/-- The fields' bytes are the sequence cut at the offsets of R61, and the pieces make it up again. -/
theorem packFH_unpackFH {B : List Byte} (hlen : B.length = 14) : packFH (unpackFH B) = B := by
  calc packFH (unpackFH B)
    _ = (B.drop 0).take 2 ++ (B.drop 2).take 4 ++ (B.drop 6).take 4 ++ (B.drop 10).take 4 := by
      rw [packFH, unpackFH, bytes16_le16 B 0 (by omega), bytes32_le32 B 2 (by omega), bytes32_le32 B 6 (by omega),
        bytes32_le32 B 10 (by omega)]
    _ = B.take 14 := by
      rw [List.drop_zero, ← List.take_add, ← List.take_add, ← List.take_add]
    _ = B := List.take_of_length_le hlen.le

/-- Settles O25: one lemma for each direction. -/
theorem fileHeaderInverse : Obligations.FileHeaderInverse :=
  ⟨unpackFH_packFH, fun _ => packFH_unpackFH⟩

end Sys2Proof.Machine

/-! PROOF. The statements about the info header: IH_UNPACK and IH_PACK (R76, R77), and that packIH and unpackIH are
inverse (R74, R75). -/

namespace Sys2Proof.Machine

/-! ### The info header record and its 40 bytes (R74, R75) -/

/-- At each field's offset of R62 stand that field's own bytes, from which the field is assembled again. -/
theorem unpackIH_packIH (i : InfoHeader) : unpackIH (packIH i) = i := by
  simp only [unpackIH, le32, le16, packIH, bytes32, bytes16, List.cons_append, List.nil_append,
    List.getD_cons_succ, List.getD_cons_zero, word_of_bytes, half_of_bytes]

/-- The fields' bytes are the sequence cut at the offsets of R62, and the pieces make it up again. -/
theorem packIH_unpackIH {B : List Byte} (hlen : B.length = 40) : packIH (unpackIH B) = B := by
  have word {k : Nat} (hk : k + 4 ≤ 40) : bytes32 (le32 B k) = (B.drop k).take 4 := bytes32_le32 B k (hlen ▸ hk)
  have half {k : Nat} (hk : k + 2 ≤ 40) : bytes16 (le16 B k) = (B.drop k).take 2 := bytes16_le16 B k (hlen ▸ hk)
  calc packIH (unpackIH B)
    _ = (B.drop 0).take 4 ++ (B.drop 4).take 4 ++ (B.drop 8).take 4 ++ (B.drop 12).take 2 ++ (B.drop 14).take 2
        ++ (B.drop 16).take 4 ++ (B.drop 20).take 4 ++ (B.drop 24).take 4 ++ (B.drop 28).take 4
        ++ (B.drop 32).take 4 ++ (B.drop 36).take 4 := by
      simp (disch := omega) only [packIH, unpackIH, word, half]
    _ = B.take 40 := by
      simp only [List.drop_zero, ← List.take_add]
    _ = B := List.take_of_length_le hlen.le

/-- Settles O26: one lemma for each direction. -/
theorem infoHeaderInverse : Obligations.InfoHeaderInverse :=
  ⟨unpackIH_packIH, fun _ => packIH_unpackIH⟩

/-! ### IH_UNPACK (R76) -/

/-- The info header's fields as bytes of HB (R62). -/
theorem unpackIH_hbSlice (hb : Vector Byte 54) :
    unpackIH (hbSlice hb 14 40) =
      { size := hb[17] ++ hb[16] ++ hb[15] ++ hb[14], width := hb[21] ++ hb[20] ++ hb[19] ++ hb[18],
        height := hb[25] ++ hb[24] ++ hb[23] ++ hb[22], planes := hb[27] ++ hb[26], bitCount := hb[29] ++ hb[28],
        compression := hb[33] ++ hb[32] ++ hb[31] ++ hb[30], sizeImage := hb[37] ++ hb[36] ++ hb[35] ++ hb[34],
        xPelsPerMeter := hb[41] ++ hb[40] ++ hb[39] ++ hb[38], yPelsPerMeter := hb[45] ++ hb[44] ++ hb[43] ++ hb[42],
        clrUsed := hb[49] ++ hb[48] ++ hb[47] ++ hb[46], clrImportant := hb[53] ++ hb[52] ++ hb[51] ++ hb[50] } := by
  simp (disch := omega) only [unpackIH, le16_hbSlice, le32_hbSlice]

/-- Settles O23: the eleven fields are bytes of HB[14..53], and the completion writes STATUS alone. -/
theorem ihUnpackResult : Obligations.IhUnpackResult := by
  intro s
  rw [← unpackIH_hbSlice]
  rfl

/-! ### IH_PACK (R77) -/

/-- The bytes of a 16-bit field, each at its place in the sequence the field is assembled from (R9). -/
theorem getElem?_of_le16_eq {B : List Byte} {k j : Nat} {v : Half} (hv : le16 B k = v) (hk : k + 2 ≤ B.length)
    (hj : j < 2) : B[k + j]? = some (v.extractLsb' (8 * j) 8) := by
  have hbytes : (bytes16 v)[j]? = some (v.extractLsb' (8 * j) 8) := by
    interval_cases j <;> rfl
  rwa [← hv, bytes16_le16 B k hk, hv, List.getElem?_take_of_lt hj, List.getElem?_drop] at hbytes

/-- The bytes of a 32-bit field, each at its place in the sequence the field is assembled from (R9). -/
theorem getElem?_of_le32_eq {B : List Byte} {k j : Nat} {v : Word} (hv : le32 B k = v) (hk : k + 4 ≤ B.length)
    (hj : j < 4) : B[k + j]? = some (v.extractLsb' (8 * j) 8) := by
  have hbytes : (bytes32 v)[j]? = some (v.extractLsb' (8 * j) 8) := by
    interval_cases j <;> rfl
  rwa [← hv, bytes32_le32 B k hk, hv, List.getElem?_take_of_lt hj, List.getElem?_drop] at hbytes

/-- HB holds the bytes stored from index o, one after the other. -/
theorem getElem?_hbWrite_add (hb : Vector Byte 54) {o k : Nat} {bs : List Byte} (hfit : o + bs.length ≤ 54)
    (hk : k < bs.length) : (hbWrite hb o bs).toList[o + k]? = bs[k]? := by
  rw [getElem?_hbWrite hb o bs (o + k) (by omega), if_pos (by omega), Nat.add_sub_cancel_left]

/-- The bytes of HB before the store's first index are kept. -/
theorem take_hbWrite (hb : Vector Byte 54) {o : Nat} {bs : List Byte} (hfit : o + bs.length ≤ 54) :
    (hbWrite hb o bs).toList.take o = hb.toList.take o := by
  rw [toList_hbWrite hb hfit]
  exact List.take_left' (by rw [List.length_take, length_hb]; omega)

/-- Settles O24: the 40 bytes packed stand after HB[0..13], which the store keeps, and hold each field's bytes at its
offset, since unpacking them gives the fields back. -/
theorem ihPackResult : Obligations.IhPackResult := by
  intro s
  have hfields : unpackIH (packIH s.ih) = s.ih := unpackIH_packIH s.ih
  have byte (k : Nat) (hk : k < 40) : (hbWrite s.hb 14 (packIH s.ih)).toList[14 + k]? = (packIH s.ih)[k]? :=
    getElem?_hbWrite_add s.hb (by simp) (by simpa using hk)
  have word (k : Nat) {v : Word} (hv : le32 (packIH s.ih) k = v) (hk : k + 4 ≤ 40) (j : Nat) (hj : j < 4) :
      (hbWrite s.hb 14 (packIH s.ih)).toList[14 + k + j]? = some (v.extractLsb' (8 * j) 8) := by
    rw [Nat.add_assoc]
    exact (byte (k + j) (by omega)).trans (getElem?_of_le32_eq hv (by simpa using hk) hj)
  have half (k : Nat) {v : Half} (hv : le16 (packIH s.ih) k = v) (hk : k + 2 ≤ 40) (j : Nat) (hj : j < 2) :
      (hbWrite s.hb 14 (packIH s.ih)).toList[14 + k + j]? = some (v.extractLsb' (8 * j) 8) := by
    rw [Nat.add_assoc]
    exact (byte (k + j) (by omega)).trans (getElem?_of_le16_eq hv (by simpa using hk) hj)
  refine ⟨_, rfl, ?_, ?_, ?_, rfl⟩
  · simp only [List.forall_mem_cons]
    exact ⟨word 0 (congrArg InfoHeader.size hfields) (by omega),
      word 4 (congrArg InfoHeader.width hfields) (by omega),
      word 8 (congrArg InfoHeader.height hfields) (by omega),
      word 16 (congrArg InfoHeader.compression hfields) (by omega),
      word 20 (congrArg InfoHeader.sizeImage hfields) (by omega),
      word 24 (congrArg InfoHeader.xPelsPerMeter hfields) (by omega),
      word 28 (congrArg InfoHeader.yPelsPerMeter hfields) (by omega),
      word 32 (congrArg InfoHeader.clrUsed hfields) (by omega),
      word 36 (congrArg InfoHeader.clrImportant hfields) (by omega), nofun⟩
  · simp only [List.forall_mem_cons]
    exact ⟨half 12 (congrArg InfoHeader.planes hfields) (by omega),
      half 14 (congrArg InfoHeader.bitCount hfields) (by omega), nofun⟩
  · exact take_hbWrite s.hb (by simp)

end Sys2Proof.Machine

/-! PROOF. The statements about the stride calculator: the laws of the row length (R78 to R82), and STRIDE (R81). -/

namespace Sys2Proof.Machine

/-! ### Row lengths (R78 to R82) -/

/-- A row's padding, as R82 has it: 3w and -w leave the same remainder by 4. -/
theorem padding_eq_mod (w : Nat) : padding w = w % 4 := by
  unfold padding; omega

/-- A row on disk is a whole number of 32-bit words. -/
theorem stride_mod_four (w : Nat) : stride w % 4 = 0 :=
  Nat.mul_mod_right 4 _

/-- Settles O28: the row is 3w bytes and its padding, which is w mod 4. -/
theorem strideLaws : Obligations.StrideLaws := by
  intro w
  have hge : 3 * w ≤ stride w := stride_eq w ▸ Nat.le_add_right _ _
  have hlt : stride w - 3 * w < 4 := stride_sub w ▸ padding_lt w
  exact ⟨stride_eq w, stride_mod_four w, hge, hlt, padding_eq_mod w⟩

/-! ### STRIDE (R81) -/

/-- The stride of a 32-bit width is under 3·2^32 + 4, so its 64 bits hold the whole of it. -/
theorem stride_lt (w : Word) : stride w.toNat < 2 ^ 64 := by
  have hrow := stride_eq w.toNat
  have hpad := padding_lt w.toNat
  have hw := w.isLt
  omega

/-- The two halves of a 64-bit value, the high one 2^32 times over, make up the value. -/
theorem toNat_halves (v : BitVec 64) :
    (v.extractLsb' 32 32).toNat * 2 ^ 32 + (v.extractLsb' 0 32).toNat = v.toNat := by
  have hlo : (v.extractLsb' 0 32).toNat = v.toNat % 2 ^ 32 := by
    rw [BitVec.extractLsb'_toNat, Nat.shiftRight_zero]
  have hhi : (v.extractLsb' 32 32).toNat = v.toNat / 2 ^ 32 := by
    rw [BitVec.extractLsb'_toNat, Nat.shiftRight_eq_div_pow]
    exact Nat.mod_eq_of_lt (Nat.div_lt_of_lt_mul v.isLt)
  rw [hlo, hhi]
  exact Nat.div_add_mod' _ _

/-- Settles O27: STRIDE_HI and STRIDE_LO are the halves of 64 bits that hold the whole stride, PAD_OUT's two bits hold the
whole padding, and the completion writes STATUS alone. -/
theorem strideResult : Obligations.StrideResult := by
  intro s
  refine ⟨_, rfl, ?_, ?_, rfl⟩
  · calc _ = (BitVec.ofNat 64 (stride s.argW.toNat)).toNat := toNat_halves _
      _ = stride s.argW.toNat := Nat.mod_eq_of_lt (stride_lt s.argW)
  · exact Nat.mod_eq_of_lt (padding_lt s.argW.toNat)

end Sys2Proof.Machine

/-! PROOF. The statements about the encoder: ENCODE's checks in their order (R84, R85), and where ENCODE ends once they
are passed (R86 to R92). -/

namespace Sys2Proof.Machine

/-! ### ENCODE's checks (R84, R85, R115) -/

theorem State.outReady_ne_zero {s : State} (h : s.outReady = 1) : s.outReady ≠ 0 := by
  rw [h]; decide

/-- With the sink ready and both dimensions in range, the two checks on the image's size are left. -/
theorem encodeCheck_of_dims {s : State} (hready : s.outReady = 1) (hw : s.imgW.toNat ≤ 2 ^ 31 - 1)
    (hh : s.imgH.toNat ≤ 2 ^ 31 - 1) :
    encodeCheck s =
      if s.imgW.toNat * s.imgH.toNat > s.params.imgMaxPixels then some .capacity
      else if encodedSize s.imgW.toNat s.imgH.toNat > Config.maxSize then some .range
      else none := by
  rw [encodeCheck, if_neg (State.outReady_ne_zero hready), if_neg (not_or.2 ⟨Nat.not_lt.2 hw, Nat.not_lt.2 hh⟩)]

/-- A failed check ends ENCODE with its code over the fresh sink. -/
theorem exec_encode_of_check {s : State} {e : ErrCode} (h : encodeCheck s = some e) :
    exec .encode s = .next (s.startSink.raiseFail e) :=
  congrArg CmdEnd.finish (encodeBody_check h)

/-- Settles O31: each failed check is the first, those before it having passed. -/
theorem encodeChecksInOrder : Obligations.EncodeChecksInOrder := by
  refine fun s => ⟨fun hoff => ?_, fun hready hdim => ?_, fun hready hw hh hcap => ?_, fun hready hw hh hcap hsize => ?_⟩
  · have hcheck : encodeCheck s = some .ioOut := if_pos hoff
    exact exec_encode_of_check hcheck
  · have hcheck : encodeCheck s = some .range := by
      rw [encodeCheck, if_neg (State.outReady_ne_zero hready), if_pos hdim]
    exact exec_encode_of_check hcheck
  · have hcheck : encodeCheck s = some .capacity := by
      rw [encodeCheck_of_dims hready hw hh, if_pos hcap]
    exact exec_encode_of_check hcheck
  · have hcheck : encodeCheck s = some .range := by
      rw [encodeCheck_of_dims hready hw hh, if_neg (Nat.not_lt.2 hcap)]
      exact if_pos hsize
    exact exec_encode_of_check hcheck

/-- The checks, passed one by one. -/
theorem State.Encodable.encodeCheck_eq_none {s : State} (h : s.Encodable) : encodeCheck s = none := by
  rw [encodeCheck_of_dims h.ready h.width h.height, if_neg (Nat.not_lt.2 h.capacity)]
  exact if_neg (Nat.not_lt.2 h.size)

/-! ### Where ENCODE ends once its checks are passed (R91, R92) -/

theorem length_encodedFile (s : State) : (encodedFile s).length = s.imgH.toNat * stride s.imgW.toNat + 54 := by
  rw [encodedFile_eq_offeredFile, length_offeredFile, encodedSize]

/-- The file offered is the file of R65. -/
theorem State.Encodable.encodeBody_eq_memWrite {s : State} (h : s.Encodable) :
    encodeBody s = memWrite (encodedFile s) s.startSink.buildHeaders := by
  rw [encodeBody_write h.encodeCheck_eq_none, encodedFile_eq_offeredFile]

/-- Every byte accepted: the sink has taken the whole file (R92). -/
theorem exec_encode_of_accepts {s : State} (h : s.Encodable)
    (ha : s.accepts (s.imgH.toNat * stride s.imgW.toNat + 54)) :
    exec .encode s = .next (s.startSink.buildHeaders.sinkTook (encodedFile s)).finishOk := by
  have hend := h.encodeBody_eq_memWrite.trans (memWrite_accepted fun j hj => ha j (length_encodedFile s ▸ hj))
  exact congrArg CmdEnd.finish hend

/-- Byte n refused: the sink has taken the n bytes before it, and one more answer is used up (R91). -/
theorem exec_encode_of_refused {s : State} {n : Nat} (h : s.Encodable)
    (hn : n < s.imgH.toNat * stride s.imgW.toNat + 54) (ha : s.accepts n) (hf : s.answerAt n = .fail) :
    exec .encode s =
      .next ((s.startSink.buildHeaders.sinkTook ((encodedFile s).take n)).answered.raiseFail .write) := by
  have hend := h.encodeBody_eq_memWrite.trans (memWrite_refused (length_encodedFile s ▸ hn) ha hf)
  exact congrArg CmdEnd.finish hend

theorem outBytes_written (s : State) (l : List Byte) : (s.startSink.buildHeaders.sinkTook l).outBytes = l :=
  State.outBytes_sinkTook _ l

/-- The width and the height stand in the info header as the registers hold them (R88). -/
theorem builtInfoHeader_dims (p : Params) (w h : Word) :
    (builtInfoHeader p w.toNat h.toNat).width = w ∧ (builtInfoHeader p w.toNat h.toNat).height = h := by
  simp [builtInfoHeader]

/-- The answers used up once a byte after l has been answered (R40; log 4). -/
theorem State.answers_answered_sinkTook (s : State) (l : List Byte) :
    (s.sinkTook l).answered.acks = s.acks.drop (l.length + 1) ∧
      (s.sinkTook l).answered.draws = s.draws + (l.length + 1 - s.acks.length) := by
  rw [State.answered_eq]
  constructor
  · exact List.drop_drop
  · simp only [State.sinkTook_draws, State.sinkTook_acks, List.length_drop]
    omega

/-- ENCODE over a fresh sink: what it leaves unchanged, and no command is under way after it (R34, R60). -/
theorem exec_encode_frame_fresh {s t : State} (h : exec .encode s = .next t) (hfresh : t.outHeld = false) :
    t = { s with outHeld := false, out := t.out, outLen := t.outLen, fh := t.fh, ih := t.ih, hb := t.hb, acks := t.acks,
                 draws := t.draws, status := t.status, seq := none } := by
  have hframe := exec_encode_frame h
  rwa [hfresh, (completed_exec h).1] at hframe

/-- Settles O29: the sink has taken the whole file, and no number of the headers has wrapped, since the file's size
passed its check. -/
theorem encodeCompletes : Obligations.EncodeCompletes := by
  intro s hs ha
  have hrun := exec_encode_of_accepts hs ha
  have hout := outBytes_written s (encodedFile s)
  have hlen := length_encodedFile s
  have hsize := hs.size
  obtain ⟨hwidth, hheight⟩ := builtInfoHeader_dims s.params s.imgW s.imgH
  refine ⟨_, hrun, hout, ?_, rfl, ?_, rfl, rfl, rfl, hwidth, hheight, rfl, rfl, rfl, ?_, rfl, rfl, rfl, rfl,
    toList_hb_buildHeaders s.startSink, ?_, ?_, exec_encode_frame_fresh hrun rfl⟩
  · rw [outLenCountsOut s _ hrun, Nat.add_comm, ← hlen]
    exact congrArg List.length hout
  · exact Nat.mod_eq_of_lt (Nat.lt_of_le_pred (by decide) hsize)
  · exact Nat.mod_eq_of_lt (show s.imgH.toNat * stride s.imgW.toNat < 2 ^ 32 by omega)
  · exact congrArg (fun l => s.acks.drop l.length) hout.symm
  · exact congrArg (fun l => s.draws + (l.length - s.acks.length)) hout.symm

/-- Settles O32: the sink has taken the file's first n bytes. -/
theorem encodeRefusedByte : Obligations.EncodeRefusedByte := by
  intro s n hs hn ha hf
  have hrun := exec_encode_of_refused hs hn ha hf
  have hlen : ((encodedFile s).take n).length = n := List.length_take_of_le (length_encodedFile s ▸ hn.le)
  generalize (encodedFile s).take n = l at *
  subst hlen
  have hout : (s.startSink.buildHeaders.sinkTook l).answered.outBytes = l := by
    rw [State.outBytes_answered, outBytes_written]
  obtain ⟨hacks, hdraws⟩ := State.answers_answered_sinkTook s.startSink.buildHeaders l
  have hcount := congrArg List.length hout
  have hpacked : s.startSink.buildHeaders.hb.toList =
      packFH s.startSink.buildHeaders.fh ++ packIH s.startSink.buildHeaders.ih := toList_hb_buildHeaders s.startSink
  exact ⟨_, hrun, hout, hcount, (outLenCountsOut s _ hrun).trans hcount, State.answered_fh _, State.answered_ih _,
    by simpa using hpacked, hacks, hdraws, exec_encode_frame_fresh hrun (State.answered_outHeld _)⟩

/-- Settles O35: with no pixel the file is its two headers, and every check on sizes passes. -/
theorem encodeEmptyImage : Obligations.EncodeEmptyImage := by
  intro s hready hw hh hempty ha
  have hpixels : s.imgW.toNat * s.imgH.toNat = 0 := by
    rcases hempty with h | h <;> simp [h]
  have hrows : s.imgH.toNat * stride s.imgW.toNat = 0 := by
    rcases hempty with h | h <;> simp [h, stride]
  have hs : s.Encodable := ⟨hready, hw, hh, by omega, by omega⟩
  have hlen : (encodedFile s).length = 54 := by rw [length_encodedFile, hrows]
  have hfile : encodedFile s = s.startSink.buildHeaders.hb.toList := by
    rw [toList_hb_buildHeaders]
    exact (List.take_of_length_le hlen.le).symm.trans (encodedFileLayout s).2.1
  have hrun := exec_encode_of_accepts hs (by rwa [hrows])
  have hout := outBytes_written s (encodedFile s)
  obtain ⟨hwidth, hheight⟩ := builtInfoHeader_dims s.params s.imgW s.imgH
  refine ⟨_, hrun, rfl, hout.trans hfile, BitVec.eq_of_toNat_eq ?_, ?_, hwidth, hheight⟩
  · exact (outLenCountsOut s _ hrun).trans ((congrArg List.length hout).trans hlen)
  · exact congrArg (fun n => BitVec.ofNat 32 (n + 54)) hrows

end Sys2Proof.Machine

/-! PROOF. The statements about the decoder: DECODE's checks in their order (R95 to R104), the file it loads (R105 to
R109), and that it reads back what ENCODE writes (R112). -/

namespace Sys2Proof.Machine

/-! ### The header's fields in IN (R61, R62, R96) -/

/-- A 16-bit field of bytes read from IN is a field of IN. -/
theorem le16_memRead (s : State) (a : Nat) {n o : Nat} (ho : o + 2 ≤ n) :
    le16 (s.memRead a n) o = s.inField16 (a + o) := by
  rw [le16, memRead_getD s a n (o + 1) ho, memRead_getD s a n o (by omega)]
  rfl

/-- A 32-bit field of bytes read from IN is a field of IN. -/
theorem le32_memRead (s : State) (a : Nat) {n o : Nat} (ho : o + 4 ≤ n) :
    le32 (s.memRead a n) o = s.inField32 (a + o) := by
  rw [le32, memRead_getD s a n (o + 3) ho, memRead_getD s a n (o + 2) (by omega),
    memRead_getD s a n (o + 1) (by omega), memRead_getD s a n o (by omega)]
  rfl

section
variable (s : State)

theorem loadHeaders_type : s.loadHeaders.fh.type = s.inField16 0 := by
  rw [loadHeaders_fh]; exact le16_memRead s 0 (by omega)

theorem loadHeaders_size : s.loadHeaders.fh.size = s.inField32 2 := by
  rw [loadHeaders_fh]; exact le32_memRead s 0 (by omega)

theorem loadHeaders_offBits : s.loadHeaders.fh.offBits = s.inField32 10 := by
  rw [loadHeaders_fh]; exact le32_memRead s 0 (by omega)

theorem loadHeaders_width : s.loadHeaders.ih.width = s.inField32 18 := by
  rw [loadHeaders_ih]; exact le32_memRead s 14 (by omega)

theorem loadHeaders_height : s.loadHeaders.ih.height = s.inField32 22 := by
  rw [loadHeaders_ih]; exact le32_memRead s 14 (by omega)

theorem loadHeaders_bitCount : s.loadHeaders.ih.bitCount = s.inField16 28 := by
  rw [loadHeaders_ih]; exact le16_memRead s 14 (by omega)

end

/-! ### DECODE's checks (R95 to R104) -/

/-- The type field is MAGIC exactly when the file begins with 0x42, 0x4D (R97). -/
theorem inField16_eq_magic_iff (s : State) :
    s.inField16 0 = Config.magic ↔ s.inByte 0 = 0x42 ∧ s.inByte 1 = 0x4D :=
  (half_eq_iff (s.inByte 1) (s.inByte 0) 0x4D 0x42).trans and_comm

/-- Steps 3 to 8b in order, on the file's own fields (R97 to R104). -/
theorem headerVerdict_eq (s : State) :
    s.headerVerdict =
      if s.inByte 0 = 0x42 ∧ s.inByte 1 = 0x4D then
        if (s.inField32 2).toNat = s.inLen then
          if 54 ≤ s.fileOff ∧ s.fileOff ≤ (s.inField32 2).toNat then
            if s.inField16 28 = 24 then
              if 0 < s32 (s.inField32 18) ∧ 0 < s32 (s.inField32 22) then
                if s.fileOff + s.fileH * stride s.fileW ≤ s.inLen then
                  if s.fileW * s.fileH ≤ s.params.imgMaxPixels then none
                  else some .capacity
                else some .trunc
              else some .dims
            else some .format
          else some .offset
        else some .size
      else some .type := by
  unfold State.headerVerdict decodeCheck State.fileOff State.fileH State.fileW
  rw [loadHeaders_type, loadHeaders_size, loadHeaders_offBits, loadHeaders_width, loadHeaders_height,
    loadHeaders_bitCount, ← stride_eq]
  simp only [ne_eq, inField16_eq_magic_iff, ite_not, gt_iff_lt, ← Nat.not_le, ← Int.not_lt, ← not_and_or]

theorem bit_ne_zero_iff : ∀ b : BitVec 1, b ≠ 0 ↔ b = 1 := by decide

/-- `Decodable` says that the three tests DECODE makes pass: IN_READY, IN_LEN, and the headers' verdict (R94). -/
theorem State.decodable_iff (s : State) :
    s.Decodable ↔ s.inReady ≠ 0 ∧ ¬ s.inLen < 54 ∧ s.headerVerdict = none := by
  rw [bit_ne_zero_iff, Nat.not_lt, headerVerdict_eq]
  constructor
  · intro h
    refine ⟨h.ready, h.long, ?_⟩
    rw [if_pos ⟨h.magic0, h.magic1⟩, if_pos h.size, if_pos ⟨h.offLow, h.offHigh⟩, if_pos h.bitCount,
      if_pos ⟨h.width, h.height⟩, if_pos h.long8a, if_pos h.capacity]
  · rintro ⟨hr, hlong, hv⟩
    split_ifs at hv with htype hsize hoff hformat hdims htrunc hcap
    exact ⟨hr, hlong, htype.1, htype.2, hsize, hoff.1, hoff.2, hformat, hdims.1, hdims.2, htrunc, hcap⟩

/-! ### Where DECODE ends (R94, R110) -/

theorem exec_decode_of_body {s : State} {r : CmdEnd} (h : decodeBody s = r) : exec .decode s = r.spendInDraw.finish :=
  congrArg (fun r => r.spendInDraw.finish) h

/-- With IN_READY = 0 DECODE fails before any read (R95). -/
theorem exec_decode_notReady {s : State} (hr : s.inReady = 0) :
    exec .decode s =
      .next (({ s with imgW := 0, imgH := 0, inEpoch := s.inEpoch + 1 } : State).raiseFail .ioIn) :=
  exec_decode_of_body (decodeBody_notReady hr)

/-- An input too short for the headers fails DECODE before it reads them (R96). -/
theorem exec_decode_short {s : State} (hr : s.inReady ≠ 0) (hl : s.inLen < 54) :
    exec .decode s =
      .next (({ s with imgW := 0, imgH := 0, inEpoch := s.inEpoch + 1 } : State).raiseFail .short) :=
  exec_decode_of_body (decodeBody_short hr hl)

/-- A failed header check ends DECODE with its code, the headers read and the sentinel written (R110). -/
theorem exec_decode_rejected {s : State} {e : ErrCode} (hr : s.inReady ≠ 0) (hl : ¬ s.inLen < 54)
    (hc : s.headerVerdict = some e) : exec .decode s = .next (s.decodeFailed e.code) :=
  exec_decode_of_body (decodeBody_rejected hr hl hc)

/-- The state DECODE completes in once it has loaded the file (R107). -/
def State.decodeLoaded (s : State) : State :=
  ({ s.decodeDone with inEpoch := s.inEpoch + 1 } : State).finishOk

theorem State.Decodable.exec_decode {s : State} (h : s.Decodable) : exec .decode s = .next s.decodeLoaded := by
  obtain ⟨hr, hl, hc⟩ := s.decodable_iff.1 h
  exact exec_decode_of_body (decodeBody_loaded hr hl hc)

/-- Settles O38: HB, FH_* and IH_* are what the header read leaves, and the failure writes only the sentinel, STATUS and
the model's count over it. -/
theorem decodeFailureKeepsHeaders : Obligations.DecodeFailureKeepsHeaders :=
  fun s _ => ⟨toList_hb_loadHeaders s, loadHeaders_fh s, loadHeaders_ih s, rfl⟩

/-- Settles O37: each failed check is the first, those before it having passed. -/
theorem decodeChecksInOrder : Obligations.DecodeChecksInOrder := by
  intro s
  have ready : s.inReady = 1 → s.inReady ≠ 0 := (bit_ne_zero_iff _).2
  refine ⟨fun hr => ?_, fun hr hl => ?_, fun hr hl => ?_⟩
  · exact exec_decode_notReady hr
  · exact exec_decode_short (ready hr) hl
  · have fails {e : ErrCode} (hc : s.headerVerdict = some e) : exec .decode s = .next (s.decodeFailed e.code) :=
      exec_decode_rejected (ready hr) (Nat.not_lt.2 hl) hc
    rw [headerVerdict_eq] at fails
    refine ⟨fun h3 => ?_, fun h3 h4 => ?_, fun h3 h4 h5 => ?_, fun h3 h4 h5 h6 => ?_, fun h3 h4 h5 h6 h7 => ?_,
      fun h3 h4 h5 h6 h7 h8a => ?_, fun h3 h4 h5 h6 h7 h8a h8b => ?_⟩
    · exact fails (e := .type) (if_neg h3)
    · exact fails (e := .size) (by rw [if_pos h3, if_neg h4])
    · exact fails (e := .offset) (by rw [if_pos h3, if_pos h4, if_neg h5])
    · exact fails (e := .format) (by rw [if_pos h3, if_pos h4, if_pos h5, if_neg h6])
    · exact fails (e := .dims) (by rw [if_pos h3, if_pos h4, if_pos h5, if_pos h6, if_neg h7])
    · exact fails (e := .trunc) (by rw [if_pos h3, if_pos h4, if_pos h5, if_pos h6, if_pos h7, if_neg h8a])
    · exact fails (e := .capacity)
        (by rw [if_pos h3, if_pos h4, if_pos h5, if_pos h6, if_pos h7, if_pos h8a, if_neg h8b])

/-- Settles O40: DECODE ends at one of the three kinds of failed check, where the state is not `Decodable`, or loads the
file. -/
theorem decodeAllOrNothing : Obligations.DecodeAllOrNothing := by
  intro s
  by_cases hr : s.inReady = 0
  · exact ⟨_, exec_decode_notReady hr, rfl, rfl,
      iff_of_false nofun fun h => (s.decodable_iff.1 h).1 hr, fun _ => ⟨rfl, rfl, rfl⟩⟩
  by_cases hl : s.inLen < 54
  · exact ⟨_, exec_decode_short hr hl, rfl, rfl,
      iff_of_false nofun fun h => (s.decodable_iff.1 h).2.1 hl, fun _ => ⟨rfl, rfl, rfl⟩⟩
  cases hc : s.headerVerdict with
  | some e =>
    refine ⟨_, exec_decode_rejected hr hl hc, rfl, rfl, iff_of_false nofun fun h => ?_, fun _ => ⟨rfl, rfl, rfl⟩⟩
    exact Option.some_ne_none e (hc.symm.trans (s.decodable_iff.1 h).2.2)
  | none =>
    have hs : s.Decodable := s.decodable_iff.2 ⟨hr, hl, hc⟩
    exact ⟨_, hs.exec_decode, rfl, rfl, iff_of_true rfl hs, nofun⟩

/-! ### The image DECODE loads (R105 to R107) -/

/-- A pixel of a row read from IN is three neighbouring bytes of IN (R44). -/
theorem pixelOf_memRead (s : State) (a : Nat) {w c : Nat} (hc : c < w) :
    pixelOf (s.memRead a (3 * w)) c =
      { red := s.inByte (a + 3 * c + 2), green := s.inByte (a + 3 * c + 1), blue := s.inByte (a + 3 * c) } := by
  rw [pixelOf, memRead_getD s a _ (3 * c + 2) (by omega), memRead_getD s a _ (3 * c + 1) (by omega),
    memRead_getD s a _ (3 * c) (by omega)]
  rfl

theorem State.imgRead_decodeLoaded (s : State) {r c : Nat} (hr : r < s.fileH) (hc : c < s.fileW) :
    s.decodeLoaded.imgRead r c =
      pixelOf (s.memRead (s.fileOff + (s.fileH - 1 - r) * stride s.fileW) (3 * s.fileW)) c := by
  unfold State.fileH State.fileW State.fileOff at *
  rw [← loadHeaders_width] at hc
  rw [← loadHeaders_height] at hr
  rw [← loadHeaders_width, ← loadHeaders_height, ← loadHeaders_offBits]
  exact s.imgRead_decodeDone hr hc

theorem State.imgCell_decodeLoaded (s : State) {i : Nat} (hi : s.fileW * s.fileH ≤ i) :
    s.decodeLoaded.imgCell i = s.imgCell i := by
  unfold State.fileH State.fileW at hi
  rw [← loadHeaders_width, ← loadHeaders_height] at hi
  exact congrArg (Option.getD · _) (get?_decodeRows_outside s.decodeReady _ _ _ s.imgPix hi)

/-- A dimension that passes step 7 is at least 1 and has its top bit clear (R100, R8). -/
theorem s32_pos_iff (v : Word) : 0 < s32 v ↔ 1 ≤ v.toNat ∧ v.toNat ≤ 2 ^ 31 - 1 := by
  have hmsb : v.getLsbD 31 = decide (2 ^ 31 ≤ v.toNat) := BitVec.msb_eq_decide v
  have hlt := v.isLt
  rw [s32, hmsb]
  obtain h | h := Nat.lt_or_ge v.toNat (2 ^ 31)
  · rw [if_neg (by simpa using h)]; omega
  · rw [if_pos (by simpa using h)]; omega

/-- Settles O39: the row stores give the image, and everything else is as the header read and the completion leave
it. -/
theorem decodeLoadsImage : Obligations.DecodeLoadsImage := by
  intro s hs
  have hw : s.decodeLoaded.imgW = s.inField32 18 := loadHeaders_width s
  have hh : s.decodeLoaded.imgH = s.inField32 22 := loadHeaders_height s
  have hvalid : imgValid s.decodeLoaded.imgW s.decodeLoaded.imgH = true := by
    rw [hw, hh, imgValid, Bool.and_eq_true, decide_eq_true_eq, decide_eq_true_eq]
    exact ⟨((s32_pos_iff _).1 hs.width).1, ((s32_pos_iff _).1 hs.height).1⟩
  refine ⟨_, hs.exec_decode, hw, hh, hvalid, toList_hb_loadHeaders s, loadHeaders_fh s, loadHeaders_ih s, ?_,
    fun i hi => s.imgCell_decodeLoaded hi, rfl⟩
  intro r c hr hc
  exact (s.imgRead_decodeLoaded hr hc).trans (pixelOf_memRead s _ hc)

/-! ### Bytes DECODE does not read (R109) -/

/-- Settles O41: the header read and the row reads are alike, so every check and every pixel stored is. -/
theorem decodeIgnoresUnreadBytes : Obligations.DecodeIgnoresUnreadBytes := by
  intro s m hs s' hheader hrows
  have hload : s'.loadHeaders = { s.loadHeaders with inMem := m } := by
    have hread : s'.memRead 0 54 = s.memRead 0 54 := memRead_congr fun j hj => hheader _ (by omega)
    unfold State.loadHeaders
    rw [hread]
  have hverdict : s'.headerVerdict = s.headerVerdict := by
    unfold State.headerVerdict
    rw [hload]
    rfl
  have hs' : s'.Decodable := s'.decodable_iff.2 (hverdict ▸ s.decodable_iff.1 hs)
  have hready : s'.decodeReady = { s.decodeReady with inMem := m } := by
    rw [State.decodeReady, hload]
    rfl
  have hpix : decodeRows { s.decodeReady with inMem := m } s.loadHeaders.ih.width.toNat s.loadHeaders.ih.height.toNat
        s.loadHeaders.fh.offBits.toNat s.imgPix = s.decodeDone.imgPix := by
    refine decodeRows_congr _ _ _ _ _ _ fun k hk j hj => ?_
    rw [loadHeaders_height] at hk
    rw [loadHeaders_width] at hj ⊢
    rw [loadHeaders_offBits]
    exact hrows k j hk hj
  have hdone : s'.decodeDone = { s.decodeDone with inMem := m } := by
    rw [State.decodeDone, hready, hload]
    exact congrArg (fun p => { s.decodeReady with inMem := m, imgPix := p }) hpix
  refine ⟨_, hs.exec_decode, hs'.exec_decode.trans ?_⟩
  rw [State.decodeLoaded, hdone]
  rfl

/-! ### DECODE of what ENCODE wrote (R112) -/

/-- IN listing a byte sequence from address 0 on reads as that sequence. -/
theorem State.inByte_of_ofBytes {s : State} {l : List Byte} {a : Nat} {b : Byte} (hm : s.inMem = Memory.ofBytes 0 l)
    (hb : l[a]? = some b) : s.inByte a = b := by
  have hget := Memory.get?_ofBytes l 0 a
  rw [Nat.zero_add, hb] at hget
  rw [State.inByte, hm, hget]
  rfl

theorem State.memRead_of_ofBytes {s : State} {l : List Byte} {n : Nat} (hm : s.inMem = Memory.ofBytes 0 l)
    (hn : n ≤ l.length) : s.memRead 0 n = l.take n := by
  refine List.ext_getElem? fun j => ?_
  obtain hj | hj := Nat.lt_or_ge j n
  · have hlt : j < l.length := Nat.lt_of_lt_of_le hj hn
    rw [memRead_getElem? s 0 n j hj, List.getElem?_take_of_lt hj, Nat.zero_add,
      State.inByte_of_ofBytes hm (List.getElem?_eq_getElem hlt), List.getElem?_eq_getElem hlt]
  · rw [List.getElem?_eq_none (by simpa [State.memRead] using hj), List.getElem?_eq_none (by simp; omega)]

/-- With IN_LEN_HI = 0 the length is IN_LEN_LO's (R23). -/
theorem State.inLen_of_hi_zero {s : State} (h : s.inLenHi = 0) : s.inLen = s.inLenLo.toNat := by
  simp [State.inLen, h]

/-- v holds the encoded file of s in IN, ready to be decoded, under the same parameters. -/
structure State.HoldsFileOf (v s : State) : Prop where
  inMem : v.inMem = Memory.ofBytes 0 (encodedFile s)
  inLen : v.inLen = (encodedFile s).length
  inReady : v.inReady = 1
  params : v.params = s.params

section
variable {v s : State} (h : v.HoldsFileOf s)
include h

/-- The header read gives back the headers ENCODE built, whose bytes the file begins with (R87, R88). -/
theorem State.HoldsFileOf.headers :
    v.loadHeaders.fh = builtFileHeader (encodedSize s.imgW.toNat s.imgH.toNat) ∧
      v.loadHeaders.ih = builtInfoHeader s.params s.imgW.toNat s.imgH.toNat := by
  have hread : v.memRead 0 54 = packFH (builtFileHeader (encodedSize s.imgW.toNat s.imgH.toNat))
      ++ packIH (builtInfoHeader s.params s.imgW.toNat s.imgH.toNat) :=
    (State.memRead_of_ofBytes h.inMem (by rw [length_encodedFile]; omega)).trans (encodedFileLayout s).2.1
  constructor
  · rw [loadHeaders_fh, ← memRead_take v 0 54 14 (by omega), hread, List.take_left' (length_packFH _),
      unpackFH_packFH]
  · rw [loadHeaders_ih, ← memRead_drop v 0 54 14 (by omega), hread, List.drop_left' (length_packFH _),
      unpackIH_packIH]

theorem State.HoldsFileOf.width : v.inField32 18 = s.imgW := by
  rw [← loadHeaders_width, h.headers.2]
  exact (builtInfoHeader_dims s.params s.imgW s.imgH).1

theorem State.HoldsFileOf.height : v.inField32 22 = s.imgH := by
  rw [← loadHeaders_height, h.headers.2]
  exact (builtInfoHeader_dims s.params s.imgW s.imgH).2

theorem State.HoldsFileOf.fileOff : v.fileOff = 54 := by
  rw [State.fileOff, ← loadHeaders_offBits, h.headers.1]
  rfl

theorem State.HoldsFileOf.fileW : v.fileW = s.imgW.toNat := congrArg BitVec.toNat h.width

theorem State.HoldsFileOf.fileH : v.fileH = s.imgH.toNat := congrArg BitVec.toNat h.height

/-- A file ENCODE wrote of an image that is not empty passes DECODE's checks: its size field is its length, the rows end
at its last byte, and the image fits the capacity it was encoded under (R112). -/
theorem State.HoldsFileOf.decodable (hs : s.Encodable) (hw : 1 ≤ s.imgW.toNat) (hh : 1 ≤ s.imgH.toNat) :
    v.Decodable := by
  have hlen : v.inLen = s.imgH.toNat * stride s.imgW.toNat + 54 := h.inLen.trans (length_encodedFile s)
  have hmagic : v.inByte 0 = 0x42 ∧ v.inByte 1 = 0x4D := by
    rw [← inField16_eq_magic_iff, ← loadHeaders_type, h.headers.1]
    rfl
  have hsize : (v.inField32 2).toNat = v.inLen := by
    rw [← loadHeaders_size, h.headers.1, hlen]
    exact Nat.mod_eq_of_lt (Nat.lt_of_le_pred (by decide) hs.size)
  constructor
  case ready => exact h.inReady
  case long => omega
  case magic0 => exact hmagic.1
  case magic1 => exact hmagic.2
  case size => exact hsize
  case offLow => rw [h.fileOff]
  case offHigh => rw [h.fileOff]; omega
  case bitCount => rw [← loadHeaders_bitCount, h.headers.2]; rfl
  case width => rw [h.width, s32_pos_iff]; exact ⟨hw, hs.width⟩
  case height => rw [h.height, s32_pos_iff]; exact ⟨hh, hs.height⟩
  case long8a => rw [h.fileOff, h.fileW, h.fileH]; omega
  case capacity => rw [h.fileW, h.fileH, h.params]; exact hs.capacity

/-- Row r of the image is on-disk row h - 1 - r of the file, where its pixels' bytes stand (R65, R106). -/
theorem State.HoldsFileOf.imgRead_decodeLoaded {r c : Nat} (hr : r < s.imgH.toNat) (hc : c < s.imgW.toNat) :
    v.decodeLoaded.imgRead r c = s.imgRead r c := by
  have hrow : s.imgH.toNat - 1 - (s.imgH.toNat - 1 - r) = r := by omega
  obtain ⟨hblue, hgreen, hred⟩ := ((encodedFileLayout s).2.2 (s.imgH.toNat - 1 - r) (by omega)).1 c hc
  rw [hrow] at hblue hgreen hred
  rw [v.imgRead_decodeLoaded (h.fileH ▸ hr) (h.fileW ▸ hc), h.fileOff, h.fileW, h.fileH, pixelOf_memRead v _ hc,
    State.inByte_of_ofBytes h.inMem hblue, State.inByte_of_ofBytes h.inMem hgreen,
    State.inByte_of_ofBytes h.inMem hred]

end

/-- Settles O42: IN holds the encoded file (O29), which passes DECODE's checks, and DECODE reads each pixel where ENCODE
wrote it. -/
theorem encodeDecodeRoundTrip : Obligations.EncodeDecodeRoundTrip := by
  intro s hs hw hh ha
  obtain ⟨t, hrun, hout, _⟩ := encodeCompletes s hs ha
  have hlen : t.outLen.toNat = (encodedFile s).length := (outLenCountsOut s t hrun).trans (congrArg List.length hout)
  have h : ({ t with inMem := Memory.ofBytes 0 t.outBytes, inLenLo := t.outLen, inLenHi := 0, inReady := 1 } :
      State).HoldsFileOf s :=
    { inMem := congrArg (Memory.ofBytes 0) hout
      inLen := (State.inLen_of_hi_zero rfl).trans hlen
      inReady := rfl
      params := keepsParams_exec .encode s t hrun }
  exact ⟨t, _, hrun, (h.decodable hs hw hh).exec_decode, rfl, (loadHeaders_width _).trans h.width,
    (loadHeaders_height _).trans h.height, fun r c hr hc => h.imgRead_decodeLoaded hr hc⟩

end Sys2Proof.Machine

/-! PROOF. The statements about reset and hazards: what a reset leaves, whatever it stops (R124 to R126), the unit that
waits, a write lost to BUSY = 1 (R131), and a sink that never answers (R135). -/

namespace Sys2Proof.Machine

/-! ### Waiting and lost writes (R124, R131, R135) -/

theorem unitMove_idle {s : State} (h : s.seq = none) : unitMove s = .next s := by
  unfold unitMove; rw [h]

theorem tick_idle {s : State} (h : s.seq = none) : tick s = .next s := by
  unfold tick; rw [h]

/-- Settles O8: the default move is then the host's, whose program has no line left. -/
theorem idleUnitWaits : Obligations.IdleUnitWaits := by
  intro s hsched hseq hpc
  rw [step_unscheduled hsched, defaultMove_idle hseq]
  exact hostLine_pastLast (List.getElem?_eq_none hpc)

theorem busAccessOk_word {off : Nat} (halign : off % 4 = 0) (hlt : off < 256) : busAccessOk off 4 = true := by
  simp [busAccessOk, halign, hlt]

/-- Settles O16: a write looks at BUSY before it looks for a register. -/
theorem busyWritesLost : Obligations.BusyWritesLost := by
  intro s off v hbusy halign hlt
  exact (if_pos (busAccessOk_word halign hlt)).trans (if_pos hbusy)

/-- Settles O33: the file is offered as one write, which stops at the byte that is never answered. -/
theorem silentSinkIsStuck : Obligations.SilentSinkIsStuck := by
  intro s n hs hn ha hnever
  have hend := hs.encodeBody_eq_memWrite.trans (memWrite_silent (length_encodedFile s ▸ hn) ha hnever)
  exact congrArg CmdEnd.finish hend

/-! ### What a reset makes of the state, by where the sequencer stands (R124, R125) -/

theorem applyReset_idle {s : State} (h : s.seq = none) : s.applyReset = s.resetRegs := by
  unfold State.applyReset; rw [h]

theorem applyReset_start {s : State} {q : Seq} (hq : s.seq = some q) (hp : q.pos = .start) :
    s.applyReset = (s.abortEffects q.word).resetRegs := by
  simp only [State.applyReset, hq, hp]

/-- A command the sequencer has begun is cut off as it stands; a DECODE's draw of unsupplied bytes is spent
(logs 5 and 11). -/
theorem applyReset_begun {s : State} {q : Seq} (hq : s.seq = some q) (hp : q.pos ≠ .start) :
    ∃ n, s.applyReset = ({ s with inEpoch := n } : State).resetRegs := by
  simp only [State.applyReset, hq]
  cases h : q.pos with
  | start => exact absurd h hp
  | offer => exact ⟨s.inEpoch, rfl⟩
  | gather => exact ⟨s.inEpoch, rfl⟩
  | fetch => exact ⟨s.inEpoch + 1, rfl⟩
  | store => exact ⟨s.inEpoch + 1, rfl⟩

theorem abortEffects_inMem (v : Word) (s : State) : (s.abortEffects v).inMem = s.inMem := by
  unfold State.abortEffects
  split
  · rfl
  · split
    · rfl
    · rfl
  · rfl

/-- Whatever it stops, a reset is the registers' reset over some state with the same IN. -/
theorem applyReset_eq_resetRegs (s : State) : ∃ u : State, s.applyReset = u.resetRegs ∧ u.inMem = s.inMem := by
  cases hq : s.seq with
  | none => exact ⟨s, applyReset_idle hq, rfl⟩
  | some q =>
    by_cases hp : q.pos = .start
    · exact ⟨_, applyReset_start hq hp, abortEffects_inMem q.word s⟩
    · obtain ⟨n, h⟩ := applyReset_begun hq hp
      exact ⟨_, h, rfl⟩

/-- R36: every register's reset value is 0. -/
theorem regRead_reset (r : Reg) : regRead r State.reset = 0 := by
  cases r with
  | hbw k => revert k; decide
  | _ => rfl

theorem regRead_applyReset (s : State) (r : Reg) : regRead r s.applyReset = 0 := by
  obtain ⟨u, hu, _⟩ := applyReset_eq_resetRegs s
  rw [hu, regRead_resetRegs, regRead_reset]

theorem applyReset_hb (s : State) : s.applyReset.hb = Vector.replicate 54 0 := by
  obtain ⟨u, hu, _⟩ := applyReset_eq_resetRegs s
  rw [hu]; rfl

theorem applyReset_seq (s : State) : s.applyReset.seq = none := by
  obtain ⟨u, hu, _⟩ := applyReset_eq_resetRegs s
  rw [hu]; rfl

theorem applyReset_status (s : State) :
    s.applyReset.status = { busy := false, done := false, ok := false, err := 0 } := by
  obtain ⟨u, hu, _⟩ := applyReset_eq_resetRegs s
  rw [hu]; rfl

theorem applyReset_inMem (s : State) : s.applyReset.inMem = s.inMem := by
  obtain ⟨u, hu, hin⟩ := applyReset_eq_resetRegs s
  rw [hu]; exact hin

/-- Settles O48: whatever it stops, a reset is the registers' reset, and with no command under way nothing else. -/
theorem resetClearsRegisters : Obligations.ResetClearsRegisters := by
  intro s
  have waits : s.applyReset.seq = none := applyReset_seq s
  refine ⟨_, rfl, regRead_applyReset s, applyReset_hb s, waits, applyReset_status s, unitMove_idle waits,
    tick_idle waits, applyReset_inMem s, applyReset_params s, fun hidle => ?_⟩
  rw [applyReset_idle hidle]
  exact ⟨rfl, rfl, rfl⟩

/-! ### A reset of a command under way (R125; log 11) -/

/-- Only ENCODE's and DECODE's words leave effects of a command at its start. -/
theorem abortEffects_other {v : Word} (h6 : v ≠ 6) (h7 : v ≠ 7) (s : State) : s.abortEffects v = s := by
  unfold State.abortEffects
  split
  · rename_i hv; exact absurd ((decodeCmd_eq_command_iff v .encode).1 hv) h6
  · rename_i hv; exact absurd ((decodeCmd_eq_command_iff v .decode).1 hv) h7
  · rfl

/-- A reset of a command under way, but for an ENCODE or a DECODE at its start, resets the registers and no more than
spends a draw of IN. -/
theorem applyReset_midCommand {s : State} {q : Seq} (hq : s.seq = some q)
    (h : q.pos ≠ .start ∨ (q.word ≠ 6 ∧ q.word ≠ 7)) :
    ∃ n, s.applyReset = ({ s with inEpoch := n } : State).resetRegs := by
  by_cases hp : q.pos = .start
  · obtain ⟨h6, h7⟩ := h.resolve_left (not_not_intro hp)
    exact ⟨s.inEpoch, by rw [applyReset_start hq hp, abortEffects_other h6 h7]⟩
  · exact applyReset_begun hq hp

/-- Settles O60: such a reset leaves the memories and the host's answers as they stand. -/
theorem resetMidCommand : Obligations.ResetMidCommand := by
  intro s q hq h
  obtain ⟨n, hreset⟩ := applyReset_midCommand hq h
  refine ⟨_, rfl, ?_, ?_, fun i => State.imgCell_congr ?_ i, regRead_applyReset s, applyReset_hb s, applyReset_seq s,
    applyReset_inMem s, applyReset_params s, ?_⟩
  all_goals
    rw [hreset]
    rfl

/-! ### A reset of an accepted ENCODE (R125; log 11) -/

/-- The checks are all there is to `Encodable` (R84, R85). -/
theorem State.encodable_of_encodeCheck {s : State} (h : encodeCheck s = none) : s.Encodable := by
  unfold encodeCheck at h
  split_ifs at h with hready hdims hcap hsize
  obtain ⟨hw, hh⟩ := not_or.1 hdims
  exact ⟨(bit_ne_zero_iff _).1 hready, Nat.not_lt.1 hw, Nat.not_lt.1 hh, Nat.not_lt.1 hcap, Nat.not_lt.1 hsize⟩

/-- However a write to the sink ends, OUT has gained the bytes before the first that is not accepted (R40). -/
theorem memWrite_out (v : List Byte) (s : State) :
    ∃ m, m ≤ v.length ∧ s.accepts m ∧ (memWrite v s).st.out = s.out ++ v.take m := by
  obtain ⟨ha, h⟩ | ⟨n, hn, ha, _, h⟩ | ⟨n, hn, ha, _, h⟩ := memWrite_cases v s
  · exact ⟨v.length, le_rfl, ha, by rw [h, List.take_length]; rfl⟩
  · exact ⟨n, hn.le, ha, by rw [h, State.answered_out]; rfl⟩
  · exact ⟨n, hn.le, ha, by rw [h]; rfl⟩

theorem State.Encodable.encodeBody_out {s : State} (h : s.Encodable) :
    ∃ m, m ≤ (encodedFile s).length ∧ s.accepts m ∧ (encodeBody s).st.out = (encodedFile s).take m := by
  rw [h.encodeBody_eq_memWrite]
  exact memWrite_out (encodedFile s) s.startSink.buildHeaders

theorem encodeBody_out_of_not_encodable {s : State} (h : ¬ s.Encodable) : (encodeBody s).st.out = [] := by
  cases hc : encodeCheck s with
  | some e => rw [encodeBody_check hc]; rfl
  | none => exact absurd (State.encodable_of_encodeCheck hc) h

/-- A stopped ENCODE leaves in OUT some of the first bytes it would have had accepted, and the image as it was. -/
theorem abortEffects_encode {v : Word} (hv : decodeCmd v = .command .encode) (s : State) :
    ∃ n, n ≤ (encodeBody s).st.out.length ∧ (s.abortEffects v).outBytes = (encodeBody s).st.out.take n ∧
      (s.abortEffects v).imgPix = s.imgPix := by
  refine ⟨_, Nat.le_of_lt_succ (Nat.mod_lt (Config.freeCount (encodeBody s).st.draws) (Nat.succ_pos _)), ?_, ?_⟩
  · simp only [State.abortEffects, hv]; rfl
  · simp only [State.abortEffects, hv]

/-- Settles O49: ENCODE would have had the file's first m bytes accepted, or none if a check fails, and the reset keeps
some of them from the front. -/
theorem resetDuringEncode : Obligations.ResetDuringEncode := by
  intro s hq
  obtain ⟨n, hn, hout, hpix⟩ := abortEffects_encode (decodeCmd_encode .encode) s
  have hreset : s.applyReset = (s.abortEffects (encode .encode)).resetRegs := applyReset_start hq rfl
  refine ⟨_, n, rfl, fun hs => ?_, fun hs => ?_, regRead_applyReset s, applyReset_seq s, applyReset_inMem s, ?_⟩
  · obtain ⟨m, hm, haccepts, htook⟩ := hs.encodeBody_out
    rw [htook, List.length_take_of_le hm] at hn
    refine ⟨hn.trans hm, ?_, fun j hj => ?_⟩
    · rw [hreset]
      exact hout.trans (by rw [htook, List.take_take, min_eq_left hn])
    · exact hn.trans (Nat.le_of_not_lt fun hlt => hj (haccepts j hlt))
  · rw [hreset]
    exact hout.trans (by rw [encodeBody_out_of_not_encodable hs, List.take_nil])
  · rw [hreset]
    exact hpix

/-! ### A reset of an accepted DECODE (R125; log 11) -/

/-- A stopped DECODE leaves OUT as it was and each cell as it was or as DECODE would have left it. -/
theorem abortEffects_decode {v : Word} (hv : decodeCmd v = .command .decode) (s : State) :
    (s.abortEffects v).outBytes = s.outBytes ∧
      ∀ i, (s.abortEffects v).imgCell i = s.imgCell i ∨
        (s.abortEffects v).imgCell i = (decodeBody s).st.imgCell i := by
  simp only [State.abortEffects, hv]
  split
  · rename_i r hr
    refine ⟨rfl, fun i => ?_⟩
    rw [hr]
    obtain hold | ⟨px, hnew, hland⟩ :=
      get?_landedPixels s.draws (r.imgW.toNat * r.imgH.toNat) r.imgPix s.imgPix i
    · exact .inl (congrArg (Option.getD · _) hold)
    · exact .inr (congrArg (Option.getD · _) (hland.trans hnew.symm))
  · exact ⟨rfl, fun _ => .inl rfl⟩

theorem exec_decode_imgPix {s u : State} (h : exec .decode s = .next u) : u.imgPix = (decodeBody s).st.imgPix := by
  obtain ⟨_, rfl⟩ | ⟨e, _, rfl⟩ := CmdEnd.finish_next (r := (decodeBody s).spendInDraw) h
  · rfl
  · rfl

/-- Settles O50: the cells DECODE would have written are its end's, and a reset lands some of them. -/
theorem resetDuringDecode : Obligations.ResetDuringDecode := by
  intro s u hq hu
  obtain ⟨hout, hcells⟩ := abortEffects_decode (decodeCmd_encode .decode) s
  have hreset : s.applyReset = (s.abortEffects (encode .decode)).resetRegs := applyReset_start hq rfl
  refine ⟨_, rfl, fun i => ?_, regRead_applyReset s, applyReset_seq s, applyReset_inMem s, ?_⟩
  · rw [hreset, State.imgCell_congr (exec_decode_imgPix hu) i]
    exact hcells i
  · rw [hreset]
    exact hout

end Sys2Proof.Machine
